-- ==== Sys2Proof/Word.lean ====
section
/-! DEFINITION. The word and byte types (00_scope.md R5, R7): VM32 has one width, 32 bits, and every
value is an unsigned word; `BitVec`'s `+`, `-`, `*` wrap modulo 2^32 and its `<`, `≤`, `/`, `%`
are unsigned, as R7 says. -/

namespace Sys2Proof

/-- An unsigned 32-bit value (R5, R12). It is also the unit of storage (R60). -/
abbrev Word := BitVec 32

/-- A byte of the instruction word (R100) or of the console stream (R355). -/
abbrev Byte := BitVec 8

/-- The highest physical word address, and the largest value a word holds (R5, R60). -/
abbrev wordMax : Nat := 0xFFFFFFFF

end Sys2Proof
end

