-- ==== Sys2Proof/Config.lean ====
section
/-! DEFINITION. The implementation parameters the source leaves open (00_scope.md R6), each under
the name R6 gives it and at the default that 92_eei_decisions.md decides. They are fixed for the
machine and are no part of its state. The model has no free value: the spec leaves no result,
flag or register undefined (INVENTORY.md, "What the manual leaves open"). -/

namespace Sys2Proof.Config

/-! `OPC_<mnemonic>`: byte 0 of each instruction word (R110, D1). -/

def OPC_ADD : Byte := 0x01
def OPC_SUB : Byte := 0x02
def OPC_MUL : Byte := 0x03
def OPC_DIV : Byte := 0x04
def OPC_MOD : Byte := 0x05
def OPC_OR : Byte := 0x06
def OPC_XOR : Byte := 0x07
def OPC_AND : Byte := 0x08
def OPC_NOT : Byte := 0x09
def OPC_SHL : Byte := 0x0A
def OPC_SHR : Byte := 0x0B
def OPC_MOV : Byte := 0x0C
def OPC_CMP : Byte := 0x0D
def OPC_JMP : Byte := 0x0E
def OPC_JZ : Byte := 0x0F
def OPC_JNZ : Byte := 0x10
def OPC_JGT : Byte := 0x11
def OPC_JGE : Byte := 0x12
def OPC_CALL : Byte := 0x13
def OPC_RET : Byte := 0x14
def OPC_RETN : Byte := 0x15
def OPC_ENTER : Byte := 0x16
def OPC_LEAVE : Byte := 0x17
def OPC_GETARGUMENT : Byte := 0x18
def OPC_PUSH : Byte := 0x19
def OPC_POP : Byte := 0x1A
def OPC_INT : Byte := 0x1B
def OPC_RETI : Byte := 0x1C
def OPC_VMRESUME : Byte := 0x1D
def OPC_CLI : Byte := 0x1E
def OPC_STI : Byte := 0x1F
def OPC_PRINT : Byte := 0x20
def OPC_HALT : Byte := 0x21

/-! `INTR_*`: the interrupt numbers of the CORE's own causes (R301, D13, D14). -/

def INTR_DIV_BY_ZERO : Word := 0
def INTR_INVALID_INSTR : Word := 1
def INTR_SEG_VIOL : Word := 2
def INTR_PRIV_VIOL : Word := 3
def INTR_TIMER : Word := 4

/-- The highest interrupt number; a greater one is fatal (R5, R310). -/
def maxInterrupt : Word := 32

/-- `interruptVectorBase`, a logical code address (R310, R312, D15). -/
def VECTOR_BASE : Word := 0x1000

/-- `vectorStride`, in words (R310, R312, D15). -/
def VECTOR_STRIDE : Word := 2

/-- The general register used as stack pointer (R25, D20). -/
def SP_INDEX : Fin 31 := 30

/-- The general register used as frame pointer (R25, D20). -/
def FP_INDEX : Fin 31 := 29

/-- The physical address of r0 in flat mode (R5, R21). -/
def flatRegisterBase : Word := 0x2000

/-! `VMEXIT_*`: the VM-exit trap reasons (R321, D27). -/

def VMEXIT_INTERRUPT : Word := 0
def VMEXIT_SPECIAL_REGISTER : Word := 1
def VMEXIT_PRINT : Word := 2
def VMEXIT_HALT : Word := 3
def VMEXIT_PRIVILEGED_INSTR : Word := 4

/-- The two policies R6 names for a privilege violation (`PRIV_POLICY`; R149, C9, D13). -/
inductive PrivPolicy where
  /-- Deliver INTR_PRIV_VIOL, the default. -/
  | interrupt
  /-- End the step with `Fatal(PrivilegeViolation)`. -/
  | stop
  deriving DecidableEq, Repr

/-- `PRIV_LITERAL`: whether the source's literal test `priv > CPL` is used (R6, C1, D12). -/
def PRIV_LITERAL : Bool := false

/-- `PRIV_POLICY` (R6, C9, D13). -/
def PRIV_POLICY : PrivPolicy := .interrupt

end Sys2Proof.Config
end

