-- ==== Sys2Proof/Syntax.lean ====
section
/-! DEFINITION. The syntax of VM32's instructions: one constructor per row of
spec/opcode_table.json, over the operand forms of 30_encoding.md R102. An instruction is what its
instruction WORD says (R123, R124): a literal or a displacement is an extra word, which the step
fetches from code memory when it resolves the operand (40_step_cycle.md R150), so it is no part of
the syntax. -/

namespace Sys2Proof

/-- The index of one of the 31 general registers r0 to r30 (R20). -/
abbrev RegIdx := Fin 31

/-- The ten special registers (R30), in the order that numbers them 0 to 9. -/
inductive SpecialReg where
  | segtbl | vmtbl | cs | ds | es | rs | ss | counter | compare | int
  deriving DecidableEq, Repr

/-- Which data role a memory operand goes through: DS (tags 2 and 4) or ES (tags 3 and 5) (R102). -/
inductive DataSeg where
  | ds | es
  deriving DecidableEq, Repr

/-- The operand forms of R102. A `none` base is register index 31, "no base" (R22, R105). The
`reg` field of an Immediate is ignored (R111), so it is no part of the form. -/
inductive Operand where
  /-- Tag 0: the literal extra word (R104). -/
  | imm
  /-- Tag 1: a general register (R108). -/
  | reg (i : RegIdx)
  /-- Tags 2 and 3, MemorySingle: the word at displacement plus base (R106). -/
  | single (seg : DataSeg) (base : Option RegIdx)
  /-- Tags 4 and 5, MemoryDouble: the word that the pointer there points to (R107). -/
  | double (seg : DataSeg) (base : Option RegIdx)
  /-- Tag 6: a special register (R109). -/
  | special (n : SpecialReg)
  deriving DecidableEq, Repr

/-- The 33 instructions of R110. `priv` is byte 1 of the word, the privilege the instruction
requires (R100, R112); operands past the arity are ignored (R111) and are no part of the syntax. -/
inductive Instr where
  /-- ADD: add (R180). -/
  | add (priv : Byte) (dst src : Operand)
  /-- SUB: subtract (R181). -/
  | sub (priv : Byte) (dst src : Operand)
  /-- MUL: multiply, low word (R182). -/
  | mul (priv : Byte) (dst src : Operand)
  /-- DIV: unsigned divide (R183). -/
  | div (priv : Byte) (dst src : Operand)
  /-- MOD: unsigned remainder (R184). -/
  | mod (priv : Byte) (dst src : Operand)
  /-- OR: bitwise or (R185). -/
  | or (priv : Byte) (dst src : Operand)
  /-- XOR: bitwise exclusive or (R186). -/
  | xor (priv : Byte) (dst src : Operand)
  /-- AND: bitwise and (R187). -/
  | and (priv : Byte) (dst src : Operand)
  /-- NOT: identical to XOR (R188). -/
  | not (priv : Byte) (dst src : Operand)
  /-- SHL: logical shift left (R190). -/
  | shl (priv : Byte) (dst src : Operand)
  /-- SHR: logical shift right (R191). -/
  | shr (priv : Byte) (dst src : Operand)
  /-- MOV: move (R195). -/
  | mov (priv : Byte) (dst src : Operand)
  /-- CMP: compare unsigned and set the flags (R196). -/
  | cmp (priv : Byte) (op1 op2 : Operand)
  /-- JMP: unconditional jump (R225). -/
  | jmp (priv : Byte) (op1 : Operand)
  /-- JZ: jump if Zero (R226). -/
  | jz (priv : Byte) (op1 : Operand)
  /-- JNZ: jump if not Zero (R227). -/
  | jnz (priv : Byte) (op1 : Operand)
  /-- JGT: jump if greater (unsigned) (R228). -/
  | jgt (priv : Byte) (op1 : Operand)
  /-- JGE: jump if greater or equal (unsigned) (R229). -/
  | jge (priv : Byte) (op1 : Operand)
  /-- CALL: call a subroutine (R235). -/
  | call (priv : Byte) (op1 : Operand)
  /-- RET: return (R236). -/
  | ret (priv : Byte)
  /-- RETN: return and discard n slots (R237). -/
  | retn (priv : Byte) (op1 : Operand)
  /-- ENTER: build a frame (R240). -/
  | enter (priv : Byte)
  /-- LEAVE: tear down a frame (R241). -/
  | leave (priv : Byte)
  /-- GETARGUMENT: read an argument relative to the frame (R242). -/
  | getargument (priv : Byte) (dst src : Operand)
  /-- PUSH: push a word (R245). -/
  | push (priv : Byte) (op1 : Operand)
  /-- POP: pop a word (R246). -/
  | pop (priv : Byte) (dst : Operand)
  /-- INT: raise a software interrupt (R260). -/
  | int (priv : Byte) (op1 : Operand)
  /-- RETI: return from interrupt (R261). -/
  | reti (priv : Byte)
  /-- VMRESUME: enter a guest (R265). -/
  | vmresume (priv : Byte) (op1 : Operand)
  /-- CLI: clear the interrupt enable (R268). -/
  | cli (priv : Byte)
  /-- STI: set the interrupt enable (R269). -/
  | sti (priv : Byte)
  /-- PRINT: write one byte to the console (R272). -/
  | print (priv : Byte) (op1 : Operand)
  /-- HALT: stop (R275). -/
  | halt (priv : Byte)
  deriving DecidableEq, Repr

end Sys2Proof
end

