-- ==== Sys2Proof/WellFormed.lean ====
section
/-! DEFINITION. Which instructions are well formed (30_encoding.md R120). The types of Syntax.lean
leave one check: an operand in a written role is not an Immediate. (A Register operand with index
31, a special register above 9 and tag 7 have no term at all; the decoder refuses their words.) -/

namespace Sys2Proof

/-- A `W` or `RW` operand may have tags 1 to 6; "An Immediate cannot be written" (R120). -/
def Operand.writable : Operand → Bool
  | .imm => false
  | .reg _ => true
  | .single _ _ => true
  | .double _ _ => true
  | .special _ => true

/-- R120, by the roles of R110. -/
def Instr.wellFormed : Instr → Bool
  | .add _ dst _ => dst.writable
  | .sub _ dst _ => dst.writable
  | .mul _ dst _ => dst.writable
  | .div _ dst _ => dst.writable
  | .mod _ dst _ => dst.writable
  | .or _ dst _ => dst.writable
  | .xor _ dst _ => dst.writable
  | .and _ dst _ => dst.writable
  | .not _ dst _ => dst.writable
  | .shl _ dst _ => dst.writable
  | .shr _ dst _ => dst.writable
  | .mov _ dst _ => dst.writable
  | .cmp _ _ _ => true
  | .jmp _ _ => true
  | .jz _ _ => true
  | .jnz _ _ => true
  | .jgt _ _ => true
  | .jge _ _ => true
  | .call _ _ => true
  | .ret _ => true
  | .retn _ _ => true
  | .enter _ => true
  | .leave _ => true
  | .getargument _ dst _ => dst.writable
  | .push _ _ => true
  | .pop _ dst => dst.writable
  | .int _ _ => true
  | .reti _ => true
  | .vmresume _ _ => true
  | .cli _ => true
  | .sti _ => true
  | .print _ _ => true
  | .halt _ => true

end Sys2Proof
end

