-- ==== Sys2Proof/Decode.lean ====
section
/-! DEFINITION. The instruction-format decoder and its encoder (30_encoding.md): decoding is total
on words and on bytes, and refuses each illegal word of R121 by a name of its own. -/

namespace Sys2Proof

/-! ## Bytes and words -/

/-- A word from its four bytes in memory-image order: byte k is bits `[8k+7:8k]` (R65). -/
def wordOfBytes (b0 b1 b2 b3 : Byte) : Word := b3 ++ b2 ++ b1 ++ b0

/-- A word's four bytes, in memory-image order (R65). -/
def bytesOfWord (w : Word) : List Byte :=
  [w.extractLsb' 0 8, w.extractLsb' 8 8, w.extractLsb' 16 8, w.extractLsb' 24 8]

/-! ## The fields of the instruction word (R100, R101, R145) -/

def opcodeField (w : Word) : Byte := w.extractLsb' 0 8
def privField (w : Word) : Byte := w.extractLsb' 8 8
def reg1Field (w : Word) : BitVec 5 := w.extractLsb' 16 5
def tag1Field (w : Word) : BitVec 3 := w.extractLsb' 21 3
def reg2Field (w : Word) : BitVec 5 := w.extractLsb' 24 5
def tag2Field (w : Word) : BitVec 3 := w.extractLsb' 29 3

/-! ## Decoding -/

/-- Why a word is illegal: the five conditions of R121. -/
inductive Illegal where
  /-- Condition 1: `opcode` is 0x00 or 0x22-0xFF. -/
  | unknownOpcode
  /-- Condition 2: a used operand has tag 7. -/
  | undefinedTag
  /-- Condition 3: a used Register operand has index 31. -/
  | registerIndex31
  /-- Condition 4: a used SpecialRegister operand has index 10 to 31. -/
  | specialRegisterIndex
  /-- Condition 5: a `W` or `RW` operand is an Immediate. -/
  | immediateWritten
  deriving DecidableEq, Repr

/-- The general register a `reg` field names; index 31 names none (R22, R101). -/
def regOfField (r : BitVec 5) : Option RegIdx :=
  if h : r.toNat < 31 then some ⟨r.toNat, h⟩ else none

/-- The special register a number names (R30, D4: `SPR_<name>` 0 to 9). -/
def specialOfField (r : BitVec 5) : Option SpecialReg :=
  match r.toNat with
  | 0 => some .segtbl
  | 1 => some .vmtbl
  | 2 => some .cs
  | 3 => some .ds
  | 4 => some .es
  | 5 => some .rs
  | 6 => some .ss
  | 7 => some .counter
  | 8 => some .compare
  | 9 => some .int
  | _ => none

/-- One operand descriptor in a read role: the tags of R102, legal as R120 and R121 say. -/
def decodeOperand (tag : BitVec 3) (reg : BitVec 5) : Except Illegal Operand :=
  match tag.toNat with
  | 0 => .ok .imm
  | 1 =>
    match regOfField reg with
    | some i => .ok (.reg i)
    | none => .error .registerIndex31
  | 2 => .ok (.single .ds (regOfField reg))
  | 3 => .ok (.single .es (regOfField reg))
  | 4 => .ok (.double .ds (regOfField reg))
  | 5 => .ok (.double .es (regOfField reg))
  | 6 =>
    match specialOfField reg with
    | some n => .ok (.special n)
    | none => .error .specialRegisterIndex
  | _ => .error .undefinedTag

/-- A descriptor in a written role (`W` or `RW`): as in a read role, but no Immediate (R120). -/
def decodeWritten (tag : BitVec 3) (reg : BitVec 5) : Except Illegal Operand :=
  if tag = 0 then .error .immediateWritten else decodeOperand tag reg

/-! One decoder per shape of R110's table: no operand; `R`; `W`; `R, R`; and `W, R` (or `RW, R`). -/

def row0 (c : Byte → Instr) (w : Word) : Except Illegal Instr := .ok (c (privField w))

def rowR (c : Byte → Operand → Instr) (w : Word) : Except Illegal Instr :=
  match decodeOperand (tag1Field w) (reg1Field w) with
  | .error e => .error e
  | .ok op1 => .ok (c (privField w) op1)

def rowW (c : Byte → Operand → Instr) (w : Word) : Except Illegal Instr :=
  match decodeWritten (tag1Field w) (reg1Field w) with
  | .error e => .error e
  | .ok dst => .ok (c (privField w) dst)

def rowRR (c : Byte → Operand → Operand → Instr) (w : Word) : Except Illegal Instr :=
  match decodeOperand (tag1Field w) (reg1Field w) with
  | .error e => .error e
  | .ok op1 =>
    match decodeOperand (tag2Field w) (reg2Field w) with
    | .error e => .error e
    | .ok op2 => .ok (c (privField w) op1 op2)

def rowWR (c : Byte → Operand → Operand → Instr) (w : Word) : Except Illegal Instr :=
  match decodeWritten (tag1Field w) (reg1Field w) with
  | .error e => .error e
  | .ok dst =>
    match decodeOperand (tag2Field w) (reg2Field w) with
    | .error e => .error e
    | .ok src => .ok (c (privField w) dst src)

/-- The opcode map (R110). -/
def decodeRows : List (Byte × (Word → Except Illegal Instr)) :=
  [ (Config.OPC_ADD, rowWR .add),
    (Config.OPC_SUB, rowWR .sub),
    (Config.OPC_MUL, rowWR .mul),
    (Config.OPC_DIV, rowWR .div),
    (Config.OPC_MOD, rowWR .mod),
    (Config.OPC_OR, rowWR .or),
    (Config.OPC_XOR, rowWR .xor),
    (Config.OPC_AND, rowWR .and),
    (Config.OPC_NOT, rowWR .not),
    (Config.OPC_SHL, rowWR .shl),
    (Config.OPC_SHR, rowWR .shr),
    (Config.OPC_MOV, rowWR .mov),
    (Config.OPC_CMP, rowRR .cmp),
    (Config.OPC_JMP, rowR .jmp),
    (Config.OPC_JZ, rowR .jz),
    (Config.OPC_JNZ, rowR .jnz),
    (Config.OPC_JGT, rowR .jgt),
    (Config.OPC_JGE, rowR .jge),
    (Config.OPC_CALL, rowR .call),
    (Config.OPC_RET, row0 .ret),
    (Config.OPC_RETN, rowR .retn),
    (Config.OPC_ENTER, row0 .enter),
    (Config.OPC_LEAVE, row0 .leave),
    (Config.OPC_GETARGUMENT, rowWR .getargument),
    (Config.OPC_PUSH, rowR .push),
    (Config.OPC_POP, rowW .pop),
    (Config.OPC_INT, rowR .int),
    (Config.OPC_RETI, row0 .reti),
    (Config.OPC_VMRESUME, rowR .vmresume),
    (Config.OPC_CLI, row0 .cli),
    (Config.OPC_STI, row0 .sti),
    (Config.OPC_PRINT, rowR .print),
    (Config.OPC_HALT, row0 .halt) ]

/-- The instruction a word stands for, or why it is illegal (R121, R124). It uses the word alone
(R123, R146). -/
def decode (w : Word) : Except Illegal Instr :=
  match decodeRows.lookup (opcodeField w) with
  | none => .error .unknownOpcode
  | some row => row w

/-- Decoding from the four bytes of the word in memory-image order (R65, R100). -/
def decodeBytes (b0 b1 b2 b3 : Byte) : Except Illegal Instr := decode (wordOfBytes b0 b1 b2 b3)

/-- The decoder as the host asks it: `w` holds the first instruction word in bits 31:0, and the
extra words above it (which decoding does not read); bits at or above `nbits` are 0. -/
def decodeTableWord (nbits w : Nat) : Option Instr :=
  match decode (BitVec.ofNat 32 (w % 2 ^ nbits)) with
  | .ok i => some i
  | .error _ => none

/-! ## Operands, extra words and length -/

/-- The required privilege, byte 1 (R100). -/
def Instr.requiredPriv : Instr → Byte
  | .add p _ _ => p
  | .sub p _ _ => p
  | .mul p _ _ => p
  | .div p _ _ => p
  | .mod p _ _ => p
  | .or p _ _ => p
  | .xor p _ _ => p
  | .and p _ _ => p
  | .not p _ _ => p
  | .shl p _ _ => p
  | .shr p _ _ => p
  | .mov p _ _ => p
  | .cmp p _ _ => p
  | .jmp p _ => p
  | .jz p _ => p
  | .jnz p _ => p
  | .jgt p _ => p
  | .jge p _ => p
  | .call p _ => p
  | .ret p => p
  | .retn p _ => p
  | .enter p => p
  | .leave p => p
  | .getargument p _ _ => p
  | .push p _ => p
  | .pop p _ => p
  | .int p _ => p
  | .reti p => p
  | .vmresume p _ => p
  | .cli p => p
  | .sti p => p
  | .print p _ => p
  | .halt p => p

/-- The used operands, operand 1 first (R103, R110). -/
def Instr.operands : Instr → List Operand
  | .add _ dst src => [dst, src]
  | .sub _ dst src => [dst, src]
  | .mul _ dst src => [dst, src]
  | .div _ dst src => [dst, src]
  | .mod _ dst src => [dst, src]
  | .or _ dst src => [dst, src]
  | .xor _ dst src => [dst, src]
  | .and _ dst src => [dst, src]
  | .not _ dst src => [dst, src]
  | .shl _ dst src => [dst, src]
  | .shr _ dst src => [dst, src]
  | .mov _ dst src => [dst, src]
  | .cmp _ op1 op2 => [op1, op2]
  | .jmp _ op1 => [op1]
  | .jz _ op1 => [op1]
  | .jnz _ op1 => [op1]
  | .jgt _ op1 => [op1]
  | .jge _ op1 => [op1]
  | .call _ op1 => [op1]
  | .ret _ => []
  | .retn _ op1 => [op1]
  | .enter _ => []
  | .leave _ => []
  | .getargument _ dst src => [dst, src]
  | .push _ op1 => [op1]
  | .pop _ dst => [dst]
  | .int _ op1 => [op1]
  | .reti _ => []
  | .vmresume _ op1 => [op1]
  | .cli _ => []
  | .sti _ => []
  | .print _ op1 => [op1]
  | .halt _ => []

/-- How many extra words an operand form consumes: 1 for tags 0, 2, 3, 4 and 5, else 0 (R102). -/
def Operand.extraWords : Operand → Nat
  | .imm => 1
  | .reg _ => 0
  | .single _ _ => 1
  | .double _ _ => 1
  | .special _ => 0

/-- The number of extra words, 0 to 2 (R103). -/
def Instr.extraWords (i : Instr) : Nat := (i.operands.map Operand.extraWords).sum

/-- The instruction's length in words, `1 + e` (R103). -/
def Instr.length (i : Instr) : Nat := 1 + i.extraWords

/-! ## Encoding -/

/-- A descriptor byte, `tag*32 + reg` (R101). -/
def packDescriptor (tag : BitVec 3) (reg : BitVec 5) : Byte := tag ++ reg

/-- The `reg` field of a base, 31 for none (R105). -/
def fieldOfBase : Option RegIdx → BitVec 5
  | none => 31
  | some i => BitVec.ofNat 5 i.val

/-- The number of a special register (R30). -/
def SpecialReg.number : SpecialReg → Nat
  | .segtbl => 0
  | .vmtbl => 1
  | .cs => 2
  | .ds => 3
  | .es => 4
  | .rs => 5
  | .ss => 6
  | .counter => 7
  | .compare => 8
  | .int => 9

/-- An operand's descriptor byte (R101, R102); an Immediate's `reg` field is written 31 (R111). -/
def encodeOperand : Operand → Byte
  | .imm => packDescriptor 0 31
  | .reg i => packDescriptor 1 (fieldOfBase (some i))
  | .single .ds base => packDescriptor 2 (fieldOfBase base)
  | .single .es base => packDescriptor 3 (fieldOfBase base)
  | .double .ds base => packDescriptor 4 (fieldOfBase base)
  | .double .es base => packDescriptor 5 (fieldOfBase base)
  | .special n => packDescriptor 6 (BitVec.ofNat 5 n.number)

/-- What a descriptor byte past the arity is written as (R111, R125). -/
def unusedDescriptor : Byte := 0x1F

/-- The word of R100: `opcode` in bits 7:0, `priv` in 15:8, `d1` in 23:16, `d2` in 31:24. -/
def packWord (opcode priv d1 d2 : Byte) : Word := wordOfBytes opcode priv d1 d2

/-- The instruction word of a well-formed instruction (R100, R101, R110). Its extra words, if it
has any, are literals of the program and follow in operand order (R103, `encodeWithExtra`). -/
def encode : Instr → Word
  | .add p dst src => packWord Config.OPC_ADD p (encodeOperand dst) (encodeOperand src)
  | .sub p dst src => packWord Config.OPC_SUB p (encodeOperand dst) (encodeOperand src)
  | .mul p dst src => packWord Config.OPC_MUL p (encodeOperand dst) (encodeOperand src)
  | .div p dst src => packWord Config.OPC_DIV p (encodeOperand dst) (encodeOperand src)
  | .mod p dst src => packWord Config.OPC_MOD p (encodeOperand dst) (encodeOperand src)
  | .or p dst src => packWord Config.OPC_OR p (encodeOperand dst) (encodeOperand src)
  | .xor p dst src => packWord Config.OPC_XOR p (encodeOperand dst) (encodeOperand src)
  | .and p dst src => packWord Config.OPC_AND p (encodeOperand dst) (encodeOperand src)
  | .not p dst src => packWord Config.OPC_NOT p (encodeOperand dst) (encodeOperand src)
  | .shl p dst src => packWord Config.OPC_SHL p (encodeOperand dst) (encodeOperand src)
  | .shr p dst src => packWord Config.OPC_SHR p (encodeOperand dst) (encodeOperand src)
  | .mov p dst src => packWord Config.OPC_MOV p (encodeOperand dst) (encodeOperand src)
  | .cmp p op1 op2 => packWord Config.OPC_CMP p (encodeOperand op1) (encodeOperand op2)
  | .jmp p op1 => packWord Config.OPC_JMP p (encodeOperand op1) unusedDescriptor
  | .jz p op1 => packWord Config.OPC_JZ p (encodeOperand op1) unusedDescriptor
  | .jnz p op1 => packWord Config.OPC_JNZ p (encodeOperand op1) unusedDescriptor
  | .jgt p op1 => packWord Config.OPC_JGT p (encodeOperand op1) unusedDescriptor
  | .jge p op1 => packWord Config.OPC_JGE p (encodeOperand op1) unusedDescriptor
  | .call p op1 => packWord Config.OPC_CALL p (encodeOperand op1) unusedDescriptor
  | .ret p => packWord Config.OPC_RET p unusedDescriptor unusedDescriptor
  | .retn p op1 => packWord Config.OPC_RETN p (encodeOperand op1) unusedDescriptor
  | .enter p => packWord Config.OPC_ENTER p unusedDescriptor unusedDescriptor
  | .leave p => packWord Config.OPC_LEAVE p unusedDescriptor unusedDescriptor
  | .getargument p dst src => packWord Config.OPC_GETARGUMENT p (encodeOperand dst) (encodeOperand src)
  | .push p op1 => packWord Config.OPC_PUSH p (encodeOperand op1) unusedDescriptor
  | .pop p dst => packWord Config.OPC_POP p (encodeOperand dst) unusedDescriptor
  | .int p op1 => packWord Config.OPC_INT p (encodeOperand op1) unusedDescriptor
  | .reti p => packWord Config.OPC_RETI p unusedDescriptor unusedDescriptor
  | .vmresume p op1 => packWord Config.OPC_VMRESUME p (encodeOperand op1) unusedDescriptor
  | .cli p => packWord Config.OPC_CLI p unusedDescriptor unusedDescriptor
  | .sti p => packWord Config.OPC_STI p unusedDescriptor unusedDescriptor
  | .print p op1 => packWord Config.OPC_PRINT p (encodeOperand op1) unusedDescriptor
  | .halt p => packWord Config.OPC_HALT p unusedDescriptor unusedDescriptor

/-- The whole instruction in memory order: its word, then its extra words, operand 1's first
(R103). -/
def encodeWithExtra (i : Instr) (extra : List Word) : List Word := encode i :: extra

end Sys2Proof
end

