-- ==== Sys2Proof/Machine/Memory.lean ====
section
/-! DEFINITION. Physical memory (20_memory.md R60 to R62): a map from word addresses to words, held
as a list of (address, word) pairs in one canonical form. The unit is the word, because "the unit
of storage and access is always one word" (R60) and no byte is addressable (R64). -/

namespace Sys2Proof.Machine

/-- What a never-written address reads as: "returns `0xFFFFFFFF` for a never-written address" (R60).
Writing it leaves a word that "cannot be told apart from a never-written one" (R62). -/
def unwritten : Word := 0xFFFFFFFF

/-- The words that differ from `unwritten`, by rising address. -/
abbrev Memory := List (Nat × Word)

/-- The canonical form: addresses strictly rising and inside the 2^32-word space (R63), and no
entry equal to what an unlisted address reads as. -/
abbrev Memory.wf (m : Memory) : Prop :=
  m.Pairwise (fun c d => c.1 < d.1) ∧ ∀ c ∈ m, c.1 ≤ wordMax ∧ c.2 ≠ unwritten

/-- `MemRead` (R60). -/
def Memory.read : Memory → Nat → Word
  | [], _ => unwritten
  | (k, v) :: m, a => if k = a then v else Memory.read m a

/-- Puts one cell at its place by address. -/
def Memory.insert : Memory → Nat → Word → Memory
  | [], a, v => [(a, v)]
  | (k, w) :: m, a, v => if a < k then (a, v) :: (k, w) :: m else (k, w) :: Memory.insert m a v

/-- Drops the cell at an address. -/
def Memory.erase (m : Memory) (a : Nat) : Memory := m.filter (fun c => c.1 ≠ a)

/-- `MemWrite` (R61): it keeps the canonical form, so writing `unwritten` only drops the cell. -/
def Memory.write (m : Memory) (a : Nat) (v : Word) : Memory :=
  if v = unwritten then m.erase a else (m.erase a).insert a v

end Sys2Proof.Machine
end

