-- ==== Sys2Proof/Machine/State.lean ====
section
/-! DEFINITION. Everything the spec gives the machine to hold (10_state.md, 20_memory.md,
60_exceptions.md), as plain data, and the machine right after power-on reset (R360, R361). The
general registers are memory words ("A model must not give registers storage separate from
memory", R23), so they have no field here. -/

namespace Sys2Proof.Machine

/-- The segment kinds (R81): 0 Code, 1 Data, 2 Register, 3 Stack. -/
inductive SegKind where
  | code | data | register | stack
  deriving DecidableEq, Repr

/-- The roles an access is made in (R71). -/
inductive Role where
  | code | data | extra | stack | register
  deriving DecidableEq, Repr

/-- A parsed segment descriptor (R39, R81). `privilegeLevel` is kept and never checked (R74). -/
structure SegDescriptor where
  start : Word
  limit : Word
  kind : SegKind
  privilegeLevel : Word
  deriving DecidableEq, Repr

/-- A parsed VM descriptor, a saved context (R40, R86). -/
structure VmDescriptor where
  cs : Word
  ds : Word
  es : Word
  ss : Word
  rs : Word
  ip : Word
  sp : Word
  flags : Word
  privilegeLevel : Word
  deriving DecidableEq, Repr

/-- The reasons of a fatal error (R340). -/
inductive FatalReason where
  /-- A segment-table parse met an unknown kind or a mis-sized register segment (R82). -/
  | malformedDescriptorTable
  /-- An interrupt number above 32 (R310). -/
  | interruptNumberOutOfRange
  /-- A physical address above 0xFFFFFFFF (R60, R80, R85, R330). -/
  | addressOutOfBounds
  /-- A value wider than 32 bits; only a host write can present one (R61). -/
  | dataOutOfBounds
  /-- Writeback with no target; no well-formed instruction reaches it (R160). -/
  | writebackContract
  /-- A fault while pushing an interrupt or VM-exit frame (R314). -/
  | doubleFault
  /-- A missing slot, or an SP that cannot be saved or loaded, in a context switch (R330, R331). -/
  | contextSwitch
  /-- A privilege violation under `PRIV_POLICY = stop` (R149). -/
  | privilegeViolation
  deriving DecidableEq, Repr

/-- The machine's run status (R41). -/
inductive Status where
  | running
  | fatal (r : FatalReason)
  deriving DecidableEq, Repr

/-- What a step returns to the host (R11, R172). -/
inductive StepOutcome where
  | continue
  | stop
  | fatal (r : FatalReason)
  deriving DecidableEq, Repr

/-- The state. Each field's rule is named; INVENTORY.md lists them with their reset values. -/
structure State where
  /-- Physical memory, with the general registers and both descriptor tables in it (R60, R63). -/
  mem : Memory
  /-- IP, the logical code offset of the current instruction word (R24). -/
  ip : Word
  /-- Flags: Zero in bit 0, GreaterEqual in bit 1, the rest storage (R26). -/
  flags : Word
  /-- CPL, the live privilege level, 0 the most privileged (R27). -/
  cpl : Word
  /-- InVM: guest mode (R28). -/
  inVM : Bool
  /-- VmID: the slot the live state belongs to in guest mode (R28). -/
  vmID : Word
  /-- IE, the global interrupt enable (R29). -/
  ie : Bool
  /-- SEGTBL (R31). -/
  segtbl : Word
  /-- VMTBL (R32). -/
  vmtbl : Word
  /-- CS, the code selector (R33). -/
  cs : Word
  /-- DS, the data selector (R33). -/
  ds : Word
  /-- ES, the extra-data selector (R33). -/
  es : Word
  /-- RS, the register selector (R33). -/
  rs : Word
  /-- SS, the stack selector (R33). -/
  ss : Word
  /-- COUNTER, the timer count (R34). -/
  counter : Word
  /-- COMPARE, the timer compare value (R35). -/
  compare : Word
  /-- INT: bit 0 is TE, the timer enable; the rest is storage (R36). -/
  int : Word
  /-- TP, the timer-pending latch (R37). -/
  tp : Bool
  /-- segInstalled: a segment table is installed; if not, flat mode (R39). -/
  segInstalled : Bool
  /-- segTable, the parsed segment table (R39). -/
  segTable : List SegDescriptor
  /-- vmInstalled: a VM table is installed (R40). -/
  vmInstalled : Bool
  /-- vmTable, the parsed VM table (R40). -/
  vmTable : List VmDescriptor
  /-- The console output stream, oldest byte first (R355). -/
  console : List Byte
  /-- The run status (R41). -/
  status : Status
  /-- What the latest step returned (R11, R172). The model's own place for that answer. -/
  outcome : StepOutcome
  deriving DecidableEq, Repr

/-- Why the machine stops. -/
inductive Fault where
  /-- Raised by `step` in a fatal state: "In `Fatal`, no step is enabled" (R41). Safe: the hardware
  takes no step there either. -/
  | notRunning (r : FatalReason)
  deriving DecidableEq, Repr

/-- Why an instruction has no meaning here. -/
inductive Refusal where
  /-- Raised by `exec` for an instruction with no meaning yet. Safe. No arm raises it. -/
  | notModelled (mnemonic : String)
  deriving DecidableEq, Repr

/-- Power-on: `reset()`'s values (R360) over a memory nothing has written (R361). -/
def State.reset : State where
  mem := []
  ip := 0
  flags := 0
  cpl := 0
  inVM := false
  vmID := 0
  ie := false
  segtbl := 0
  vmtbl := 0
  cs := 0
  ds := 0
  es := 0
  rs := 0
  ss := 0
  counter := 0
  compare := 0
  int := 0
  tp := false
  segInstalled := false
  segTable := []
  vmInstalled := false
  vmTable := []
  console := []
  status := .running
  outcome := .continue

end Sys2Proof.Machine
end

