-- ==== Sys2Proof/Machine/Ops.lean ====
section
/-! DEFINITION. The named operations every meaning is built from: physical memory, the segmentation
translator, the general registers, the stack, the special registers with their descriptor-table
parses, the VM context switcher, the delivery of interrupts and VM-exits, and the timer.

Two result types keep the spec's two kinds of failure apart. A check that can raise a recoverable
event answers `Except`, and it changes no state ("A rule checks every condition that can fault
before it changes any state", R158). An effect that can end in a fatal error answers `Eff`, which
keeps the state written before the error (R340). -/

namespace Sys2Proof.Machine

/-! ## Events and effects -/

/-- A failed translation: the kind the role expects and the logical offset (R72). -/
structure SegViol where
  kind : SegKind
  off : Word
  deriving DecidableEq, Repr

/-- What a stage can raise (R8): an interrupt, a VM-exit, or a fatal error. -/
inductive Event where
  /-- `raise Interrupt(n, returnIp, extra)` (R310). -/
  | interrupt (n returnIp : Word) (extra : List Word)
  /-- `raise VmExit(reason, extra)`, with the guest IP it saves (R320, R321). -/
  | vmExit (reason guestIp : Word) (extra : List Word)
  /-- `raise Fatal(reason)` (R340). -/
  | fatal (r : FatalReason)
  deriving DecidableEq, Repr

/-- An effect that completes, or ends in a fatal error with what it had written (R340). -/
inductive Eff where
  | done (s : State)
  | fatal (r : FatalReason) (s : State)
  deriving DecidableEq, Repr

/-- Goes on only where the effect completed. -/
def Eff.andThen (e : Eff) (f : State → Eff) : Eff :=
  match e with
  | .done s => f s
  | .fatal r s => .fatal r s

/-- "A fatal error ends the step and sets `status <- Fatal(reason)`" (R340); the step returns it. -/
def State.die (s : State) (r : FatalReason) : State :=
  { s with status := .fatal r, outcome := .fatal r }

/-- The step returns `Continue` (R172). -/
def State.continues (s : State) : State := { s with outcome := .continue }

/-- The step returns `Stop` (R172, R275). -/
def State.stops (s : State) : State := { s with outcome := .stop }

/-- Sets IP (R24). -/
def State.jump (s : State) (target : Word) : State := { s with ip := target }

/-- How an effect ends the step (R172). -/
def Eff.toOutcome : Eff → Host.Outcome State Fault Refusal
  | .done s => .next s.continues
  | .fatal r s => .next (s.die r)

/-! ## Physical memory (20_memory.md) -/

/-- `MemRead(pa)` at a 32-bit address (R60). -/
def State.memRead (s : State) (pa : Word) : Word := s.mem.read pa.toNat

/-- `MemWrite(pa, v)` at a 32-bit address (R61). -/
def State.memWrite (s : State) (pa v : Word) : State := { s with mem := s.mem.write pa.toNat v }

/-- Writes (address, value) pairs in order. -/
def State.writeAll (s : State) : List (Word × Word) → State
  | [] => s
  | (pa, v) :: rest => (s.memWrite pa v).writeAll rest

/-- `MemRead` at an address computed without wrap-around: above 0xFFFFFFFF it is fatal (R60). -/
def State.readPhys (s : State) (a : Nat) : Except FatalReason Word :=
  if a ≤ wordMax then .ok (s.mem.read a) else .error .addressOutOfBounds

/-- `MemWrite` at an address computed without wrap-around, of a value not yet known to fit (R61). R61
gives the two errors no order; that the address is tested first is a DESIGN CHOICE
(notes/assumptions/17.md), which only a host write can show. -/
def State.writePhys (s : State) (a v : Nat) : Except FatalReason State :=
  if a ≤ wordMax then
    if v ≤ wordMax then .ok { s with mem := s.mem.write a (BitVec.ofNat 32 v) }
    else .error .dataOutOfBounds
  else .error .addressOutOfBounds

/-- Writes words to rising physical addresses, stopping fatally at the first one out of range. -/
def State.writeRow (s : State) (a : Nat) : List Word → Eff
  | [] => .done s
  | w :: ws =>
    match s.writePhys a w.toNat with
    | .ok s' => s'.writeRow (a + 1) ws
    | .error r => .fatal r s

/-! ## The segmentation translator (R70 to R74) -/

/-- The kind code (R81). -/
def SegKind.number : SegKind → Word
  | .code => 0
  | .data => 1
  | .register => 2
  | .stack => 3

/-- The kind a role expects; Extra expects Data (R71, D7). -/
def Role.kind : Role → SegKind
  | .code => .code
  | .data => .data
  | .extra => .data
  | .stack => .stack
  | .register => .register

/-- The selector a role uses (R71). -/
def State.selector (s : State) : Role → Word
  | .code => s.cs
  | .data => s.ds
  | .extra => s.es
  | .stack => s.ss
  | .register => s.rs

/-- `Translate(role, off)` (R70). -/
def translate (role : Role) (off : Word) (s : State) : Except SegViol Word :=
  if s.segInstalled then
    match s.segTable[(s.selector role).toNat]? with
    | none => .error ⟨role.kind, off⟩
    | some d =>
      if d.kind ≠ role.kind then .error ⟨role.kind, off⟩
      else if d.limit < d.start then .error ⟨role.kind, off⟩
      else if d.limit - d.start < off then .error ⟨role.kind, off⟩
      else .ok (d.start + off)
  else
    match role with
    | .register => .ok (Config.flatRegisterBase + off)
    | .code => .ok off
    | .data => .ok off
    | .extra => .ok off
    | .stack => .ok off

/-! ## General registers (R20 to R25): memory words of the register role -/

/-- The physical word that holds `x[i]` (R21). -/
def regAddr (i : RegIdx) (s : State) : Except SegViol Word :=
  translate .register (BitVec.ofNat 32 i.val) s

/-- `x[i]` (R21). -/
def readReg (i : RegIdx) (s : State) : Except SegViol Word :=
  match regAddr i s with
  | .error v => .error v
  | .ok pa => .ok (s.memRead pa)

/-- `x[i] <- v` (R21). -/
def writeReg (i : RegIdx) (v : Word) (s : State) : Except SegViol State :=
  match regAddr i s with
  | .error e => .error e
  | .ok pa => .ok (s.memWrite pa v)

/-- The base register's contribution to an effective address; "no base" contributes 0 (R22, R105). -/
def readBase : Option RegIdx → State → Except SegViol Word
  | none, _ => .ok 0
  | some i, s => readReg i s

/-! ## The stack (R220) -/

/-- The check phase of pushing words from stack pointer `sp`: the (address, value) of each write. -/
def pushSlots (s : State) (sp : Word) : List Word → Except SegViol (List (Word × Word))
  | [] => .ok []
  | v :: vs =>
    match translate .stack (sp - 1) s with
    | .error e => .error e
    | .ok pa =>
      match pushSlots s (sp - 1) vs with
      | .error e => .error e
      | .ok rest => .ok ((pa, v) :: rest)

/-- Pushes words in order, every check before any write (R220, R314). SP is written last; with each
push writing SP after its word the result is the same, since no check reads memory again. -/
def push (vs : List Word) (s : State) : Except SegViol State :=
  match regAddr Config.SP_INDEX s with
  | .error e => .error e
  | .ok spAddr =>
    match pushSlots s (s.memRead spAddr) vs with
    | .error e => .error e
    | .ok slots =>
      .ok ((s.writeAll slots).memWrite spAddr (s.memRead spAddr - BitVec.ofNat 32 vs.length))

/-- `Pop()`: the word popped, and the state with SP moved up (R220). -/
def pop (s : State) : Except SegViol (Word × State) :=
  match regAddr Config.SP_INDEX s with
  | .error e => .error e
  | .ok spAddr =>
    match translate .stack (s.memRead spAddr) s with
    | .error e => .error e
    | .ok pa => .ok (s.memRead pa, s.memWrite spAddr (s.memRead spAddr + 1))

/-! ## Descriptor tables (R80 to R88) -/

/-- The kind a code names; any other is unknown (R81). -/
def SegKind.ofNumber (c : Word) : Option SegKind :=
  if c = 0 then some .code
  else if c = 1 then some .data
  else if c = 2 then some .register
  else if c = 3 then some .stack
  else none

/-- A row that is not the sentinel as a descriptor; `none` is malformed: an unknown kind, or a
Register segment whose size is not 31 words (R80, R82). -/
def segDescriptorOf (start limit kind priv : Word) : Option SegDescriptor :=
  match SegKind.ofNumber kind with
  | none => none
  | some k =>
    if k = .register ∧ (limit < start ∨ limit - start + 1 ≠ 31) then none
    else some ⟨start, limit, k, priv⟩

/-- The rows from address `a` on (R80). `fuel` bounds the recursion: one more than the number of
listed words is enough, because every row before the sentinel holds a listed word
(Laws/Tables.lean proves it), so the answer for fuel 0 is never the table's. -/
def parseSegRows (m : Memory) : Nat → Nat → Except FatalReason (List SegDescriptor)
  | 0, _ => .error .addressOutOfBounds
  | fuel + 1, a =>
    if wordMax < a + 3 then .error .addressOutOfBounds
    else if m.read a = unwritten ∧ m.read (a + 1) = unwritten ∧ m.read (a + 2) = unwritten
        ∧ m.read (a + 3) = unwritten then .ok []
    else
      match segDescriptorOf (m.read a) (m.read (a + 1)) (m.read (a + 2)) (m.read (a + 3)) with
      | none => .error .malformedDescriptorTable
      | some d =>
        match parseSegRows m fuel (a + 4) with
        | .error r => .error r
        | .ok rows => .ok (d :: rows)

/-- `ParseSegTable(base)`: the rows it reads (R80). -/
def parseSegTable (m : Memory) (base : Word) : Except FatalReason (List SegDescriptor) :=
  parseSegRows m (m.length + 1) base.toNat

/-- The nine words of a VM row, in order (R86). -/
def VmDescriptor.words (d : VmDescriptor) : List Word :=
  [d.cs, d.ds, d.es, d.ss, d.rs, d.ip, d.sp, d.flags, d.privilegeLevel]

/-- The VM row at a physical address (R85, R86). -/
def vmRowAt (m : Memory) (a : Nat) : VmDescriptor where
  cs := m.read a
  ds := m.read (a + 1)
  es := m.read (a + 2)
  ss := m.read (a + 3)
  rs := m.read (a + 4)
  ip := m.read (a + 5)
  sp := m.read (a + 6)
  flags := m.read (a + 7)
  privilegeLevel := m.read (a + 8)

/-- The VM sentinel: nine `0xFFFFFFFF` words (R87). -/
def VmDescriptor.sentinel : VmDescriptor :=
  ⟨unwritten, unwritten, unwritten, unwritten, unwritten, unwritten, unwritten, unwritten,
    unwritten⟩

/-- The rows from address `a` on (R85), with fuel as in `parseSegRows`. -/
def parseVmRows (m : Memory) : Nat → Nat → Except FatalReason (List VmDescriptor)
  | 0, _ => .error .addressOutOfBounds
  | fuel + 1, a =>
    if wordMax < a + 8 then .error .addressOutOfBounds
    else if vmRowAt m a = VmDescriptor.sentinel then .ok []
    else
      match parseVmRows m fuel (a + 9) with
      | .error r => .error r
      | .ok rows => .ok (vmRowAt m a :: rows)

/-- `ParseVmTable(base)`: the rows it reads (R85). -/
def parseVmTable (m : Memory) (base : Word) : Except FatalReason (List VmDescriptor) :=
  parseVmRows m (m.length + 1) base.toNat

/-- Parses the table at SEGTBL and installs it; a failed parse is fatal and installs nothing (R80). -/
def installSegTable (s : State) : Eff :=
  match parseSegTable s.mem s.segtbl with
  | .error r => .fatal r s
  | .ok rows => .done { s with segTable := rows, segInstalled := true }

/-- Parses the table at VMTBL and installs it (R85). -/
def installVmTable (s : State) : Eff :=
  match parseVmTable s.mem s.vmtbl with
  | .error r => .fatal r s
  | .ok rows => .done { s with vmTable := rows, vmInstalled := true }

/-! ## Special registers (R30 to R36) -/

/-- `spr[n]`: the stored word, with no side effect (R30, R157). -/
def State.readSpr (s : State) : SpecialReg → Word
  | .segtbl => s.segtbl
  | .vmtbl => s.vmtbl
  | .cs => s.cs
  | .ds => s.ds
  | .es => s.es
  | .rs => s.rs
  | .ss => s.ss
  | .counter => s.counter
  | .compare => s.compare
  | .int => s.int

/-- Stores a special register's word, without the write effect. -/
def State.storeSpr (s : State) (n : SpecialReg) (v : Word) : State :=
  match n with
  | .segtbl => { s with segtbl := v }
  | .vmtbl => { s with vmtbl := v }
  | .cs => { s with cs := v }
  | .ds => { s with ds := v }
  | .es => { s with es := v }
  | .rs => { s with rs := v }
  | .ss => { s with ss := v }
  | .counter => { s with counter := v }
  | .compare => { s with compare := v }
  | .int => { s with int := v }

/-- `spr[n] <- v`: "stores v and then applies the write effect listed" (R30, R31, R32). -/
def writeSpr (n : SpecialReg) (v : Word) (s : State) : Eff :=
  match n with
  | .segtbl => installSegTable (s.storeSpr .segtbl v)
  | .vmtbl => installVmTable (s.storeSpr .vmtbl v)
  | .cs => .done (s.storeSpr .cs v)
  | .ds => .done (s.storeSpr .ds v)
  | .es => .done (s.storeSpr .es v)
  | .rs => .done (s.storeSpr .rs v)
  | .ss => .done (s.storeSpr .ss v)
  | .counter => .done (s.storeSpr .counter v)
  | .compare => .done (s.storeSpr .compare v)
  | .int => .done (s.storeSpr .int v)

/-! ## The VM context switcher (R330 to R333) -/

/-- The live context with stack pointer `sp`, as a VM row (R42, R330). -/
def State.context (s : State) (sp : Word) : VmDescriptor :=
  ⟨s.cs, s.ds, s.es, s.ss, s.rs, s.ip, sp, s.flags, s.cpl⟩

/-- The live context but SP, loaded from a row (R331). -/
def State.loadContext (s : State) (d : VmDescriptor) : State :=
  { s with
    cs := d.cs, ds := d.ds, es := d.es, ss := d.ss, rs := d.rs,
    ip := d.ip, flags := d.flags, cpl := d.privilegeLevel }

/-- `SaveSlot(k)` (R330); the order of its checks is DEDUCED (notes/assumptions/7.md). -/
def saveSlot (k : Nat) (s : State) : Eff :=
  if wordMax < s.vmtbl.toNat + 9 * k then .fatal .addressOutOfBounds s
  else
    match readReg Config.SP_INDEX s with
    | .error _ => .fatal .contextSwitch s
    | .ok sp => (s.writeRow (s.vmtbl.toNat + 9 * k) (s.context sp).words).andThen installVmTable

/-- `LoadSlot(k)`: SP last, through the new RS (R331). -/
def loadSlot (k : Nat) (s : State) : Eff :=
  match s.vmTable[k]? with
  | none => .fatal .contextSwitch s
  | some d =>
    match writeReg Config.SP_INDEX d.sp (s.loadContext d) with
    | .error _ => .fatal .contextSwitch (s.loadContext d)
    | .ok s' => .done s'

/-- After a VM-exit the live state belongs to the hypervisor (R320, D30). -/
def State.leaveGuest (s : State) : State := { s with inVM := false, vmID := 0 }

/-- After VMRESUME the live state belongs to slot `id` (R265). -/
def State.enterGuest (s : State) (id : Word) : State := { s with inVM := true, vmID := id }

/-! ## Taking an exception and returning from one (R310 to R322, R261) -/

/-- `PushFrame` for a whole frame: a translation fault while pushing it is `Fatal(DoubleFault)`
(R314). -/
def pushFrame (ws : List Word) (s : State) : Eff :=
  match push ws s with
  | .error _ => .fatal .doubleFault s
  | .ok s' => .done s'

/-- `VmExit(reason, extra)` (R320), on a state whose IP is the guest IP to save. -/
def vmExit (reason : Word) (extra : List Word) (s : State) : Eff :=
  ((saveSlot s.vmID.toNat s).andThen (loadSlot 0)).andThen fun h =>
    pushFrame (extra ++ [reason, s.vmID]) h.leaveGuest

/-- The vector entry of interrupt `n` (R310, R312). -/
def vectorEntry (n : Word) : Word := Config.VECTOR_BASE + n * Config.VECTOR_STRIDE

/-- `Interrupt(n, returnIp, extra)` (R310). -/
def deliverInterrupt (n returnIp : Word) (extra : List Word) (s : State) : Eff :=
  if Config.maxInterrupt < n then .fatal .interruptNumberOutOfRange s
  else if s.inVM then vmExit Config.VMEXIT_INTERRUPT (extra ++ [n]) (s.jump returnIp)
  else (pushFrame (extra ++ [returnIp]) s).andThen fun h => .done (h.jump (vectorEntry n))

/-- Delivers an event on the state its instruction started from: the instruction itself has had no
effect (R144, R173). -/
def deliver (e : Event) (s : State) : Eff :=
  match e with
  | .interrupt n returnIp extra => deliverInterrupt n returnIp extra s
  | .vmExit reason guestIp extra => vmExit reason extra (s.jump guestIp)
  | .fatal r => .fatal r s

/-- `IP <- Pop()`: RETI's whole effect (R261, R317), and RET's (R236). -/
def popIp (s : State) : Except SegViol State :=
  match pop s with
  | .error v => .error v
  | .ok (target, s') => .ok (s'.jump target)

/-- A segment violation as the interrupt it is delivered as (R72, R313). -/
def SegViol.event (v : SegViol) (ip : Word) : Event :=
  .interrupt Config.INTR_SEG_VIOL ip [v.kind.number, v.off]

/-- A check that failed by a segment violation raises it, with the current IP as return IP
(R143, R152, R220). -/
def orSegViol {α : Type} (s : State) (x : Except SegViol α) : Except Event α :=
  match x with
  | .error v => .error (v.event s.ip)
  | .ok a => .ok a

/-! ## Privilege (R148, R149, R345) -/

/-- The privilege test: "violation iff `CPL > priv`", or the source's literal `priv > CPL` where
`PRIV_LITERAL` is set (R6, R148, C1). -/
def privViolation (literal : Bool) (cpl : Word) (priv : Byte) : Bool :=
  if literal then cpl < priv.zeroExtend 32 else priv.zeroExtend 32 < cpl

/-- What a violation raises under each `PRIV_POLICY` (R6, R149, C9). -/
def privEvent (policy : Config.PrivPolicy) (ip : Word) : Event :=
  match policy with
  | .interrupt => .interrupt Config.INTR_PRIV_VIOL ip []
  | .stop => .fatal .privilegeViolation

/-- Stage 4 of the step (R148). -/
def checkPriv (priv : Byte) (s : State) : Except Event Unit :=
  if privViolation Config.PRIV_LITERAL s.cpl priv then .error (privEvent Config.PRIV_POLICY s.ip)
  else .ok ()

/-! ## The timer (R141, R350) and the console (R355) -/

/-- TE, the timer enable: bit 0 of INT (R36). -/
def State.te (s : State) : Bool := s.int.getLsbD 0

/-- `TimerTick()` (R350). -/
def State.tick (s : State) : State :=
  if s.te then
    if s.counter + 1 = s.compare then
      { s with counter := s.counter + 1, tp := true, int := s.int &&& 0xFFFFFFFE }
    else { s with counter := s.counter + 1 }
  else s

/-- Stage 1 of the step (R141). A delivery does not end the step (R142). -/
def timerService (s : State) : Eff :=
  if s.tp ∧ s.ie then deliverInterrupt Config.INTR_TIMER s.ip [] { s with tp := false }
  else .done s.tick

/-- `ConsoleOut(byte)`: appends one byte to the stream (R355). -/
def State.consoleOut (s : State) (b : Byte) : State := { s with console := s.console ++ [b] }

/-- Sets IE (R29). -/
def State.setIe (s : State) (b : Bool) : State := { s with ie := b }

/-! ## Fetch and decode (R143 to R146) -/

/-- `Fetch(off)` (R8, R143). -/
def fetch (off : Word) (s : State) : Except SegViol Word :=
  match translate .code off s with
  | .error v => .error v
  | .ok pa => .ok (s.memRead pa)

/-- Stages 2 and 3: the instruction at IP, or the event its fetch or decode raises (R143, R146). -/
def fetchInstr (s : State) : Except Event Instr :=
  match fetch s.ip s with
  | .error v => .error (v.event s.ip)
  | .ok w =>
    match decode w with
    | .error _ => .error (.interrupt Config.INTR_INVALID_INSTR s.ip [])
    | .ok i => .ok i

end Sys2Proof.Machine
end

