-- ==== Sys2Proof/Machine/Operands.lean ====
section
/-! DEFINITION. Operand resolution (40_step_cycle.md R150 to R157), every operand form of R102, and
the writeback through the target it records (R160 to R162). -/

namespace Sys2Proof.Machine

/-- The write target recorded at resolution (R153). A register target keeps the physical word its
index named, because writeback uses the target "without translating again". -/
inductive Target where
  | none
  | reg (pa : Word)
  | mem (pa : Word)
  | spr (n : SpecialReg)
  deriving DecidableEq, Repr

/-- The data role of a memory operand (R102, R150). -/
def dataRole : DataSeg → Role
  | .ds => .data
  | .es => .extra

/-- The extra word number `e + 1` of the instruction at IP (R103, R150). -/
def fetchExtra (e : Nat) (s : State) : Except SegViol Word :=
  fetch (s.ip + BitVec.ofNat 32 (e + 1)) s

/-- EA, displacement plus base modulo 2^32 (R105), the displacement being extra word `e + 1`. -/
def effectiveAddress (base : Option RegIdx) (e : Nat) (s : State) : Except SegViol Word :=
  match fetchExtra e s with
  | .error v => .error v
  | .ok disp =>
    match readBase base s with
    | .error v => .error v
    | .ok b => .ok (disp + b)

/-- The location of a MemorySingle operand (R106). -/
def singleLocation (seg : DataSeg) (base : Option RegIdx) (e : Nat) (s : State) :
    Except SegViol Word :=
  match effectiveAddress base e s with
  | .error v => .error v
  | .ok ea => translate (dataRole seg) ea s

/-- The location of a MemoryDouble operand: the pointer's, both levels in one role (R107). -/
def doubleLocation (seg : DataSeg) (base : Option RegIdx) (e : Nat) (s : State) :
    Except SegViol Word :=
  match singleLocation seg base e s with
  | .error v => .error v
  | .ok p => translate (dataRole seg) (s.memRead p) s

/-- Resolves one operand, `e` extra words being consumed already: its value and its write target,
or the event it raises (R150). The value is read whatever the operand's role. In guest mode a
special register is not read: the access exits (R156). -/
def resolve (o : Operand) (e : Nat) (s : State) : Except Event (Word × Target) :=
  match o with
  | .imm =>
    match orSegViol s (fetchExtra e s) with
    | .error ev => .error ev
    | .ok lit => .ok (lit, .none)
  | .reg i =>
    match orSegViol s (regAddr i s) with
    | .error ev => .error ev
    | .ok pa => .ok (s.memRead pa, .reg pa)
  | .single seg base =>
    match orSegViol s (singleLocation seg base e s) with
    | .error ev => .error ev
    | .ok pa => .ok (s.memRead pa, .mem pa)
  | .double seg base =>
    match orSegViol s (doubleLocation seg base e s) with
    | .error ev => .error ev
    | .ok pa => .ok (s.memRead pa, .mem pa)
  | .special n =>
    if s.inVM then
      .error (.vmExit Config.VMEXIT_SPECIAL_REGISTER s.ip [BitVec.ofNat 32 n.number])
    else .ok (s.readSpr n, .spr n)

/-- Stage 7: stores the result through the target (R160, R161). -/
def writeback (t : Target) (v : Word) (s : State) : Eff :=
  match t with
  | .none => .fatal .writebackContract s
  | .reg pa => .done (s.memWrite pa v)
  | .mem pa => .done (s.memWrite pa v)
  | .spr n => writeSpr n v s

end Sys2Proof.Machine
end

