-- ==== Sys2Proof/Machine/Cycle.lean ====
section
/-! DEFINITION. Stages 4 to 8 of the step (40_step_cycle.md R140) around an instruction's own rule:
privilege check, operand resolution, execute, writeback, IP advance. A meaning gives only its
execute stage, as R158 asks: from the operand values to an effect, a result and a control
transfer. -/

namespace Sys2Proof.Machine

/-- What an execute stage that raised nothing leads to (R158). -/
inductive Effect where
  /-- State changes only; IP advances. -/
  | advance (s : State)
  /-- State changes, and a result for operand 1's target; IP advances. -/
  | result (v : Word) (s : State)
  /-- State changes that redirected IP; there is no advance (R171). -/
  | redirect (s : State)
  /-- The step returns `Stop`; no writeback, no advance (R275). -/
  | stop (s : State)
  /-- A fatal error (R340). -/
  | fatal (r : FatalReason) (s : State)
  deriving DecidableEq, Repr

/-- An effect that has redirected IP itself. -/
def Eff.asRedirect : Eff → Effect
  | .done s => .redirect s
  | .fatal r s => .fatal r s

/-- `next`, the address of the following instruction, `IP + 1 + e` modulo 2^32 (R9, R170). -/
def nextIp (e : Nat) (s : State) : Word := s.ip + BitVec.ofNat 32 (1 + e)

/-- Stages 7 and 8 (R160, R170), and the step's return value (R172). -/
def complete (next : Word) (t : Target) (x : Effect) : Host.Outcome State Fault Refusal :=
  match x with
  | .advance s => (Eff.done (s.jump next)).toOutcome
  | .result v s => ((writeback t v s).andThen fun h => .done (h.jump next)).toOutcome
  | .redirect s => (Eff.done s).toOutcome
  | .stop s => .next s.stops
  | .fatal r s => (Eff.fatal r s).toOutcome

/-- An instruction with no operand. -/
def run0 (priv : Byte) (s : State) (body : Word → Except Event Effect) :
    Host.Outcome State Fault Refusal :=
  match checkPriv priv s with
  | .error ev => (deliver ev s).toOutcome
  | .ok () =>
    match body (nextIp 0 s) with
    | .error ev => (deliver ev s).toOutcome
    | .ok x => complete (nextIp 0 s) .none x

/-- An instruction with one operand: `body next a`. -/
def run1 (priv : Byte) (op1 : Operand) (s : State) (body : Word → Word → Except Event Effect) :
    Host.Outcome State Fault Refusal :=
  match checkPriv priv s with
  | .error ev => (deliver ev s).toOutcome
  | .ok () =>
    match resolve op1 0 s with
    | .error ev => (deliver ev s).toOutcome
    | .ok (a, t) =>
      match body (nextIp op1.extraWords s) a with
      | .error ev => (deliver ev s).toOutcome
      | .ok x => complete (nextIp op1.extraWords s) t x

/-- An instruction with two operands: `body a b`. Operand 1 is resolved completely before operand
2's extra word is fetched (R151). No two-operand instruction uses `next`. -/
def run2 (priv : Byte) (op1 op2 : Operand) (s : State) (body : Word → Word → Except Event Effect) :
    Host.Outcome State Fault Refusal :=
  match checkPriv priv s with
  | .error ev => (deliver ev s).toOutcome
  | .ok () =>
    match resolve op1 0 s with
    | .error ev => (deliver ev s).toOutcome
    | .ok (a, t) =>
      match resolve op2 op1.extraWords s with
      | .error ev => (deliver ev s).toOutcome
      | .ok (b, _) =>
        match body a b with
        | .error ev => (deliver ev s).toOutcome
        | .ok x => complete (nextIp (op1.extraWords + op2.extraWords) s) t x

end Sys2Proof.Machine
end

