-- ==== Sys2Proof/Machine/Arithmetic.lean ====
section
/-! DEFINITION. ADD, SUB, MUL, DIV and MOD (41_arithmetic_logic.md R180 to R184): unsigned, modulo
2^32, no flags (R179). -/

namespace Sys2Proof.Machine

/-- A two-operand instruction whose whole execute stage is a result (R179). -/
def runBinary (f : Word → Word → Word) (priv : Byte) (dst src : Operand) (s : State) :
    Host.Outcome State Fault Refusal :=
  run2 priv dst src s fun a b => .ok (.result (f a b) s)

/-- A division: a zero divisor raises INTR_DIV_BY_ZERO and computes nothing (R183, R184). -/
def runDivision (f : Word → Word → Word) (priv : Byte) (dst src : Operand) (s : State) :
    Host.Outcome State Fault Refusal :=
  run2 priv dst src s fun a b =>
    if b = 0 then .error (.interrupt Config.INTR_DIV_BY_ZERO s.ip []) else .ok (.result (f a b) s)

/-- ADD: `(a + b) mod 2^32` (R180). -/
def execAdd (priv : Byte) (dst src : Operand) (s : State) : Host.Outcome State Fault Refusal :=
  runBinary (fun a b => a + b) priv dst src s

/-- SUB: `(a - b) mod 2^32` (R181). -/
def execSub (priv : Byte) (dst src : Operand) (s : State) : Host.Outcome State Fault Refusal :=
  runBinary (fun a b => a - b) priv dst src s

/-- MUL: the low 32 bits of the unsigned product (R182). -/
def execMul (priv : Byte) (dst src : Operand) (s : State) : Host.Outcome State Fault Refusal :=
  runBinary (fun a b => a * b) priv dst src s

/-- DIV: the unsigned quotient (R183). -/
def execDiv (priv : Byte) (dst src : Operand) (s : State) : Host.Outcome State Fault Refusal :=
  runDivision (fun a b => a / b) priv dst src s

/-- MOD: `a - b * floor(a / b)` (R184). -/
def execMod (priv : Byte) (dst src : Operand) (s : State) : Host.Outcome State Fault Refusal :=
  runDivision (fun a b => a - b * (a / b)) priv dst src s

end Sys2Proof.Machine
end

