-- ==== Sys2Proof/Machine/Flags.lean ====
section
/-! DEFINITION. The flags (10_state.md R26): Zero is bit 0 of Flags and GreaterEqual is bit 1. CMP
alone computes them (R196), and the conditional jumps read them (R226 to R229). -/

namespace Sys2Proof.Machine

/-- Z (R26). -/
def State.zero (s : State) : Bool := s.flags.getLsbD 0

/-- GE (R26). -/
def State.greaterEqual (s : State) : Bool := s.flags.getLsbD 1

/-- The Flags word after comparing `a` with `b`: Z iff equal, GE iff `a >= b` unsigned, bits 31:2
kept (R196). -/
def cmpFlags (a b flags : Word) : Word :=
  (flags &&& 0xFFFFFFFC) ||| (if a = b then 1 else 0) ||| (if b ≤ a then 2 else 0)

/-- Writes the flags of a comparison. -/
def State.compareFlags (s : State) (a b : Word) : State := { s with flags := cmpFlags a b s.flags }

end Sys2Proof.Machine
end

