-- ==== Sys2Proof/Machine/Control.lean ====
section
/-! DEFINITION. JMP, JZ, JNZ, JGT, JGE, CALL, RET and RETN (42_control_and_stack.md R225 to R237).
A target is the whole value of operand 1, an absolute logical code offset (R221). -/

namespace Sys2Proof.Machine

/-- A jump taken where `c` holds; where it does not, operand 1 has still been resolved (R226). -/
def runJump (c : Bool) (priv : Byte) (op1 : Operand) (s : State) :
    Host.Outcome State Fault Refusal :=
  run1 priv op1 s fun _ a => .ok (if c then .redirect (s.jump a) else .advance s)

/-- JMP (R225). -/
def execJmp (priv : Byte) (op1 : Operand) (s : State) : Host.Outcome State Fault Refusal :=
  runJump true priv op1 s

/-- JZ: taken iff Z (R226). -/
def execJz (priv : Byte) (op1 : Operand) (s : State) : Host.Outcome State Fault Refusal :=
  runJump s.zero priv op1 s

/-- JNZ: taken iff not Z (R227). -/
def execJnz (priv : Byte) (op1 : Operand) (s : State) : Host.Outcome State Fault Refusal :=
  runJump (!s.zero) priv op1 s

/-- JGT: taken iff GE and not Z (R228). -/
def execJgt (priv : Byte) (op1 : Operand) (s : State) : Host.Outcome State Fault Refusal :=
  runJump (s.greaterEqual && !s.zero) priv op1 s

/-- JGE: taken iff GE (R229). -/
def execJge (priv : Byte) (op1 : Operand) (s : State) : Host.Outcome State Fault Refusal :=
  runJump s.greaterEqual priv op1 s

/-- CALL: `Push(next); IP <- a` (R235). -/
def execCall (priv : Byte) (op1 : Operand) (s : State) : Host.Outcome State Fault Refusal :=
  run1 priv op1 s fun next a =>
    match orSegViol s (push [next] s) with
    | .error ev => .error ev
    | .ok s' => .ok (.redirect (s'.jump a))

/-- RET: `IP <- Pop()` (R236). -/
def execRet (priv : Byte) (s : State) : Host.Outcome State Fault Refusal :=
  run0 priv s fun _ =>
    match orSegViol s (popIp s) with
    | .error ev => .error ev
    | .ok s' => .ok (.redirect s')

/-- RETN's execute stage: `IP <- Pop(); x[30] <- x[30] + a`; the slots it discards are neither read
nor translated (R237). -/
def popIpDiscard (n : Word) (s : State) : Except SegViol State :=
  match pop s with
  | .error v => .error v
  | .ok (target, s') =>
    match readReg Config.SP_INDEX s' with
    | .error v => .error v
    | .ok sp =>
      match writeReg Config.SP_INDEX (sp + n) s' with
      | .error v => .error v
      | .ok s'' => .ok (s''.jump target)

/-- RETN (R237). -/
def execRetn (priv : Byte) (op1 : Operand) (s : State) : Host.Outcome State Fault Refusal :=
  run1 priv op1 s fun _ a =>
    match orSegViol s (popIpDiscard a s) with
    | .error ev => .error ev
    | .ok s' => .ok (.redirect s')

end Sys2Proof.Machine
end

