-- ==== Sys2Proof/Machine/Logic.lean ====
section
/-! DEFINITION. OR, XOR, AND, NOT, SHL, SHR, MOV and CMP (41_arithmetic_logic.md R185 to R196). -/

namespace Sys2Proof.Machine

/-- OR: `a | b` (R185). -/
def execOr (priv : Byte) (dst src : Operand) (s : State) : Host.Outcome State Fault Refusal :=
  runBinary (fun a b => a ||| b) priv dst src s

/-- XOR: `a ^ b` (R186). -/
def execXor (priv : Byte) (dst src : Operand) (s : State) : Host.Outcome State Fault Refusal :=
  runBinary (fun a b => a ^^^ b) priv dst src s

/-- AND: `a & b` (R187). -/
def execAnd (priv : Byte) (dst src : Operand) (s : State) : Host.Outcome State Fault Refusal :=
  runBinary (fun a b => a &&& b) priv dst src s

/-- NOT: "identical to XOR", `a ^ b`, and not a complement (R188, C6). -/
def execNot (priv : Byte) (dst src : Operand) (s : State) : Host.Outcome State Fault Refusal :=
  runBinary (fun a b => a ^^^ b) priv dst src s

/-- The left shift: the whole of `b` is the count, and 32 or more gives 0 (R190). -/
def shiftLeft (a b : Word) : Word := if 32 ≤ b then 0 else a <<< b.toNat

/-- The logical right shift: the whole of `b` is the count, and 32 or more gives 0 (R191). -/
def shiftRight (a b : Word) : Word := if 32 ≤ b then 0 else a >>> b.toNat

/-- SHL (R190). -/
def execShl (priv : Byte) (dst src : Operand) (s : State) : Host.Outcome State Fault Refusal :=
  runBinary shiftLeft priv dst src s

/-- SHR (R191). -/
def execShr (priv : Byte) (dst src : Operand) (s : State) : Host.Outcome State Fault Refusal :=
  runBinary shiftRight priv dst src s

/-- MOV: operand 1's old value is read and discarded (R195). -/
def execMov (priv : Byte) (dst src : Operand) (s : State) : Host.Outcome State Fault Refusal :=
  runBinary (fun _ b => b) priv dst src s

/-- CMP: the flags, and no result (R196). -/
def execCmp (priv : Byte) (op1 op2 : Operand) (s : State) : Host.Outcome State Fault Refusal :=
  run2 priv op1 op2 s fun a b => .ok (.advance (s.compareFlags a b))

end Sys2Proof.Machine
end

