-- ==== Sys2Proof/Machine/Stack.lean ====
section
/-! DEFINITION. ENTER, LEAVE, GETARGUMENT, PUSH and POP (42_control_and_stack.md R240 to R246). -/

namespace Sys2Proof.Machine

/-- ENTER's execute stage: push FP, then FP <- SP; the checks first (R240). -/
def enterFrame (s : State) : Except SegViol State :=
  match regAddr Config.SP_INDEX s with
  | .error v => .error v
  | .ok spAddr =>
    match regAddr Config.FP_INDEX s with
    | .error v => .error v
    | .ok fpAddr =>
      match translate .stack (s.memRead spAddr - 1) s with
      | .error v => .error v
      | .ok pa =>
        .ok (((s.memWrite pa (s.memRead fpAddr)).memWrite spAddr (s.memRead spAddr - 1)).memWrite
          fpAddr (s.memRead spAddr - 1))

/-- LEAVE's execute stage: SP <- FP, then FP <- Pop(); the checks first (R241). -/
def leaveFrame (s : State) : Except SegViol State :=
  match regAddr Config.FP_INDEX s with
  | .error v => .error v
  | .ok fpAddr =>
    match translate .stack (s.memRead fpAddr) s with
    | .error v => .error v
    | .ok pa =>
      match regAddr Config.SP_INDEX s with
      | .error v => .error v
      | .ok spAddr =>
        .ok ((s.memWrite spAddr (s.memRead fpAddr + 1)).memWrite fpAddr (s.memRead pa))

/-- Argument `n` of the frame: the word at `FP + 2 + n` of the stack (R222, R242). -/
def argument (n : Word) (s : State) : Except SegViol Word :=
  match readReg Config.FP_INDEX s with
  | .error v => .error v
  | .ok fp =>
    match translate .stack (fp + 2 + n) s with
    | .error v => .error v
    | .ok pa => .ok (s.memRead pa)

/-- ENTER (R240). -/
def execEnter (priv : Byte) (s : State) : Host.Outcome State Fault Refusal :=
  run0 priv s fun _ =>
    match orSegViol s (enterFrame s) with
    | .error ev => .error ev
    | .ok s' => .ok (.advance s')

/-- LEAVE (R241). -/
def execLeave (priv : Byte) (s : State) : Host.Outcome State Fault Refusal :=
  run0 priv s fun _ =>
    match orSegViol s (leaveFrame s) with
    | .error ev => .error ev
    | .ok s' => .ok (.advance s')

/-- GETARGUMENT (R242). -/
def execGetargument (priv : Byte) (dst src : Operand) (s : State) :
    Host.Outcome State Fault Refusal :=
  run2 priv dst src s fun _ b =>
    match orSegViol s (argument b s) with
    | .error ev => .error ev
    | .ok v => .ok (.result v s)

/-- PUSH: the value read at resolution, so `PUSH r30` pushes SP's old value (R245). -/
def execPush (priv : Byte) (op1 : Operand) (s : State) : Host.Outcome State Fault Refusal :=
  run1 priv op1 s fun _ a =>
    match orSegViol s (push [a] s) with
    | .error ev => .error ev
    | .ok s' => .ok (.advance s')

/-- POP: the writeback comes after the pop, so `POP r30` ends with the popped word (R162, R246). -/
def execPop (priv : Byte) (dst : Operand) (s : State) : Host.Outcome State Fault Refusal :=
  run1 priv dst s fun _ _ =>
    match orSegViol s (pop s) with
    | .error ev => .error ev
    | .ok (v, s') => .ok (.result v s')

end Sys2Proof.Machine
end

