-- ==== Sys2Proof/Machine/System.lean ====
section
/-! DEFINITION. INT, RETI, VMRESUME, CLI, STI, PRINT and HALT (43_system.md R260 to R275). Whether
one may run is decided by its `priv` byte against CPL alone, plus what its rule says of guest
mode. -/

namespace Sys2Proof.Machine

/-- The VM-exit of an instruction a guest may not run; the guest's IP stays at it (R321). -/
def privilegedExit (opcode : Byte) (s : State) : Event :=
  .vmExit Config.VMEXIT_PRIVILEGED_INSTR s.ip [opcode.zeroExtend 32]

/-- INT: delivers interrupt `a` with return IP `next`; above 32 the delivery is fatal in any mode
(R260). -/
def execInt (priv : Byte) (op1 : Operand) (s : State) : Host.Outcome State Fault Refusal :=
  run1 priv op1 s fun next a => .error (.interrupt a next [])

/-- RETI: `IP <- Pop()`; IE, CPL and Flags keep their values (R261). -/
def execReti (priv : Byte) (s : State) : Host.Outcome State Fault Refusal :=
  run0 priv s fun _ =>
    match orSegViol s (popIp s) with
    | .error ev => .error ev
    | .ok s' => .ok (.redirect s')

/-- VMRESUME's commit: saves the hypervisor with IP = `next` into slot 0, loads slot `id` from the
table as that save re-parsed it, and enters guest mode (R265). R88's last sentence, that VMRESUME
loads the old snapshot, says otherwise; R265 and R372 are followed (notes/assumptions/18.md). -/
def resumeGuest (next id : Word) (s : State) : Eff :=
  ((saveSlot 0 (s.jump next)).andThen (loadSlot id.toNat)).andThen fun g => .done (g.enterGuest id)

/-- VMRESUME (R265). -/
def execVmresume (priv : Byte) (op1 : Operand) (s : State) : Host.Outcome State Fault Refusal :=
  run1 priv op1 s fun next a =>
    if s.inVM then .error (privilegedExit Config.OPC_VMRESUME s)
    else if s.vmInstalled = false ∨ a = 0 ∨ s.vmTable.length ≤ a.toNat then
      .error (.interrupt Config.INTR_INVALID_INSTR s.ip [])
    else .ok (resumeGuest next a s).asRedirect

/-- CLI: `IE <- 0`; in guest mode a VM-exit (R268). -/
def execCli (priv : Byte) (s : State) : Host.Outcome State Fault Refusal :=
  run0 priv s fun _ =>
    if s.inVM then .error (privilegedExit Config.OPC_CLI s) else .ok (.advance (s.setIe false))

/-- STI: `IE <- 1`; in guest mode a VM-exit (R269). -/
def execSti (priv : Byte) (s : State) : Host.Outcome State Fault Refusal :=
  run0 priv s fun _ =>
    if s.inVM then .error (privilegedExit Config.OPC_STI s) else .ok (.advance (s.setIe true))

/-- PRINT: writes `a & 0xFF`; in guest mode a VM-exit with the full value, past the PRINT (R272). -/
def execPrint (priv : Byte) (op1 : Operand) (s : State) : Host.Outcome State Fault Refusal :=
  run1 priv op1 s fun next a =>
    if s.inVM then .error (.vmExit Config.VMEXIT_PRINT next [a])
    else .ok (.advance (s.consoleOut (a.setWidth 8)))

/-- HALT: the step returns `Stop` and IP stays; in guest mode a VM-exit, past the HALT (R275). -/
def execHalt (priv : Byte) (s : State) : Host.Outcome State Fault Refusal :=
  run0 priv s fun next =>
    if s.inVM then .error (.vmExit Config.VMEXIT_HALT next []) else .ok (.stop s)

end Sys2Proof.Machine
end

