-- ==== Sys2Proof/Machine/Dispatch.lean ====
section
/-! DEFINITION. The opcode dispatcher (00_scope.md R2, 40_step_cycle.md R158): one arm per
instruction, each one call of its meaning. -/

namespace Sys2Proof.Machine

def exec (i : Instr) (s : State) : Host.Outcome State Fault Refusal :=
  match i with
  | .add priv dst src => Sys2Proof.Machine.execAdd priv dst src s
  | .sub priv dst src => Sys2Proof.Machine.execSub priv dst src s
  | .mul priv dst src => Sys2Proof.Machine.execMul priv dst src s
  | .div priv dst src => Sys2Proof.Machine.execDiv priv dst src s
  | .mod priv dst src => Sys2Proof.Machine.execMod priv dst src s
  | .or priv dst src => Sys2Proof.Machine.execOr priv dst src s
  | .xor priv dst src => Sys2Proof.Machine.execXor priv dst src s
  | .and priv dst src => Sys2Proof.Machine.execAnd priv dst src s
  | .not priv dst src => Sys2Proof.Machine.execNot priv dst src s
  | .shl priv dst src => Sys2Proof.Machine.execShl priv dst src s
  | .shr priv dst src => Sys2Proof.Machine.execShr priv dst src s
  | .mov priv dst src => Sys2Proof.Machine.execMov priv dst src s
  | .cmp priv op1 op2 => Sys2Proof.Machine.execCmp priv op1 op2 s
  | .jmp priv op1 => Sys2Proof.Machine.execJmp priv op1 s
  | .jz priv op1 => Sys2Proof.Machine.execJz priv op1 s
  | .jnz priv op1 => Sys2Proof.Machine.execJnz priv op1 s
  | .jgt priv op1 => Sys2Proof.Machine.execJgt priv op1 s
  | .jge priv op1 => Sys2Proof.Machine.execJge priv op1 s
  | .call priv op1 => Sys2Proof.Machine.execCall priv op1 s
  | .ret priv => Sys2Proof.Machine.execRet priv s
  | .retn priv op1 => Sys2Proof.Machine.execRetn priv op1 s
  | .enter priv => Sys2Proof.Machine.execEnter priv s
  | .leave priv => Sys2Proof.Machine.execLeave priv s
  | .getargument priv dst src => Sys2Proof.Machine.execGetargument priv dst src s
  | .push priv op1 => Sys2Proof.Machine.execPush priv op1 s
  | .pop priv dst => Sys2Proof.Machine.execPop priv dst s
  | .int priv op1 => Sys2Proof.Machine.execInt priv op1 s
  | .reti priv => Sys2Proof.Machine.execReti priv s
  | .vmresume priv op1 => Sys2Proof.Machine.execVmresume priv op1 s
  | .cli priv => Sys2Proof.Machine.execCli priv s
  | .sti priv => Sys2Proof.Machine.execSti priv s
  | .print priv op1 => Sys2Proof.Machine.execPrint priv op1 s
  | .halt priv => Sys2Proof.Machine.execHalt priv s

end Sys2Proof.Machine
end

