-- ==== Sys2Proof/Machine/Step.lean ====
section
/-! DEFINITION. One step (40_step_cycle.md R140): timer service, fetch and decode, then the
instruction. It runs only while the status is Running (R41). -/

namespace Sys2Proof.Machine

/-- `step()` (R140). `Continue`, `Stop` and `Fatal` are next states that say so in `outcome`
(R11, R172); only a step after a fatal error, which the machine does not take, is a fault (R41). -/
def step (s : State) : Host.Outcome State Fault Refusal :=
  match s.status with
  | .fatal r => .fault (.notRunning r)
  | .running =>
    match timerService s with
    | .fatal r s1 => .next (s1.die r)
    | .done s1 =>
      match fetchInstr s1 with
      | .error ev => (deliver ev s1).toOutcome
      | .ok i => exec i s1

/-- Stores a word where a code offset of `at_` translates to, if it does. -/
def State.placeCode (s at_ : State) (off w : Word) : State :=
  match translate .code off at_ with
  | .error _ => s
  | .ok pa => s.memWrite pa w

/-- `s` with an instruction stored where `step` fetches next: bits 31:0 of `w` are its word, the bits
above are its extra words, and bits at or above `nbits` are 0. The fetch comes after stage 1, so the
place is the one IP names then. From `State.reset` this is physical address 0: a program is loaded
from outside the machine (R361). -/
def State.withFetchWord (s : State) (nbits w : Nat) : State :=
  match timerService s with
  | .fatal _ _ => s
  | .done s1 =>
    let bits := w % 2 ^ nbits
    ((s.placeCode s1 s1.ip (BitVec.ofNat 32 bits)).placeCode s1 (s1.ip + 1)
      (BitVec.ofNat 32 (bits / 2 ^ 32))).placeCode s1 (s1.ip + 2) (BitVec.ofNat 32 (bits / 2 ^ 64))

end Sys2Proof.Machine
end

