-- ==== Sys2Proof/Machine/HostOps.lean ====
section
/-! DEFINITION. What the host may do to the machine between two steps (60_exceptions.md R356,
70_reset_and_hazards.md R360, R361). `step` itself is in Step.lean, and a state dump is the state,
which is plain data. A host operation that the spec calls fatal answers the reason and changes
nothing: it is no step, so it sets no status. -/

namespace Sys2Proof.Machine

/-- `reset()`: every piece of CORE state but memory and the console stream gets its reset value
(R360). -/
def State.hostReset (s : State) : State :=
  { State.reset with mem := s.mem, console := s.console }

/-- `readWord(pa)` (R60, R356). -/
def hostReadWord (pa : Nat) (s : State) : Except FatalReason Word := s.readPhys pa

/-- `writeWord(pa, v)`: the host's address and value are not yet known to fit (R61, R356). -/
def hostWriteWord (pa v : Nat) (s : State) : Except FatalReason State := s.writePhys pa v

/-- `writeBlob(startAddr, words)`: the words in order to rising addresses (R68). -/
def writeBlob (start : Nat) : List Word → State → Except FatalReason State
  | [], s => .ok s
  | w :: ws, s =>
    match hostWriteWord start w.toNat s with
    | .error r => .error r
    | .ok s' => writeBlob (start + 1) ws s'

/-- The words of a memory image, four bytes each, little-endian (R65, R67); `none` where the file
ends inside a word, of which the spec says nothing. -/
def imageWords : List Byte → Option (List Word)
  | [] => some []
  | b0 :: b1 :: b2 :: b3 :: rest =>
    match imageWords rest with
    | none => none
    | some ws => some (wordOfBytes b0 b1 b2 b3 :: ws)
  | _ => none

/-- Loading an image: `writeBlob(0, words)` (R361). -/
def loadImage (words : List Word) (s : State) : Except FatalReason State := writeBlob 0 words s

/-- The host's register accessors go through the register role as any access does (R21, R356). -/
def hostReadReg (i : RegIdx) (s : State) : Except SegViol Word := readReg i s

def hostWriteReg (i : RegIdx) (v : Word) (s : State) : Except SegViol State := writeReg i v s

/-- The host's special-register accessors: `spr[n]` and `spr[n] <- v` with its write effect
(R30, R356). -/
def hostReadSpr (n : SpecialReg) (s : State) : Word := s.readSpr n

def hostWriteSpr (n : SpecialReg) (v : Word) (s : State) : Eff := writeSpr n v s

/-- `getResultingInstructionAddress()`: `Translate(Code, IP)`, reported and not raised (R356). -/
def resultingInstructionAddress (s : State) : Except SegViol Word := translate .code s.ip s

end Sys2Proof.Machine
end

