-- ==== Sys2Proof/Safety.lean ====
section
/-! DEFINITION. What counts as a sound state, and the terms the claims speak in: which states no
run leaves, what a next state may differ in, and where a program may write. -/

namespace Sys2Proof.Machine

/-- What every step keeps. Each field rules out states that only a bad construction could reach. -/
structure State.Inv (s : State) : Prop where
  /-- Physical memory is in its canonical form (R60, R62). -/
  memory : s.mem.wf
  /-- A parsed Register segment has exactly 31 words (R82). -/
  registerSegments : ∀ d ∈ s.segTable, d.kind = .register →
    d.start ≤ d.limit ∧ d.limit - d.start = 30
  /-- In flat mode there is no parsed segment table (R39). -/
  flatMode : s.segInstalled = false → s.segTable = []
  /-- With no VM table installed there is no parsed one (R40). -/
  noVmTable : s.vmInstalled = false → s.vmTable = []
  /-- The sentinel ends the VM table and is no row of it (R85). -/
  noSentinelRow : VmDescriptor.sentinel ∉ s.vmTable
  /-- In host mode the live state belongs to slot 0 (R28, R320). -/
  hostSlot : s.inVM = false → s.vmID = 0
  /-- In guest mode it belongs to a slot other than 0 of an installed table (R265). -/
  guestSlot : s.inVM = true → s.vmInstalled = true ∧ s.vmID ≠ 0
  /-- The machine is in a fatal state exactly when its last step returned that error (R340). -/
  fatalOutcome : ∀ r, s.status = .fatal r ↔ s.outcome = .fatal r

/-- `u` is `s` after an instruction that stored `v` at the physical word `pa` and nothing else, went
to `next`, and returned `Continue`. -/
def StoresOnly (s u : State) (pa v next : Word) : Prop :=
  u = { s with mem := u.mem, ip := next, outcome := .continue } ∧
    u.memRead pa = v ∧ ∀ qa, qa ≠ pa → u.memRead qa = s.memRead qa

/-- `u` has every word of `s` but those at `l`. -/
def KeepsWordsBut (s u : State) (l : List Word) : Prop :=
  ∀ qa, qa ∉ l → u.memRead qa = s.memRead qa

/-- `i` ends its step, and the run, in the fatal error `r` (R340). -/
def Dies (i : Instr) (s : State) (r : FatalReason) : Prop :=
  ∃ u, exec i s = .next u ∧ u.status = .fatal r ∧ u.outcome = .fatal r

/-- `i`, run on `s`, ends by storing the result `v` through the target `t` in the state `p` that its
execute stage left (R160 to R162), goes to `next` (R170), and does nothing else; with no target it
ends in `Fatal(WritebackContract)`. A store to SEGTBL or VMTBL installs the table it names, or ends
in the parse's fatal error. -/
def CompletesFrom (i : Instr) (s p : State) (t : Target) (v next : Word) : Prop :=
  match t with
  | .none => Dies i s .writebackContract
  | .reg pa => ∃ u, exec i s = .next u ∧ StoresOnly p u pa v next
  | .mem pa => ∃ u, exec i s = .next u ∧ StoresOnly p u pa v next
  | .spr .segtbl =>
    match parseSegTable p.mem v with
    | .ok rows => exec i s = .next { p with
        segtbl := v, segTable := rows, segInstalled := true, ip := next, outcome := .continue }
    | .error r => Dies i s r
  | .spr .vmtbl =>
    match parseVmTable p.mem v with
    | .ok rows => exec i s = .next { p with
        vmtbl := v, vmTable := rows, vmInstalled := true, ip := next, outcome := .continue }
    | .error r => Dies i s r
  | .spr .cs => exec i s = .next { p with cs := v, ip := next, outcome := .continue }
  | .spr .ds => exec i s = .next { p with ds := v, ip := next, outcome := .continue }
  | .spr .es => exec i s = .next { p with es := v, ip := next, outcome := .continue }
  | .spr .rs => exec i s = .next { p with rs := v, ip := next, outcome := .continue }
  | .spr .ss => exec i s = .next { p with ss := v, ip := next, outcome := .continue }
  | .spr .counter => exec i s = .next { p with counter := v, ip := next, outcome := .continue }
  | .spr .compare => exec i s = .next { p with compare := v, ip := next, outcome := .continue }
  | .spr .int => exec i s = .next { p with int := v, ip := next, outcome := .continue }

/-- `i` completes from `s` with the result `v` and no other effect of its execute stage. -/
def CompletesWith (i : Instr) (s : State) (t : Target) (v next : Word) : Prop :=
  CompletesFrom i s s t v next

/-- `i` takes event `ev` from `s`: its step is the delivery of `ev` on `s` itself, so the
instruction has had no effect (R144, R173). -/
def Raises (i : Instr) (s : State) (ev : Event) : Prop := exec i s = (deliver ev s).toOutcome

/-- `i` takes a segment violation on offset `off` of a segment of kind code `kind` (R301, R313). -/
def RaisesSegViol (i : Instr) (s : State) (kind off : Word) : Prop :=
  Raises i s (.interrupt 2 s.ip [kind, off])

/-- The privilege check passes: `CPL <= priv` (R148, R345). -/
abbrev Permitted (i : Instr) (s : State) : Prop := s.cpl ≤ i.requiredPriv.zeroExtend 32

/-- Some role but Code lets software reach physical word `pa` in `s`: the word lies in the segment
that role's selector names. -/
def Reachable (s : State) (pa : Word) : Prop :=
  ∃ role d, role ≠ Role.code ∧ s.segTable[(s.selector role).toNat]? = some d ∧
    d.kind = role.kind ∧ d.start ≤ pa ∧ pa ≤ d.limit

end Sys2Proof.Machine
end

