-- ==== Sys2Proof/Certificates/Slice0/Obligations.lean ====
section
/-! DEFINITION. The statements for the provers, each with the rules of spec/ it formalises. Numbers
the spec fixes (interrupt numbers, vector addresses, reason codes, opcodes) are written out, so
that a statement also says that Config.lean holds them. -/

open Sys2Proof Sys2Proof.Machine

/-! ## Encoding and decoding (30_encoding.md) -/

/-- R100, R101, R110: the encoder and the decoder agree on every well-formed instruction, with every
operand form at every value. -/
def Obligations.DecodeEncodeRoundTrip : Prop :=
  ∀ i : Instr, i.wellFormed = true → decode (encode i) = .ok i

/-- R100, R101, R111: encoding a decoded word gives back every bit that means something: opcode,
`priv`, the tags of the used operands, and their `reg` fields but an Immediate's. -/
def Obligations.EncodeDecodeKeepsFields : Prop :=
  ∀ (w : Word) (i : Instr), decode w = .ok i →
    i.wellFormed = true ∧
    opcodeField (encode i) = opcodeField w ∧
    privField (encode i) = privField w ∧ i.requiredPriv = privField w ∧
    (1 ≤ i.operands.length → tag1Field (encode i) = tag1Field w ∧
      (tag1Field w ≠ 0 → reg1Field (encode i) = reg1Field w)) ∧
    (2 ≤ i.operands.length → tag2Field (encode i) = tag2Field w ∧
      (tag2Field w ≠ 0 → reg2Field (encode i) = reg2Field w))

/-- R121: exactly the words of its five conditions are illegal, and a step that fetches one takes
INTR_INVALID_INSTR (number 1) with the word's own address as return IP and no extra words. -/
def Obligations.IllegalWordsAreExactlyThose : Prop :=
  ∀ w : Word,
    let op := (opcodeField w).toNat
    let usesOne := op ∈ [0x01, 0x02, 0x03, 0x04, 0x05, 0x06, 0x07, 0x08, 0x09, 0x0A, 0x0B, 0x0C,
      0x0D, 0x0E, 0x0F, 0x10, 0x11, 0x12, 0x13, 0x15, 0x18, 0x19, 0x1A, 0x1B, 0x1D, 0x20]
    let usesTwo := op ∈ [0x01, 0x02, 0x03, 0x04, 0x05, 0x06, 0x07, 0x08, 0x09, 0x0A, 0x0B, 0x0C,
      0x0D, 0x18]
    let writesOne := op ∈ [0x01, 0x02, 0x03, 0x04, 0x05, 0x06, 0x07, 0x08, 0x09, 0x0A, 0x0B, 0x0C,
      0x18, 0x1A]
    let bad := fun (tag : BitVec 3) (reg : BitVec 5) =>
      tag = 7 ∨ (tag = 1 ∧ reg = 31) ∨ (tag = 6 ∧ 10 ≤ reg.toNat)
    ((∃ e, decode w = .error e) ↔
      op = 0 ∨ 0x22 ≤ op ∨ (usesOne ∧ bad (tag1Field w) (reg1Field w)) ∨
      (usesTwo ∧ bad (tag2Field w) (reg2Field w)) ∨ (writesOne ∧ tag1Field w = 0)) ∧
    ∀ (s s1 : State) (e : Illegal), decode w = .error e → s.status = .running →
      timerService s = .done s1 → fetch s1.ip s1 = .ok w →
      step s = (deliver (.interrupt 1 s1.ip []) s1).toOutcome

/-- R126 and 95_test_vectors.md: words written out from the encoding tables decode to the
instructions they stand for, one of each family. -/
def Obligations.SpecWordsDecode : Prop :=
  decode 0x1F20000C = .ok (.mov 0 (.reg 0) .imm) ∧
  decode 0x1F21000C = .ok (.mov 0 (.reg 1) .imm) ∧
  decode 0x21200001 = .ok (.add 0 (.reg 0) (.reg 1)) ∧
  decode 0x1F1F0021 = .ok (.halt 0) ∧
  decode 0x8120000C = .ok (.mov 0 (.reg 0) (.double .ds (some 1))) ∧
  decode 0x1F7F000C = .ok (.mov 0 (.single .es none) .imm) ∧
  decode 0xC720030C = .ok (.mov 3 (.reg 0) (.special .counter)) ∧
  decode 0x1F1F0010 = .ok (.jnz 0 .imm) ∧
  decode 0x1F3E001A = .ok (.pop 0 (.reg 30)) ∧
  decode 0x1F1F031D = .ok (.vmresume 3 .imm) ∧
  encode (.add 0 (.reg 0) (.reg 1)) = 0x21200001

/-! ## The step (40_step_cycle.md) -/

/-- R140: where stage 1 completes and the word at IP decodes, the step runs that instruction on the
state stage 1 left. Nothing else is added around `exec`: IP still names the instruction. -/
def Obligations.StepRunsDecodedInstruction : Prop :=
  ∀ (s s1 : State) (w : Word) (i : Instr), s.status = .running → timerService s = .done s1 →
    fetch s1.ip s1 = .ok w → decode w = .ok i → step s = exec i s1

/-- R143: a segment violation on the fetch is delivered as interrupt 2 with `[kind, off]` and the
fetched address as return IP. -/
def Obligations.FetchViolationIsDelivered : Prop :=
  ∀ (s s1 : State) (v : SegViol), s.status = .running → timerService s = .done s1 →
    fetch s1.ip s1 = .error v →
    v = ⟨.code, s1.ip⟩ ∧ step s = (deliver (.interrupt 2 s1.ip [0, s1.ip]) s1).toOutcome

/-- R41, R140: the step runs exactly where the status is Running; in a fatal state no step is
enabled, which the model answers as a fault (notes/assumptions/5.md). A step whose stage 1 ends in a
fatal error ends in that error (R340). -/
def Obligations.StepRunsExactlyWhileRunning : Prop :=
  (∀ s : State, s.status = .running → ∃ t, step s = .next t) ∧
  (∀ (s : State) (r : FatalReason), s.status = .fatal r → step s = .fault (.notRunning r)) ∧
  ∀ (s u : State) (r : FatalReason), s.status = .running → timerService s = .fatal r u →
    ∃ t, step s = .next t ∧ t.status = .fatal r ∧ t.outcome = .fatal r

/-- R158, R172: no instruction leaves the machine stuck or unexplained: every one, on every state,
answers a next state, which says `Continue`, `Stop` or `Fatal` (that a `Stop` or a `Fatal` is a next
state is the model's choice: notes/assumptions/3.md). -/
def Obligations.EveryInstructionAnswersNext : Prop :=
  ∀ (i : Instr) (s : State), ∃ t, exec i s = .next t

/-- R172, R275: the step returns `Stop` only where it ran a host-mode HALT, and then it changed
nothing after stage 1 (IP is still at the HALT). -/
def Obligations.StopOnlyOnHostHalt : Prop :=
  ∀ s t : State, step s = .next t → t.outcome = .stop →
    ∃ (s1 : State) (p : Byte), timerService s = .done s1 ∧ fetchInstr s1 = .ok (.halt p) ∧
      s1.inVM = false ∧ t = { s1 with outcome := .stop }

/-- R148, R149: an instruction whose `priv` is below CPL takes INTR_PRIV_VIOL (number 3) and does
nothing else, whatever its operands; the check passes exactly where `CPL <= priv`. -/
def Obligations.PrivilegeViolationIsDelivered : Prop :=
  ∀ (i : Instr) (s : State),
    (i.requiredPriv.zeroExtend 32 < s.cpl → Raises i s (.interrupt 3 s.ip [])) ∧
    (checkPriv i.requiredPriv s = .ok () ↔ s.cpl ≤ i.requiredPriv.zeroExtend 32)

/-- R6: the two parameters of the privilege check. Under `PRIV_LITERAL` the test is `priv > CPL`;
under `PRIV_POLICY = stop` a violation is `Fatal(PrivilegeViolation)`. -/
def Obligations.PrivilegeParameters : Prop :=
  ∀ (cpl ip : Word) (p : Byte) (s : State),
    (privViolation true cpl p = true ↔ cpl.toNat < p.toNat) ∧
    (privViolation false cpl p = true ↔ p.toNat < cpl.toNat) ∧
    deliver (privEvent .stop ip) s = .fatal .privilegeViolation s ∧
    privEvent .interrupt ip = .interrupt 3 ip []

/-- R150, R151, R174: an event that operand 1's resolution raises is the instruction's, whatever the
instruction; one that operand 2's raises is, where operand 1 resolved. -/
def Obligations.OperandEventsAreDelivered : Prop :=
  (∀ (i : Instr) (o : Operand) (rest : List Operand) (s : State) (ev : Event), Permitted i s →
    i.operands = o :: rest → resolve o 0 s = .error ev → Raises i s ev) ∧
  ∀ (i : Instr) (o1 o2 : Operand) (s : State) (r : Word × Target) (ev : Event), Permitted i s →
    i.operands = [o1, o2] → resolve o1 0 s = .ok r → resolve o2 o1.extraWords s = .error ev →
    Raises i s ev

/-- R38, R156: in guest mode a special-register operand makes any instruction exit with reason 1 and
the register's number, its IP left at the instruction; in host mode the operand's value is the
stored word (R157), each number naming the register of R30's table. -/
def Obligations.GuestSpecialRegisterExits : Prop :=
  (∀ (i : Instr) (n : SpecialReg) (rest : List Operand) (s : State), Permitted i s →
    s.inVM = true → i.operands = .special n :: rest →
    Raises i s (.vmExit 1 s.ip [BitVec.ofNat 32 n.number])) ∧
  (∀ (i : Instr) (o : Operand) (n : SpecialReg) (s : State) (r : Word × Target), Permitted i s →
    s.inVM = true → i.operands = [o, .special n] → resolve o 0 s = .ok r →
    Raises i s (.vmExit 1 s.ip [BitVec.ofNat 32 n.number])) ∧
  (∀ (n : SpecialReg) (e : Nat) (s : State), s.inVM = false →
    resolve (.special n) e s = .ok (s.readSpr n, .spr n)) ∧
  ∀ s : State,
    [SpecialReg.segtbl, .vmtbl, .cs, .ds, .es, .rs, .ss, .counter, .compare, .int].map
        (fun n => (n.number, s.readSpr n)) =
      [(0, s.segtbl), (1, s.vmtbl), (2, s.cs), (3, s.ds), (4, s.es), (5, s.rs), (6, s.ss),
        (7, s.counter), (8, s.compare), (9, s.int)]

/-- R102 to R108, R143, R150, R152: what each operand form's resolution gives, and the violation each
of its accesses raises, in their order; where an extra word is fetched, which forms have one, and
which role each data segment is read through. -/
def Obligations.OperandFormsResolve : Prop :=
  (Operand.imm.extraWords = 1 ∧
    (∀ seg base, (Operand.single seg base).extraWords = 1) ∧
    (∀ seg base, (Operand.double seg base).extraWords = 1) ∧
    (∀ i, (Operand.reg i).extraWords = 0) ∧ (∀ n, (Operand.special n).extraWords = 0) ∧
    dataRole .ds = .data ∧ dataRole .es = .extra) ∧
  ∀ (s : State) (e : Nat),
    (∀ off,
      (∀ pa, translate .code off s = .ok pa → fetch off s = .ok (s.memRead pa)) ∧
      (∀ v, translate .code off s = .error v → fetch off s = .error v)) ∧
    fetchExtra e s = fetch (s.ip + BitVec.ofNat 32 (e + 1)) s ∧
    readBase none s = .ok 0 ∧ (∀ i, readBase (some i) s = readReg i s) ∧
    (∀ x, fetchExtra e s = .ok x → resolve .imm e s = .ok (x, .none)) ∧
    (∀ v, fetchExtra e s = .error v → ∀ o : Operand, o.extraWords = 1 →
      resolve o e s = .error (.interrupt 2 s.ip [0, s.ip + BitVec.ofNat 32 (e + 1)])) ∧
    (∀ i pa, regAddr i s = .ok pa → resolve (.reg i) e s = .ok (s.memRead pa, .reg pa)) ∧
    (∀ i v, regAddr i s = .error v →
      resolve (.reg i) e s = .error (.interrupt 2 s.ip [2, BitVec.ofNat 32 i.val])) ∧
    ∀ (seg : DataSeg) (base : Option RegIdx) (disp b : Word), fetchExtra e s = .ok disp →
      (∀ i v, base = some i → readReg i s = .error v →
        resolve (.single seg base) e s = .error (.interrupt 2 s.ip [2, BitVec.ofNat 32 i.val]) ∧
        resolve (.double seg base) e s = .error (.interrupt 2 s.ip [2, BitVec.ofNat 32 i.val])) ∧
      (readBase base s = .ok b →
        (∀ v, translate (dataRole seg) (disp + b) s = .error v →
          resolve (.single seg base) e s = .error (.interrupt 2 s.ip [1, disp + b]) ∧
          resolve (.double seg base) e s = .error (.interrupt 2 s.ip [1, disp + b])) ∧
        ∀ p, translate (dataRole seg) (disp + b) s = .ok p →
          resolve (.single seg base) e s = .ok (s.memRead p, .mem p) ∧
          (∀ pa, translate (dataRole seg) (s.memRead p) s = .ok pa →
            resolve (.double seg base) e s = .ok (s.memRead pa, .mem pa)) ∧
          ∀ v, translate (dataRole seg) (s.memRead p) s = .error v →
            resolve (.double seg base) e s = .error (.interrupt 2 s.ip [1, s.memRead p]))

/-! ## Memory, translation, tables (10_state.md, 20_memory.md) -/

/-- R62: the memory law, through the host's own operations. -/
def Obligations.MemoryLaw : Prop :=
  (∀ (a v : Nat) (s : State), a ≤ 0xFFFFFFFF → v ≤ 0xFFFFFFFF →
    ∃ t, hostWriteWord a v s = .ok t ∧ hostReadWord a t = .ok (BitVec.ofNat 32 v) ∧
      t = { s with mem := t.mem } ∧
      ∀ b, b ≠ a → hostReadWord b t = hostReadWord b s) ∧
  ∀ a, a ≤ 0xFFFFFFFF → hostReadWord a State.reset = .ok 0xFFFFFFFF

/-- R60, R61: the two host-level assertions on a host access, and that a write of `0xFFFFFFFF` where
nothing was written leaves the very same memory (R62), given the canonical form. That a host operation
answers the error and sets no status, that the address is tested first, and the canonical form are
the model's (notes/assumptions/6.md, 17.md and 1.md). -/
def Obligations.MemoryBounds : Prop :=
  (∀ (a v : Nat) (s : State), 0xFFFFFFFF < a →
    hostReadWord a s = .error .addressOutOfBounds ∧
    hostWriteWord a v s = .error .addressOutOfBounds) ∧
  (∀ (a v : Nat) (s : State), a ≤ 0xFFFFFFFF → 0xFFFFFFFF < v →
    hostWriteWord a v s = .error .dataOutOfBounds) ∧
  ∀ (m : Memory) (a : Nat), m.wf → m.read a = 0xFFFFFFFF → m.write a 0xFFFFFFFF = m

/-- R62: two canonical memories that read alike everywhere are the same data. (The canonical form is
the model's own way to hold memory: notes/assumptions/1.md.) -/
def Obligations.CanonicalMemoriesAgree : Prop :=
  ∀ m n : Memory, m.wf → n.wf → (∀ a, a ≤ 0xFFFFFFFF → m.read a = n.read a) → m = n

/-- R68: `writeBlob` writes its words in order to rising addresses and touches nothing else. -/
def Obligations.WriteBlobWritesInOrder : Prop :=
  ∀ (start : Nat) (ws : List Word) (s : State), start + ws.length ≤ 0x100000000 →
    ∃ t, writeBlob start ws s = .ok t ∧ t = { s with mem := t.mem } ∧
      (∀ (j : Nat) (h : j < ws.length), t.mem.read (start + j) = ws[j]) ∧
      ∀ a, a < start ∨ start + ws.length ≤ a → t.mem.read a = s.mem.read a

/-- R70 to R73: a translation succeeds exactly as the algorithm says, through the selector and the
kind that R71 gives the role, the sum never wrapping, and one that fails carries the role's kind and
the offset. -/
def Obligations.TranslationRule : Prop :=
  (∀ s : State, s.selector .code = s.cs ∧ s.selector .data = s.ds ∧ s.selector .extra = s.es ∧
    s.selector .stack = s.ss ∧ s.selector .register = s.rs) ∧
  (Role.code.kind = .code ∧ Role.data.kind = .data ∧ Role.extra.kind = .data ∧
    Role.stack.kind = .stack ∧ Role.register.kind = .register) ∧
  ∀ (role : Role) (off : Word) (s : State),
    (∀ pa, translate role off s = .ok pa ↔
      (s.segInstalled = false ∧ pa = (if role = .register then 0x2000 + off else off)) ∨
      (s.segInstalled = true ∧ ∃ d, s.segTable[(s.selector role).toNat]? = some d ∧
        d.kind = role.kind ∧ d.start.toNat + off.toNat ≤ d.limit.toNat ∧
        pa.toNat = d.start.toNat + off.toNat)) ∧
    ∀ v, translate role off s = .error v → v = ⟨role.kind, off⟩

/-- R21, R23: in flat mode register i is the physical word `0x2000 + i`, for a register access and
for a memory operand alike. -/
def Obligations.FlatRegistersAreMemoryWords : Prop :=
  ∀ (i : RegIdx) (v : Word) (s : State), s.segInstalled = false →
    readReg i s = .ok (s.memRead (0x2000 + BitVec.ofNat 32 i.val)) ∧
    (∃ t, writeReg i v s = .ok t ∧ readReg i t = .ok v ∧ t = { s with mem := t.mem } ∧
      KeepsWordsBut s t [0x2000 + BitVec.ofNat 32 i.val]) ∧
    translate .data (0x2000 + BitVec.ofNat 32 i.val) s = regAddr i s

/-- R21: in either mode register i is the word that the Register role translates i to: reading and
writing it reach that word, and a violation is of kind Register at offset i. -/
def Obligations.RegistersAreWordsOfTheirRole : Prop :=
  ∀ (i : RegIdx) (s : State),
    regAddr i s = translate .register (BitVec.ofNat 32 i.val) s ∧
    (∀ pa, regAddr i s = .ok pa → readReg i s = .ok (s.memRead pa) ∧
      ∀ v, ∃ t, writeReg i v s = .ok t ∧ t = { s with mem := t.mem } ∧ t.memRead pa = v ∧
        readReg i t = .ok v ∧ KeepsWordsBut s t [pa]) ∧
    ∀ e, regAddr i s = .error e → e = ⟨.register, BitVec.ofNat 32 i.val⟩ ∧
      readReg i s = .error e ∧ ∀ v, writeReg i v s = .error e

/-- R80, R82: the segment-table parse starts at the address written and obeys the spec's loop at every
row: the address check, the sentinel, the two malformations, then the row and the rest. -/
def Obligations.SegTableParseRule : Prop :=
  ∀ (m : Memory) (a : Nat),
    let rows := fun a => parseSegRows m (m.length + 1) a
    let start := m.read a
    let limit := m.read (a + 1)
    let kind := m.read (a + 2)
    let priv := m.read (a + 3)
    let sentinel := start = 0xFFFFFFFF ∧ limit = 0xFFFFFFFF ∧ kind = 0xFFFFFFFF ∧
      priv = 0xFFFFFFFF
    let malformed := 3 < kind.toNat ∨
      (kind = 2 ∧ (limit < start ∨ limit.toNat - start.toNat + 1 ≠ 31))
    (∀ base : Word, parseSegTable m base = rows base.toNat) ∧
    (0xFFFFFFFF < a + 3 → rows a = .error .addressOutOfBounds) ∧
    (a + 3 ≤ 0xFFFFFFFF → sentinel → rows a = .ok []) ∧
    (a + 3 ≤ 0xFFFFFFFF → ¬sentinel → malformed → rows a = .error .malformedDescriptorTable) ∧
    (a + 3 ≤ 0xFFFFFFFF → ¬sentinel → ¬malformed → ∃ k : SegKind, k.number = kind ∧
      (∀ rest, rows (a + 4) = .ok rest → rows a = .ok (⟨start, limit, k, priv⟩ :: rest)) ∧
      ∀ r, rows (a + 4) = .error r → rows a = .error r)

/-- R85, R86, R87: the VM-table parse starts at the address given and obeys the spec's loop at every
row. -/
def Obligations.VmTableParseRule : Prop :=
  ∀ (m : Memory) (a : Nat),
    let rows := fun a => parseVmRows m (m.length + 1) a
    let sentinel := ∀ j, j < 9 → m.read (a + j) = 0xFFFFFFFF
    (∀ base : Word, parseVmTable m base = rows base.toNat) ∧
    (0xFFFFFFFF < a + 8 → rows a = .error .addressOutOfBounds) ∧
    (a + 8 ≤ 0xFFFFFFFF → sentinel → rows a = .ok []) ∧
    (a + 8 ≤ 0xFFFFFFFF → ¬sentinel → ∃ d : VmDescriptor,
      d.words = [m.read a, m.read (a + 1), m.read (a + 2), m.read (a + 3), m.read (a + 4),
        m.read (a + 5), m.read (a + 6), m.read (a + 7), m.read (a + 8)] ∧
      (∀ rest, rows (a + 9) = .ok rest → rows a = .ok (d :: rest)) ∧
      ∀ r, rows (a + 9) = .error r → rows a = .error r)

/-- R83, R88, R39, R40: memory writes alone never change the parsed tables, and so no translation:
a translation is the same in any state with the same tables and selectors. -/
def Obligations.TablesAreSnapshots : Prop :=
  ∀ (s : State) (ws : List (Word × Word)) (role : Role) (off : Word),
    (s.writeAll ws).segTable = s.segTable ∧ (s.writeAll ws).vmTable = s.vmTable ∧
    translate role off (s.writeAll ws) = translate role off s

/-! ## Arithmetic, bitwise, move and compare (41_arithmetic_logic.md) -/

/-- R180, R181, R182: ADD, SUB and MUL complete with the exact integer result taken modulo 2^32, for
every form of both operands, and change nothing else (no flag). -/
def Obligations.ArithmeticResults : Prop :=
  ∀ (priv : Byte) (dst src : Operand) (s : State) (a b : Word) (t t' : Target),
    s.cpl ≤ priv.zeroExtend 32 → resolve dst 0 s = .ok (a, t) →
    resolve src dst.extraWords s = .ok (b, t') →
    let next := s.ip + BitVec.ofNat 32 (1 + (dst.extraWords + src.extraWords))
    CompletesWith (.add priv dst src) s t (BitVec.ofNat 32 (a.toNat + b.toNat)) next ∧
    CompletesWith (.sub priv dst src) s t (BitVec.ofInt 32 ((a.toNat : Int) - b.toNat)) next ∧
    CompletesWith (.mul priv dst src) s t (BitVec.ofNat 32 (a.toNat * b.toNat)) next ∧
    opcodeField (encode (.add priv dst src)) = 0x01 ∧
    opcodeField (encode (.sub priv dst src)) = 0x02 ∧
    opcodeField (encode (.mul priv dst src)) = 0x03

/-- R183, R184: with a divisor other than 0, DIV and MOD complete with the unsigned quotient and
remainder. With a divisor of 0 each takes INTR_DIV_BY_ZERO (number 0), the DIV or MOD itself as
return IP, and computes nothing. -/
def Obligations.DivisionResults : Prop :=
  ∀ (priv : Byte) (dst src : Operand) (s : State) (a b : Word) (t t' : Target),
    s.cpl ≤ priv.zeroExtend 32 → resolve dst 0 s = .ok (a, t) →
    resolve src dst.extraWords s = .ok (b, t') →
    let next := s.ip + BitVec.ofNat 32 (1 + (dst.extraWords + src.extraWords))
    (b ≠ 0 →
      CompletesWith (.div priv dst src) s t (BitVec.ofNat 32 (a.toNat / b.toNat)) next ∧
      CompletesWith (.mod priv dst src) s t (BitVec.ofNat 32 (a.toNat % b.toNat)) next) ∧
    (b = 0 →
      Raises (.div priv dst src) s (.interrupt 0 s.ip []) ∧
      Raises (.mod priv dst src) s (.interrupt 0 s.ip [])) ∧
    opcodeField (encode (.div priv dst src)) = 0x04 ∧
    opcodeField (encode (.mod priv dst src)) = 0x05

/-- R185 to R188: OR, XOR, AND and NOT complete with the bitwise result, bit by bit; NOT is XOR and
not a complement. -/
def Obligations.BitwiseResults : Prop :=
  ∀ (priv : Byte) (dst src : Operand) (s : State) (a b v : Word) (t t' : Target),
    s.cpl ≤ priv.zeroExtend 32 → resolve dst 0 s = .ok (a, t) →
    resolve src dst.extraWords s = .ok (b, t') →
    let next := s.ip + BitVec.ofNat 32 (1 + (dst.extraWords + src.extraWords))
    ((∀ k, k < 32 → v.getLsbD k = (a.getLsbD k || b.getLsbD k)) →
      CompletesWith (.or priv dst src) s t v next) ∧
    ((∀ k, k < 32 → v.getLsbD k = (a.getLsbD k != b.getLsbD k)) →
      CompletesWith (.xor priv dst src) s t v next ∧
      CompletesWith (.not priv dst src) s t v next) ∧
    ((∀ k, k < 32 → v.getLsbD k = (a.getLsbD k && b.getLsbD k)) →
      CompletesWith (.and priv dst src) s t v next) ∧
    opcodeField (encode (.or priv dst src)) = 0x06 ∧
    opcodeField (encode (.xor priv dst src)) = 0x07 ∧
    opcodeField (encode (.and priv dst src)) = 0x08 ∧
    opcodeField (encode (.not priv dst src)) = 0x09

/-- R190, R191: SHL and SHR complete with the value times, or over, 2^b; the count is the whole of b,
and 32 or more gives 0. -/
def Obligations.ShiftResults : Prop :=
  ∀ (priv : Byte) (dst src : Operand) (s : State) (a b : Word) (t t' : Target),
    s.cpl ≤ priv.zeroExtend 32 → resolve dst 0 s = .ok (a, t) →
    resolve src dst.extraWords s = .ok (b, t') →
    let next := s.ip + BitVec.ofNat 32 (1 + (dst.extraWords + src.extraWords))
    (b.toNat < 32 →
      CompletesWith (.shl priv dst src) s t (BitVec.ofNat 32 (a.toNat * 2 ^ b.toNat)) next ∧
      CompletesWith (.shr priv dst src) s t (BitVec.ofNat 32 (a.toNat / 2 ^ b.toNat)) next) ∧
    (32 ≤ b.toNat →
      CompletesWith (.shl priv dst src) s t 0 next ∧
      CompletesWith (.shr priv dst src) s t 0 next) ∧
    opcodeField (encode (.shl priv dst src)) = 0x0A ∧
    opcodeField (encode (.shr priv dst src)) = 0x0B

/-- R195, R31, R32, R161: MOV completes with operand 2's value, for every form of both operands:
where operand 1 is SEGTBL or VMTBL the table at that physical address is parsed and installed, or
the step ends in the parse's fatal error. -/
def Obligations.MoveResult : Prop :=
  ∀ (priv : Byte) (dst src : Operand) (s : State) (a b : Word) (t t' : Target),
    s.cpl ≤ priv.zeroExtend 32 → resolve dst 0 s = .ok (a, t) →
    resolve src dst.extraWords s = .ok (b, t') →
    CompletesWith (.mov priv dst src) s t b
      (s.ip + BitVec.ofNat 32 (1 + (dst.extraWords + src.extraWords))) ∧
    opcodeField (encode (.mov priv dst src)) = 0x0C

/-- R196: CMP writes Z iff equal and GE iff `a >= b` unsigned, keeps bits 31:2 of Flags, and changes
nothing else: no memory word and so no register. -/
def Obligations.CompareSetsFlags : Prop :=
  ∀ (priv : Byte) (op1 op2 : Operand) (s : State) (a b : Word) (t t' : Target),
    s.cpl ≤ priv.zeroExtend 32 → resolve op1 0 s = .ok (a, t) →
    resolve op2 op1.extraWords s = .ok (b, t') →
    (∃ u, exec (.cmp priv op1 op2) s = .next u ∧
      u = { s with
        flags := u.flags
        ip := s.ip + BitVec.ofNat 32 (1 + (op1.extraWords + op2.extraWords))
        outcome := .continue } ∧
      (u.flags.getLsbD 0 = true ↔ a = b) ∧
      (u.flags.getLsbD 1 = true ↔ b.toNat ≤ a.toNat) ∧
      ∀ k, 2 ≤ k → u.flags.getLsbD k = s.flags.getLsbD k) ∧
    opcodeField (encode (.cmp priv op1 op2)) = 0x0D

/-! ## Branches, calls, frames and stack (42_control_and_stack.md) -/

/-- R225 to R229: the five jumps. A taken one sets IP to the whole value of operand 1, one not taken
advances, and neither changes anything else. -/
def Obligations.JumpsFollowFlags : Prop :=
  ∀ (priv : Byte) (op1 : Operand) (s : State) (a : Word) (t : Target),
    s.cpl ≤ priv.zeroExtend 32 → resolve op1 0 s = .ok (a, t) →
    let taken := Host.Outcome.next (φ := Fault) (ρ := Refusal)
      { s with ip := a, outcome := .continue }
    let fallsThrough := Host.Outcome.next (φ := Fault) (ρ := Refusal)
      { s with ip := s.ip + BitVec.ofNat 32 (1 + op1.extraWords), outcome := .continue }
    let z := s.flags.getLsbD 0 = true
    let ge := s.flags.getLsbD 1 = true
    exec (.jmp priv op1) s = taken ∧
    (z → exec (.jz priv op1) s = taken) ∧ (¬z → exec (.jz priv op1) s = fallsThrough) ∧
    (¬z → exec (.jnz priv op1) s = taken) ∧ (z → exec (.jnz priv op1) s = fallsThrough) ∧
    (ge ∧ ¬z → exec (.jgt priv op1) s = taken) ∧
    (¬(ge ∧ ¬z) → exec (.jgt priv op1) s = fallsThrough) ∧
    (ge → exec (.jge priv op1) s = taken) ∧ (¬ge → exec (.jge priv op1) s = fallsThrough) ∧
    opcodeField (encode (.jmp priv op1)) = 0x0E ∧ opcodeField (encode (.jz priv op1)) = 0x0F ∧
    opcodeField (encode (.jnz priv op1)) = 0x10 ∧ opcodeField (encode (.jgt priv op1)) = 0x11 ∧
    opcodeField (encode (.jge priv op1)) = 0x12

/-- R220, R235, R245: PUSH and CALL store one word at SP - 1 through the Stack role and move SP down;
CALL's word is the address after it, and it goes to operand 1's value as read before the push. No
other word and no other state changes. -/
def Obligations.PushAndCallStoreOneWord : Prop :=
  ∀ (priv : Byte) (op1 : Operand) (s : State) (a spAddr pa : Word) (t : Target),
    s.cpl ≤ priv.zeroExtend 32 → resolve op1 0 s = .ok (a, t) → regAddr 30 s = .ok spAddr →
    translate .stack (s.memRead spAddr - 1) s = .ok pa →
    let next := s.ip + BitVec.ofNat 32 (1 + op1.extraWords)
    (∃ u, exec (.push priv op1) s = .next u ∧
      u = { s with mem := u.mem, ip := next, outcome := .continue } ∧
      u.memRead spAddr = s.memRead spAddr - 1 ∧ (pa ≠ spAddr → u.memRead pa = a) ∧
      KeepsWordsBut s u [spAddr, pa]) ∧
    (∃ u, exec (.call priv op1) s = .next u ∧
      u = { s with mem := u.mem, ip := a, outcome := .continue } ∧
      u.memRead spAddr = s.memRead spAddr - 1 ∧ (pa ≠ spAddr → u.memRead pa = next) ∧
      KeepsWordsBut s u [spAddr, pa]) ∧
    opcodeField (encode (.push priv op1)) = 0x19 ∧ opcodeField (encode (.call priv op1)) = 0x13

/-- R220, R236, R237, R261: RET, RETI and RETN set IP to the word at SP and move SP up by 1, RETN by
its count more. They store nothing else: RETI leaves IE, CPL and Flags alone. -/
def Obligations.ReturnsPopIp : Prop :=
  ∀ (priv : Byte) (op1 : Operand) (s : State) (a spAddr pa : Word) (t : Target),
    s.cpl ≤ priv.zeroExtend 32 → regAddr 30 s = .ok spAddr →
    translate .stack (s.memRead spAddr) s = .ok pa →
    (∃ u, exec (.ret priv) s = .next u ∧
      StoresOnly s u spAddr (s.memRead spAddr + 1) (s.memRead pa)) ∧
    (∃ u, exec (.reti priv) s = .next u ∧
      StoresOnly s u spAddr (s.memRead spAddr + 1) (s.memRead pa)) ∧
    (resolve op1 0 s = .ok (a, t) → ∃ u, exec (.retn priv op1) s = .next u ∧
      StoresOnly s u spAddr (s.memRead spAddr + 1 + a) (s.memRead pa)) ∧
    opcodeField (encode (.ret priv)) = 0x14 ∧ opcodeField (encode (.reti priv)) = 0x1C ∧
    opcodeField (encode (.retn priv op1)) = 0x15

/-- R240: ENTER pushes FP and sets FP and SP to the new top. -/
def Obligations.EnterBuildsFrame : Prop :=
  ∀ (priv : Byte) (s : State) (spAddr fpAddr pa : Word),
    s.cpl ≤ priv.zeroExtend 32 → regAddr 30 s = .ok spAddr → regAddr 29 s = .ok fpAddr →
    translate .stack (s.memRead spAddr - 1) s = .ok pa →
    (∃ u, exec (.enter priv) s = .next u ∧
      u = { s with mem := u.mem, ip := s.ip + 1, outcome := .continue } ∧
      u.memRead spAddr = s.memRead spAddr - 1 ∧ u.memRead fpAddr = s.memRead spAddr - 1 ∧
      (pa ≠ spAddr → pa ≠ fpAddr → u.memRead pa = s.memRead fpAddr) ∧
      KeepsWordsBut s u [spAddr, fpAddr, pa]) ∧
    opcodeField (encode (.enter priv)) = 0x16

/-- R241: LEAVE sets SP to FP + 1 and FP to the word FP named. -/
def Obligations.LeaveRestoresFrame : Prop :=
  ∀ (priv : Byte) (s : State) (spAddr fpAddr pa : Word),
    s.cpl ≤ priv.zeroExtend 32 → regAddr 30 s = .ok spAddr → regAddr 29 s = .ok fpAddr →
    translate .stack (s.memRead fpAddr) s = .ok pa →
    (∃ u, exec (.leave priv) s = .next u ∧
      u = { s with mem := u.mem, ip := s.ip + 1, outcome := .continue } ∧
      u.memRead spAddr = s.memRead fpAddr + 1 ∧ u.memRead fpAddr = s.memRead pa ∧
      KeepsWordsBut s u [spAddr, fpAddr]) ∧
    opcodeField (encode (.leave priv)) = 0x17

/-- R242: GETARGUMENT completes with the stack word at `FP + 2 + n`. -/
def Obligations.GetArgumentReadsFrame : Prop :=
  ∀ (priv : Byte) (dst src : Operand) (s : State) (a b fpAddr pa : Word) (t t' : Target),
    s.cpl ≤ priv.zeroExtend 32 → resolve dst 0 s = .ok (a, t) →
    resolve src dst.extraWords s = .ok (b, t') → regAddr 29 s = .ok fpAddr →
    translate .stack (s.memRead fpAddr + 2 + b) s = .ok pa →
    CompletesWith (.getargument priv dst src) s t (s.memRead pa)
      (s.ip + BitVec.ofNat 32 (1 + (dst.extraWords + src.extraWords))) ∧
    opcodeField (encode (.getargument priv dst src)) = 0x18

/-- R162, R246: POP moves SP up by 1 and then stores the popped word through operand 1's target, so
that `POP r30` ends with the popped word. Every form of the target is covered. -/
def Obligations.PopStoresAfterSp : Prop :=
  ∀ (priv : Byte) (dst : Operand) (s : State) (a spAddr pa : Word) (t : Target),
    s.cpl ≤ priv.zeroExtend 32 → resolve dst 0 s = .ok (a, t) → regAddr 30 s = .ok spAddr →
    translate .stack (s.memRead spAddr) s = .ok pa →
    let next := s.ip + BitVec.ofNat 32 (1 + dst.extraWords)
    (∃ p, p = { s with mem := p.mem } ∧ p.memRead spAddr = s.memRead spAddr + 1 ∧
      KeepsWordsBut s p [spAddr] ∧ CompletesFrom (.pop priv dst) s p t (s.memRead pa) next) ∧
    opcodeField (encode (.pop priv dst)) = 0x1A

/-- R220, R235 to R246, R261: an access of the stack or of a stack register that violates its segment
is delivered as INTR_SEG_VIOL with kind and offset, and the instruction has no effect. -/
def Obligations.StackViolationsAreDelivered : Prop :=
  ∀ (priv : Byte) (op1 dst src : Operand) (s : State) (a b : Word) (t t' : Target) (v : SegViol),
    s.cpl ≤ priv.zeroExtend 32 → resolve op1 0 s = .ok (a, t) → resolve dst 0 s = .ok (b, t') →
    (regAddr 30 s = .error v →
      RaisesSegViol (.push priv op1) s 2 30 ∧ RaisesSegViol (.call priv op1) s 2 30 ∧
      RaisesSegViol (.pop priv dst) s 2 30 ∧ RaisesSegViol (.ret priv) s 2 30 ∧
      RaisesSegViol (.reti priv) s 2 30 ∧ RaisesSegViol (.retn priv op1) s 2 30 ∧
      RaisesSegViol (.enter priv) s 2 30) ∧
    (regAddr 29 s = .error v → RaisesSegViol (.leave priv) s 2 29 ∧
      ∀ c t'', resolve src dst.extraWords s = .ok (c, t'') →
        RaisesSegViol (.getargument priv dst src) s 2 29) ∧
    ∀ spAddr fpAddr, regAddr 30 s = .ok spAddr → regAddr 29 s = .ok fpAddr →
      (translate .stack (s.memRead spAddr - 1) s = .error v →
        RaisesSegViol (.push priv op1) s 3 (s.memRead spAddr - 1) ∧
        RaisesSegViol (.call priv op1) s 3 (s.memRead spAddr - 1) ∧
        RaisesSegViol (.enter priv) s 3 (s.memRead spAddr - 1)) ∧
      (translate .stack (s.memRead spAddr) s = .error v →
        RaisesSegViol (.pop priv dst) s 3 (s.memRead spAddr) ∧
        RaisesSegViol (.ret priv) s 3 (s.memRead spAddr) ∧
        RaisesSegViol (.reti priv) s 3 (s.memRead spAddr) ∧
        RaisesSegViol (.retn priv op1) s 3 (s.memRead spAddr)) ∧
      (translate .stack (s.memRead fpAddr) s = .error v →
        RaisesSegViol (.leave priv) s 3 (s.memRead fpAddr)) ∧
      ∀ c t'', resolve src dst.extraWords s = .ok (c, t'') →
        translate .stack (s.memRead fpAddr + 2 + c) s = .error v →
        RaisesSegViol (.getargument priv dst src) s 3 (s.memRead fpAddr + 2 + c)

/-! ## System instructions (43_system.md) -/

/-- R260: INT n takes interrupt n with the following instruction as return IP; in guest mode that is
a VM-exit; above 32 it is fatal in any mode. -/
def Obligations.IntDeliversItsNumber : Prop :=
  ∀ (priv : Byte) (op1 : Operand) (s : State) (a : Word) (t : Target),
    s.cpl ≤ priv.zeroExtend 32 → resolve op1 0 s = .ok (a, t) →
    let next := s.ip + BitVec.ofNat 32 (1 + op1.extraWords)
    (32 < a.toNat → Dies (.int priv op1) s .interruptNumberOutOfRange) ∧
    (a.toNat ≤ 32 → Raises (.int priv op1) s (.interrupt a next [])) ∧
    (a.toNat ≤ 32 → s.inVM = false → ∀ spAddr pa, regAddr 30 s = .ok spAddr →
      translate .stack (s.memRead spAddr - 1) s = .ok pa →
      ∃ u, exec (.int priv op1) s = .next u ∧
        u = { s with mem := u.mem, ip := 0x1000 + a * 2, outcome := .continue } ∧
        u.memRead spAddr = s.memRead spAddr - 1 ∧ (pa ≠ spAddr → u.memRead pa = next) ∧
        KeepsWordsBut s u [spAddr, pa]) ∧
    opcodeField (encode (.int priv op1)) = 0x1B

/-- R265: VMRESUME. In guest mode it exits with reason 4 and its opcode; a slot that is 0 or names no
row, or no table, is INTR_INVALID_INSTR; else it saves the hypervisor with IP = `next` into slot 0,
loads slot `a` from the table as re-parsed, and enters guest mode there. A fatal error of either
half ends the run. That slot `a` comes from the re-parsed table is the model's reading, R265's words
against R88's last sentence (notes/assumptions/18.md). -/
def Obligations.VmresumeEntersGuest : Prop :=
  ∀ (priv : Byte) (op1 : Operand) (s : State) (a : Word) (t : Target),
    s.cpl ≤ priv.zeroExtend 32 → resolve op1 0 s = .ok (a, t) →
    let i := Instr.vmresume priv op1
    let ready := s.inVM = false ∧ s.vmInstalled = true ∧ a ≠ 0 ∧ a.toNat < s.vmTable.length
    let atNext := { s with ip := s.ip + BitVec.ofNat 32 (1 + op1.extraWords) }
    (s.inVM = true → Raises i s (.vmExit 4 s.ip [0x1D])) ∧
    (s.inVM = false → ¬ready → Raises i s (.interrupt 1 s.ip [])) ∧
    (ready → ∀ h g, saveSlot 0 atNext = .done h → loadSlot a.toNat h = .done g →
      exec i s = .next { g with inVM := true, vmID := a, outcome := .continue }) ∧
    (ready → ∀ r h, saveSlot 0 atNext = .fatal r h → Dies i s r) ∧
    (ready → ∀ r h g, saveSlot 0 atNext = .done h → loadSlot a.toNat h = .fatal r g →
      Dies i s r) ∧
    opcodeField (encode i) = 0x1D

/-- R268, R269, R29: in host mode CLI clears IE and STI sets it and nothing else changes; in guest
mode each exits with reason 4 and its opcode, its IP left at it. -/
def Obligations.CliStiSetIe : Prop :=
  ∀ (priv : Byte) (s : State), s.cpl ≤ priv.zeroExtend 32 →
    (s.inVM = false →
      exec (.cli priv) s = .next { s with ie := false, ip := s.ip + 1, outcome := .continue } ∧
      exec (.sti priv) s = .next { s with ie := true, ip := s.ip + 1, outcome := .continue }) ∧
    (s.inVM = true →
      Raises (.cli priv) s (.vmExit 4 s.ip [0x1E]) ∧
      Raises (.sti priv) s (.vmExit 4 s.ip [0x1F])) ∧
    opcodeField (encode (.cli priv)) = 0x1E ∧ opcodeField (encode (.sti priv)) = 0x1F

/-- R272, R275, R355: in host mode PRINT appends the low byte of operand 1 to the console and HALT
returns `Stop` with IP left at it; in guest mode neither does: each exits, with `next` as the
guest IP saved, and PRINT passes its full operand. -/
def Obligations.PrintAndHalt : Prop :=
  ∀ (priv : Byte) (op1 : Operand) (s : State) (a : Word) (t : Target),
    s.cpl ≤ priv.zeroExtend 32 → resolve op1 0 s = .ok (a, t) →
    let next := s.ip + BitVec.ofNat 32 (1 + op1.extraWords)
    (s.inVM = false →
      exec (.print priv op1) s = .next { s with
        console := s.console ++ [BitVec.ofNat 8 (a.toNat % 256)], ip := next,
        outcome := .continue } ∧
      exec (.halt priv) s = .next { s with outcome := .stop }) ∧
    (s.inVM = true →
      Raises (.print priv op1) s (.vmExit 2 next [a]) ∧
      Raises (.halt priv) s (.vmExit 3 (s.ip + 1) [])) ∧
    opcodeField (encode (.print priv op1)) = 0x20 ∧ opcodeField (encode (.halt priv)) = 0x21

/-! ## Delivery, VM-exit, context switch, timer (60_exceptions.md) -/

/-- R310, R311, R312, R314: in host mode a delivery with at most two extra words (no cause of R301 has
more) checks the whole frame, pushes the extra words and then the return IP, and goes to
`0x1000 + 2n`; nothing else changes. A frame that does not fit its segment is `Fatal(DoubleFault)`.
Above 32 the delivery is fatal in any mode, and in guest mode it is a VM-exit with reason 0 on the
state whose IP is the return IP. -/
def Obligations.InterruptDelivery : Prop :=
  ∀ (n returnIp : Word) (extra : List Word) (s : State),
    let frame := extra ++ [returnIp]
    let event := Event.interrupt n returnIp extra
    (32 < n.toNat → deliver event s = .fatal .interruptNumberOutOfRange s) ∧
    (n.toNat ≤ 32 → s.inVM = true →
      deliver event s = vmExit 0 (extra ++ [n]) { s with ip := returnIp }) ∧
    (n.toNat ≤ 32 → s.inVM = false → extra.length ≤ 2 →
      (∀ v, regAddr 30 s = .error v → deliver event s = .fatal .doubleFault s) ∧
      ∀ spAddr, regAddr 30 s = .ok spAddr →
        (∀ j v, j < frame.length →
          translate .stack (s.memRead spAddr - BitVec.ofNat 32 (j + 1)) s = .error v →
          deliver event s = .fatal .doubleFault s) ∧
        ∀ slot : Nat → Word, (∀ j, j < frame.length →
            translate .stack (s.memRead spAddr - BitVec.ofNat 32 (j + 1)) s = .ok (slot j)) →
          ∃ u, deliver event s = .done u ∧
            u = { s with mem := u.mem, ip := 0x1000 + n * 2 } ∧
            u.memRead spAddr = s.memRead spAddr - BitVec.ofNat 32 frame.length ∧
            (∀ (j : Nat) (h : j < frame.length), slot j ≠ spAddr →
              u.memRead (slot j) = frame[j]) ∧
            ∀ qa, qa ≠ spAddr → (∀ j, j < frame.length → qa ≠ slot j) →
              u.memRead qa = s.memRead qa)

/-- R320, R321, R322, R314: a VM-exit saves the guest (with its IP as the raiser gives it) into its
own slot, loads slot 0, leaves guest mode, and pushes the extra words, the reason and the guest id on
the hypervisor's stack, so that the id is on top; IP is the hypervisor's. A fatal error of the save
or of the load ends the run, and so does, with `Fatal(DoubleFault)`, a frame that does not fit the
hypervisor's stack segment. -/
def Obligations.VmExitDelivery : Prop :=
  ∀ (reason guestIp : Word) (extra : List Word) (s : State),
    let frame := extra ++ [reason, s.vmID]
    let event := Event.vmExit reason guestIp extra
    let save := saveSlot s.vmID.toNat { s with ip := guestIp }
    (∀ r u, save = .fatal r u → ∃ w, deliver event s = .fatal r w) ∧
    ∀ saved, save = .done saved →
      (∀ r u, loadSlot 0 saved = .fatal r u → ∃ w, deliver event s = .fatal r w) ∧
      ∀ h spAddr, loadSlot 0 saved = .done h → extra.length ≤ 3 → regAddr 30 h = .ok spAddr →
        (∀ j v, j < frame.length →
          translate .stack (h.memRead spAddr - BitVec.ofNat 32 (j + 1)) h = .error v →
          ∃ w, deliver event s = .fatal .doubleFault w) ∧
        ∀ slot : Nat → Word, (∀ j, j < frame.length →
            translate .stack (h.memRead spAddr - BitVec.ofNat 32 (j + 1)) h = .ok (slot j)) →
          ∃ u, deliver event s = .done u ∧
            u = { h with mem := u.mem, inVM := false, vmID := 0 } ∧
            u.memRead spAddr = h.memRead spAddr - BitVec.ofNat 32 frame.length ∧
            (∀ (j : Nat) (hj : j < frame.length), slot j ≠ spAddr →
              u.memRead (slot j) = frame[j]) ∧
            ∀ qa, qa ≠ spAddr → (∀ j, j < frame.length → qa ≠ slot j) →
              u.memRead qa = h.memRead qa

/-- R330: SaveSlot writes the nine live words to row k at its physical address and re-parses the
table; an address past 0xFFFFFFFF and an SP that cannot be read are fatal. Which reason comes first
where both hold, and where a row straddles the end, is the model's (notes/assumptions/7.md). -/
def Obligations.SaveSlotRule : Prop :=
  ∀ (k : Nat) (s : State),
    let base := s.vmtbl.toNat + 9 * k
    (0xFFFFFFFF < base → ∃ u, saveSlot k s = .fatal .addressOutOfBounds u) ∧
    (base ≤ 0xFFFFFFFF → ∀ v, readReg 30 s = .error v →
      ∃ u, saveSlot k s = .fatal .contextSwitch u) ∧
    ∀ sp, readReg 30 s = .ok sp →
      (base ≤ 0xFFFFFFFF → 0xFFFFFFFF < base + 8 →
        ∃ u, saveSlot k s = .fatal .addressOutOfBounds u) ∧
      (base + 8 ≤ 0xFFFFFFFF → ∃ m : Memory,
        (∀ (j : Nat) (h : j < 9), m.read (base + j) =
          [s.cs, s.ds, s.es, s.ss, s.rs, s.ip, sp, s.flags, s.cpl][j]) ∧
        (∀ a, a < base ∨ base + 9 ≤ a → m.read a = s.mem.read a) ∧
        (∀ rows, parseVmTable m s.vmtbl = .ok rows →
          saveSlot k s = .done { s with mem := m, vmTable := rows, vmInstalled := true }) ∧
        ∀ r, parseVmTable m s.vmtbl = .error r → ∃ u, saveSlot k s = .fatal r u)

/-- R331: LoadSlot copies the nine words of parsed row k, SP last and through the new RS; a missing
row and an SP that cannot be stored are fatal. -/
def Obligations.LoadSlotRule : Prop :=
  ∀ (k : Nat) (s : State),
    (s.vmTable.length ≤ k → loadSlot k s = .fatal .contextSwitch s) ∧
    ∀ d, s.vmTable[k]? = some d →
      let l := { s with
        cs := d.cs, ds := d.ds, es := d.es, ss := d.ss, rs := d.rs,
        ip := d.ip, flags := d.flags, cpl := d.privilegeLevel }
      (∀ v, regAddr 30 l = .error v → ∃ u, loadSlot k s = .fatal .contextSwitch u) ∧
      ∀ spAddr, regAddr 30 l = .ok spAddr → ∃ u, loadSlot k s = .done u ∧
        u = { l with mem := u.mem } ∧ u.memRead spAddr = d.sp ∧ KeepsWordsBut s u [spAddr]

/-- R332: saving a slot that has just been loaded writes the identical nine words back. -/
def Obligations.LoadSaveRoundTrip : Prop :=
  ∀ (k : Nat) (s t u : State), loadSlot k s = .done t → saveSlot k t = .done u →
    ∃ d, s.vmTable[k]? = some d ∧
      ∀ (j : Nat) (h : j < d.words.length), u.mem.read (s.vmtbl.toNat + 9 * k + j) = d.words[j]

/-- R333, R42: a completed VM-exit, and a completed VMRESUME, switch the live context, the mode and
the VM table's snapshot, and no other field. In memory they write the row of the slot saved, the word
that holds r30 in the new context and, for a VM-exit, the frame from SP up, and no other word. -/
def Obligations.ContextSwitchKeepsSharedState : Prop :=
  (∀ (reason : Word) (extra : List Word) (s t : State), vmExit reason extra s = .done t →
    t = { s with
      mem := t.mem, cs := t.cs, ds := t.ds, es := t.es, ss := t.ss, rs := t.rs, ip := t.ip,
      flags := t.flags, cpl := t.cpl, inVM := false, vmID := 0, vmTable := t.vmTable,
      vmInstalled := true } ∧
    let row := s.vmtbl.toNat + 9 * s.vmID.toNat
    ∃ spAddr, regAddr 30 t = .ok spAddr ∧
      ∀ pa : Word, pa.toNat < row ∨ row + 9 ≤ pa.toNat → pa ≠ spAddr →
        (∀ j, j < extra.length + 2 →
          translate .stack (t.memRead spAddr + BitVec.ofNat 32 j) t ≠ .ok pa) →
        t.memRead pa = s.memRead pa) ∧
  ∀ (priv : Byte) (op1 : Operand) (s t : State), exec (.vmresume priv op1) s = .next t →
    s.inVM = false → t.inVM = true →
    t = { s with
      mem := t.mem, cs := t.cs, ds := t.ds, es := t.es, ss := t.ss, rs := t.rs, ip := t.ip,
      flags := t.flags, cpl := t.cpl, inVM := true, vmID := t.vmID, vmTable := t.vmTable,
      vmInstalled := true, outcome := .continue } ∧
    ∃ spAddr, regAddr 30 t = .ok spAddr ∧
      ∀ pa : Word, pa.toNat < s.vmtbl.toNat ∨ s.vmtbl.toNat + 9 ≤ pa.toNat → pa ≠ spAddr →
        t.memRead pa = s.memRead pa

/-- R141, R350: stage 1. A latched timer with IE set clears the latch and takes interrupt 4 with the
current IP as return IP; else the timer ticks: COUNTER steps while TE is set, and reaching COMPARE
sets TP and clears TE, bit 0 of INT, alone. -/
def Obligations.TimerServiceRule : Prop :=
  ∀ s : State,
    (s.tp = true ∧ s.ie = true →
      timerService s = deliver (.interrupt 4 s.ip []) { s with tp := false }) ∧
    (¬(s.tp = true ∧ s.ie = true) → ∃ t, timerService s = .done t ∧
      t = { s with counter := t.counter, tp := t.tp, int := t.int } ∧
      (s.int.getLsbD 0 = false → t = s) ∧
      (s.int.getLsbD 0 = true → t.counter = BitVec.ofNat 32 (s.counter.toNat + 1) ∧
        (t.counter ≠ s.compare → t.tp = s.tp ∧ t.int = s.int) ∧
        (t.counter = s.compare → t.tp = true ∧ t.int.getLsbD 0 = false ∧
          ∀ k, 1 ≤ k → t.int.getLsbD k = s.int.getLsbD k)))

/-- R351: with TE set, COUNTER = c and COMPARE = m, the match comes at tick `k = (m - c) mod 2^32`,
or 2^32 where m = c, and not before. -/
def Obligations.TimerMatchesOnTick : Prop :=
  ∀ s : State, s.int.getLsbD 0 = true → s.tp = false →
    let k := if s.compare = s.counter then 0x100000000 else (s.compare - s.counter).toNat
    (State.tick^[k] s).tp = true ∧ (State.tick^[k] s).int.getLsbD 0 = false ∧
    ∀ j, j < k → (State.tick^[j] s).tp = false ∧ (State.tick^[j] s).int.getLsbD 0 = true

/-! ## Whole-machine rules -/

/-- R345, R333, R38: a guest instruction that does not exit changes memory, IP and Flags only. It
cannot touch a special register, a parsed table, IE, CPL, the timer or the console. -/
def Obligations.GuestChangesOnlyItsOwnState : Prop :=
  ∀ (i : Instr) (s t : State), exec i s = .next t → s.inVM = true → t.inVM = true →
    t.status = .running →
    t = { s with mem := t.mem, ip := t.ip, flags := t.flags, outcome := .continue }

/-- R70, R71, R345: with a segment table installed, a guest instruction that does not exit writes
only words inside the segments that DS, ES, SS and RS name; and so does any host instruction but
VMRESUME, even one that faults. -/
def Obligations.WritesStayInSegments : Prop :=
  ∀ (i : Instr) (s t : State) (pa : Word), exec i s = .next t → s.segInstalled = true →
    t.status = .running →
    (s.inVM = true ∧ t.inVM = true ∨ s.inVM = false ∧ t.inVM = false) →
    t.memRead pa ≠ s.memRead pa → Reachable s pa

/-- R345, R265, R320: guest mode is entered only by VMRESUME from host mode, and left only by a VM-exit:
an instruction that leaves it is one whose step is the delivery of a VM-exit, and stage 1 leaves it
only by the timer's. -/
def Obligations.GuestModeEntryAndExit : Prop :=
  (∀ (i : Instr) (s t : State), exec i s = .next t →
    (s.inVM = false → t.inVM = true → ∃ p o, i = .vmresume p o) ∧
    (s.inVM = true → t.inVM = false →
      ∃ reason guestIp extra, Raises i s (.vmExit reason guestIp extra))) ∧
  ∀ s t : State, timerService s = .done t →
    (s.inVM = false → t.inVM = false) ∧
    (s.inVM = true → t.inVM = false → s.tp = true ∧ s.ie = true ∧
      deliver (.vmExit 0 s.ip [4]) { s with tp := false } = .done t)

/-- R27: CPL changes only in a context switch: an instruction that neither enters nor leaves guest
mode keeps it, and so does stage 1. -/
def Obligations.CplChangesOnlyBySwitch : Prop :=
  (∀ (i : Instr) (s t : State), exec i s = .next t → t.status = .running → t.inVM = s.inVM →
    t.cpl = s.cpl) ∧
  ∀ s t : State, timerService s = .done t → t.inVM = s.inVM → t.cpl = s.cpl

/-- R29: IE changes only by CLI and STI: no other instruction, no delivery and no context switch
changes it. -/
def Obligations.IeChangesOnlyByCliSti : Prop :=
  (∀ (i : Instr) (s t : State), exec i s = .next t → t.ie ≠ s.ie →
    ∃ p, i = .cli p ∨ i = .sti p) ∧
  ∀ s t : State, timerService s = .done t → t.ie = s.ie

/-- R26: Flags changes only by CMP or in a context switch: no other instruction that stays in its
mode changes it, and neither does stage 1. -/
def Obligations.FlagsChangeOnlyByCmp : Prop :=
  (∀ (i : Instr) (s t : State), exec i s = .next t → t.status = .running → t.inVM = s.inVM →
    t.flags ≠ s.flags → ∃ p o1 o2, i = .cmp p o1 o2) ∧
  ∀ s t : State, timerService s = .done t → t.inVM = s.inVM → t.flags = s.flags

/-- R355: only a host-mode PRINT writes to the console, and only by appending one byte; stage 1 writes
nothing there. -/
def Obligations.ConsoleGrowsOnlyByPrint : Prop :=
  (∀ (i : Instr) (s t : State), exec i s = .next t → t.console ≠ s.console →
    s.inVM = false ∧ ∃ p o b, i = .print p o ∧ t.console = s.console ++ [b]) ∧
  ∀ s t : State, timerService s = .done t → t.console = s.console

/-- The invariant of Safety.lean (R28, R39, R40, R60, R82, R85, R265, R340) is kept by every step
from every state that meets it. The canonical form of memory and the recorded outcome are the
model's (notes/assumptions/1.md and 3.md). -/
def Obligations.StepKeepsInvariant : Prop :=
  ∀ s t : State, s.Inv → step s = .next t → t.Inv

/-- R360, R361: the invariant holds right after power-on reset, and after the host's `reset()` where
memory is canonical. The invariant's clauses on the canonical form and on the recorded outcome are
the model's (notes/assumptions/1.md and 3.md). -/
def Obligations.ResetMeetsInvariant : Prop :=
  State.reset.Inv ∧ ∀ s : State, s.mem.wf → s.hostReset.Inv

/-- R360: the reset values, and that reset keeps memory and the console stream. -/
def Obligations.ResetValues : Prop :=
  ∀ s : State, let t := s.hostReset
    t.segInstalled = false ∧ t.segTable = [] ∧ t.cpl = 0 ∧ t.ie = false ∧ t.inVM = false ∧
    t.vmID = 0 ∧ t.ip = 0 ∧ t.flags = 0 ∧ t.segtbl = 0 ∧ t.vmtbl = 0 ∧ t.vmInstalled = false ∧
    t.vmTable = [] ∧ t.cs = 0 ∧ t.ds = 0 ∧ t.es = 0 ∧ t.rs = 0 ∧ t.ss = 0 ∧ t.counter = 0 ∧
    t.compare = 0 ∧ t.int = 0 ∧ t.tp = false ∧ t.status = .running ∧
    t.mem = s.mem ∧ t.console = s.console
end

