-- ==== Sys2Proof/Laws/Memory.lean ====
section
/-! SUPPORT. The laws of physical memory: what a read gives after a write, and that a write keeps
the canonical form. They hold of every list but where `wf` is named. -/

namespace Sys2Proof.Machine

@[simp] theorem Memory.read_nil (a : Nat) : Memory.read [] a = unwritten := rfl

theorem Memory.read_cons (k : Nat) (v : Word) (m : Memory) (a : Nat) :
    Memory.read ((k, v) :: m) a = if k = a then v else Memory.read m a := rfl

theorem Memory.read_erase_same (m : Memory) (a : Nat) : (m.erase a).read a = unwritten := by
  induction m with
  | nil => rfl
  | cons c m ih =>
    obtain ⟨k, w⟩ := c
    by_cases h : k = a
    · simpa [Memory.erase, h] using ih
    · simpa [Memory.erase, Memory.read_cons, h] using ih

theorem Memory.erase_cons (k : Nat) (w : Word) (m : Memory) (a : Nat) :
    Memory.erase ((k, w) :: m) a = if k = a then m.erase a else (k, w) :: m.erase a := by
  by_cases h : k = a <;> simp [Memory.erase, h]

theorem Memory.read_erase_other (m : Memory) {a b : Nat} (hab : b ≠ a) :
    (m.erase a).read b = m.read b := by
  induction m with
  | nil => rfl
  | cons c m ih =>
    obtain ⟨k, w⟩ := c
    rw [Memory.erase_cons, Memory.read_cons]
    by_cases h : k = a
    · rw [if_pos h, if_neg (fun e => hab (e.symm.trans h)), ih]
    · rw [if_neg h, Memory.read_cons, ih]

theorem Memory.read_insert_other (m : Memory) {a b : Nat} (v : Word) (hab : b ≠ a) :
    (m.insert a v).read b = m.read b := by
  induction m with
  | nil => simp [Memory.insert, Memory.read_cons, Ne.symm hab]
  | cons c m ih =>
    obtain ⟨k, w⟩ := c
    by_cases h : a < k
    · simp [Memory.insert, Memory.read_cons, h, Ne.symm hab]
    · simp [Memory.insert, Memory.read_cons, h, ih]

theorem Memory.read_insert_same (m : Memory) {a : Nat} (v : Word) (h : ∀ c ∈ m, c.1 ≠ a) :
    (m.insert a v).read a = v := by
  induction m with
  | nil => simp [Memory.insert, Memory.read_cons]
  | cons c m ih =>
    obtain ⟨k, w⟩ := c
    have hk : k ≠ a := h (k, w) (by simp)
    by_cases hlt : a < k
    · simp [Memory.insert, Memory.read_cons, hlt]
    · simp [Memory.insert, Memory.read_cons, hlt, hk, ih fun c hc => h c (by simp [hc])]

/-- The written word reads back. -/
@[simp] theorem Memory.read_write_same (m : Memory) (a : Nat) (v : Word) :
    (m.write a v).read a = v := by
  unfold Memory.write
  split
  next h => rw [h]; exact m.read_erase_same a
  next => exact Memory.read_insert_same _ v fun c hc => by simpa using (List.mem_filter.1 hc).2

/-- Every other word keeps its value. -/
theorem Memory.read_write_other (m : Memory) {a b : Nat} (v : Word) (hab : b ≠ a) :
    (m.write a v).read b = m.read b := by
  unfold Memory.write
  split
  next => exact m.read_erase_other hab
  next => rw [Memory.read_insert_other _ v hab, m.read_erase_other hab]

theorem Memory.read_write (m : Memory) (a b : Nat) (v : Word) :
    (m.write a v).read b = if b = a then v else m.read b := by
  split
  next h => rw [h, Memory.read_write_same]
  next h => exact m.read_write_other v h

/-! ## The canonical form -/

theorem Memory.wf_nil : Memory.wf [] := by simp [Memory.wf]

theorem Memory.mem_insert {m : Memory} {a : Nat} {v : Word} {c : Nat × Word}
    (h : c ∈ m.insert a v) : c = (a, v) ∨ c ∈ m := by
  induction m with
  | nil => exact .inl (by simpa [Memory.insert] using h)
  | cons d m ih =>
    obtain ⟨k, w⟩ := d
    by_cases hlt : a < k
    · simpa [Memory.insert, hlt] using h
    · simp only [Memory.insert, hlt, if_false, List.mem_cons] at h
      rcases h with h | h
      · exact .inr (by simp [h])
      · exact (ih h).imp_right fun h => by simp [h]

theorem Memory.wf_erase {m : Memory} (a : Nat) (h : m.wf) : (m.erase a).wf :=
  ⟨h.1.filter _, fun c hc => h.2 c (List.mem_filter.1 hc).1⟩

theorem Memory.wf_insert {m : Memory} {a : Nat} {v : Word} (h : m.wf) (hne : ∀ c ∈ m, c.1 ≠ a)
    (ha : a ≤ wordMax) (hv : v ≠ unwritten) : (m.insert a v).wf := by
  refine ⟨?_, fun c hc => ?_⟩
  · obtain ⟨hp, hc⟩ := h
    induction m with
    | nil => simp [Memory.insert]
    | cons d m ih =>
      obtain ⟨k, w⟩ := d
      rw [List.pairwise_cons] at hp
      by_cases hlt : a < k
      · simp only [Memory.insert, hlt, if_true, List.pairwise_cons]
        refine ⟨fun c hc' => ?_, hp⟩
        rcases List.mem_cons.1 hc' with rfl | hm
        · exact hlt
        · exact hlt.trans (hp.1 c hm)
      · simp only [Memory.insert, hlt, if_false, List.pairwise_cons]
        refine ⟨fun c hc' => ?_, ih (fun c hm => hne c (by simp [hm])) hp.2
          fun c hm => hc c (by simp [hm])⟩
        rcases Memory.mem_insert hc' with rfl | hm
        · have : k ≠ a := hne (k, w) (by simp)
          show k < a
          omega
        · exact hp.1 c hm
  · rcases Memory.mem_insert hc with rfl | hm
    · exact ⟨ha, hv⟩
    · exact h.2 c hm

/-- A write inside the address space keeps the canonical form. -/
theorem Memory.wf_write {m : Memory} {a : Nat} (v : Word) (h : m.wf) (ha : a ≤ wordMax) :
    (m.write a v).wf := by
  unfold Memory.write
  split
  next => exact Memory.wf_erase a h
  next hv =>
    exact Memory.wf_insert (Memory.wf_erase a h)
      (fun c hc => by simpa using (List.mem_filter.1 hc).2) ha hv

/-- A word that differs from `unwritten` is listed. -/
theorem Memory.mem_of_read_ne {m : Memory} {a : Nat} (h : m.read a ≠ unwritten) :
    (a, m.read a) ∈ m := by
  induction m with
  | nil => exact absurd rfl h
  | cons c m ih =>
    obtain ⟨k, w⟩ := c
    by_cases hk : k = a
    · simp [Memory.read_cons, hk]
    · rw [Memory.read_cons, if_neg hk] at h ⊢
      exact List.mem_cons_of_mem _ (ih h)

end Sys2Proof.Machine
end

