-- ==== Sys2Proof/Laws/State.lean ====
section
/-! SUPPORT. One lemma per field per named update of the state, so that no proof unfolds a record
update; and the same for the updates that are defined by cases or by recursion. -/

namespace Sys2Proof.Machine

/-! ## `memWrite` -/

section
variable (s : State) (pa v : Word)

@[simp] theorem State.memWrite_mem : (s.memWrite pa v).mem = s.mem.write pa.toNat v := rfl
@[simp] theorem State.memWrite_ip : (s.memWrite pa v).ip = s.ip := rfl
@[simp] theorem State.memWrite_flags : (s.memWrite pa v).flags = s.flags := rfl
@[simp] theorem State.memWrite_cpl : (s.memWrite pa v).cpl = s.cpl := rfl
@[simp] theorem State.memWrite_inVM : (s.memWrite pa v).inVM = s.inVM := rfl
@[simp] theorem State.memWrite_vmID : (s.memWrite pa v).vmID = s.vmID := rfl
@[simp] theorem State.memWrite_ie : (s.memWrite pa v).ie = s.ie := rfl
@[simp] theorem State.memWrite_segtbl : (s.memWrite pa v).segtbl = s.segtbl := rfl
@[simp] theorem State.memWrite_vmtbl : (s.memWrite pa v).vmtbl = s.vmtbl := rfl
@[simp] theorem State.memWrite_cs : (s.memWrite pa v).cs = s.cs := rfl
@[simp] theorem State.memWrite_ds : (s.memWrite pa v).ds = s.ds := rfl
@[simp] theorem State.memWrite_es : (s.memWrite pa v).es = s.es := rfl
@[simp] theorem State.memWrite_rs : (s.memWrite pa v).rs = s.rs := rfl
@[simp] theorem State.memWrite_ss : (s.memWrite pa v).ss = s.ss := rfl
@[simp] theorem State.memWrite_counter : (s.memWrite pa v).counter = s.counter := rfl
@[simp] theorem State.memWrite_compare : (s.memWrite pa v).compare = s.compare := rfl
@[simp] theorem State.memWrite_int : (s.memWrite pa v).int = s.int := rfl
@[simp] theorem State.memWrite_tp : (s.memWrite pa v).tp = s.tp := rfl
@[simp] theorem State.memWrite_segInstalled : (s.memWrite pa v).segInstalled = s.segInstalled := rfl
@[simp] theorem State.memWrite_segTable : (s.memWrite pa v).segTable = s.segTable := rfl
@[simp] theorem State.memWrite_vmInstalled : (s.memWrite pa v).vmInstalled = s.vmInstalled := rfl
@[simp] theorem State.memWrite_vmTable : (s.memWrite pa v).vmTable = s.vmTable := rfl
@[simp] theorem State.memWrite_console : (s.memWrite pa v).console = s.console := rfl
@[simp] theorem State.memWrite_status : (s.memWrite pa v).status = s.status := rfl
@[simp] theorem State.memWrite_outcome : (s.memWrite pa v).outcome = s.outcome := rfl

end

/-! ## `jump` -/

section
variable (s : State) (target : Word)

@[simp] theorem State.jump_mem : (s.jump target).mem = s.mem := rfl
@[simp] theorem State.jump_ip : (s.jump target).ip = target := rfl
@[simp] theorem State.jump_flags : (s.jump target).flags = s.flags := rfl
@[simp] theorem State.jump_cpl : (s.jump target).cpl = s.cpl := rfl
@[simp] theorem State.jump_inVM : (s.jump target).inVM = s.inVM := rfl
@[simp] theorem State.jump_vmID : (s.jump target).vmID = s.vmID := rfl
@[simp] theorem State.jump_ie : (s.jump target).ie = s.ie := rfl
@[simp] theorem State.jump_segtbl : (s.jump target).segtbl = s.segtbl := rfl
@[simp] theorem State.jump_vmtbl : (s.jump target).vmtbl = s.vmtbl := rfl
@[simp] theorem State.jump_cs : (s.jump target).cs = s.cs := rfl
@[simp] theorem State.jump_ds : (s.jump target).ds = s.ds := rfl
@[simp] theorem State.jump_es : (s.jump target).es = s.es := rfl
@[simp] theorem State.jump_rs : (s.jump target).rs = s.rs := rfl
@[simp] theorem State.jump_ss : (s.jump target).ss = s.ss := rfl
@[simp] theorem State.jump_counter : (s.jump target).counter = s.counter := rfl
@[simp] theorem State.jump_compare : (s.jump target).compare = s.compare := rfl
@[simp] theorem State.jump_int : (s.jump target).int = s.int := rfl
@[simp] theorem State.jump_tp : (s.jump target).tp = s.tp := rfl
@[simp] theorem State.jump_segInstalled : (s.jump target).segInstalled = s.segInstalled := rfl
@[simp] theorem State.jump_segTable : (s.jump target).segTable = s.segTable := rfl
@[simp] theorem State.jump_vmInstalled : (s.jump target).vmInstalled = s.vmInstalled := rfl
@[simp] theorem State.jump_vmTable : (s.jump target).vmTable = s.vmTable := rfl
@[simp] theorem State.jump_console : (s.jump target).console = s.console := rfl
@[simp] theorem State.jump_status : (s.jump target).status = s.status := rfl
@[simp] theorem State.jump_outcome : (s.jump target).outcome = s.outcome := rfl

end

/-! ## `continues` -/

section
variable (s : State)

@[simp] theorem State.continues_mem : (s.continues).mem = s.mem := rfl
@[simp] theorem State.continues_ip : (s.continues).ip = s.ip := rfl
@[simp] theorem State.continues_flags : (s.continues).flags = s.flags := rfl
@[simp] theorem State.continues_cpl : (s.continues).cpl = s.cpl := rfl
@[simp] theorem State.continues_inVM : (s.continues).inVM = s.inVM := rfl
@[simp] theorem State.continues_vmID : (s.continues).vmID = s.vmID := rfl
@[simp] theorem State.continues_ie : (s.continues).ie = s.ie := rfl
@[simp] theorem State.continues_segtbl : (s.continues).segtbl = s.segtbl := rfl
@[simp] theorem State.continues_vmtbl : (s.continues).vmtbl = s.vmtbl := rfl
@[simp] theorem State.continues_cs : (s.continues).cs = s.cs := rfl
@[simp] theorem State.continues_ds : (s.continues).ds = s.ds := rfl
@[simp] theorem State.continues_es : (s.continues).es = s.es := rfl
@[simp] theorem State.continues_rs : (s.continues).rs = s.rs := rfl
@[simp] theorem State.continues_ss : (s.continues).ss = s.ss := rfl
@[simp] theorem State.continues_counter : (s.continues).counter = s.counter := rfl
@[simp] theorem State.continues_compare : (s.continues).compare = s.compare := rfl
@[simp] theorem State.continues_int : (s.continues).int = s.int := rfl
@[simp] theorem State.continues_tp : (s.continues).tp = s.tp := rfl
@[simp] theorem State.continues_segInstalled : (s.continues).segInstalled = s.segInstalled := rfl
@[simp] theorem State.continues_segTable : (s.continues).segTable = s.segTable := rfl
@[simp] theorem State.continues_vmInstalled : (s.continues).vmInstalled = s.vmInstalled := rfl
@[simp] theorem State.continues_vmTable : (s.continues).vmTable = s.vmTable := rfl
@[simp] theorem State.continues_console : (s.continues).console = s.console := rfl
@[simp] theorem State.continues_status : (s.continues).status = s.status := rfl
@[simp] theorem State.continues_outcome : (s.continues).outcome = .continue := rfl

end

/-! ## `stops` -/

section
variable (s : State)

@[simp] theorem State.stops_mem : (s.stops).mem = s.mem := rfl
@[simp] theorem State.stops_ip : (s.stops).ip = s.ip := rfl
@[simp] theorem State.stops_flags : (s.stops).flags = s.flags := rfl
@[simp] theorem State.stops_cpl : (s.stops).cpl = s.cpl := rfl
@[simp] theorem State.stops_inVM : (s.stops).inVM = s.inVM := rfl
@[simp] theorem State.stops_vmID : (s.stops).vmID = s.vmID := rfl
@[simp] theorem State.stops_ie : (s.stops).ie = s.ie := rfl
@[simp] theorem State.stops_segtbl : (s.stops).segtbl = s.segtbl := rfl
@[simp] theorem State.stops_vmtbl : (s.stops).vmtbl = s.vmtbl := rfl
@[simp] theorem State.stops_cs : (s.stops).cs = s.cs := rfl
@[simp] theorem State.stops_ds : (s.stops).ds = s.ds := rfl
@[simp] theorem State.stops_es : (s.stops).es = s.es := rfl
@[simp] theorem State.stops_rs : (s.stops).rs = s.rs := rfl
@[simp] theorem State.stops_ss : (s.stops).ss = s.ss := rfl
@[simp] theorem State.stops_counter : (s.stops).counter = s.counter := rfl
@[simp] theorem State.stops_compare : (s.stops).compare = s.compare := rfl
@[simp] theorem State.stops_int : (s.stops).int = s.int := rfl
@[simp] theorem State.stops_tp : (s.stops).tp = s.tp := rfl
@[simp] theorem State.stops_segInstalled : (s.stops).segInstalled = s.segInstalled := rfl
@[simp] theorem State.stops_segTable : (s.stops).segTable = s.segTable := rfl
@[simp] theorem State.stops_vmInstalled : (s.stops).vmInstalled = s.vmInstalled := rfl
@[simp] theorem State.stops_vmTable : (s.stops).vmTable = s.vmTable := rfl
@[simp] theorem State.stops_console : (s.stops).console = s.console := rfl
@[simp] theorem State.stops_status : (s.stops).status = s.status := rfl
@[simp] theorem State.stops_outcome : (s.stops).outcome = .stop := rfl

end

/-! ## `die` -/

section
variable (s : State) (r : FatalReason)

@[simp] theorem State.die_mem : (s.die r).mem = s.mem := rfl
@[simp] theorem State.die_ip : (s.die r).ip = s.ip := rfl
@[simp] theorem State.die_flags : (s.die r).flags = s.flags := rfl
@[simp] theorem State.die_cpl : (s.die r).cpl = s.cpl := rfl
@[simp] theorem State.die_inVM : (s.die r).inVM = s.inVM := rfl
@[simp] theorem State.die_vmID : (s.die r).vmID = s.vmID := rfl
@[simp] theorem State.die_ie : (s.die r).ie = s.ie := rfl
@[simp] theorem State.die_segtbl : (s.die r).segtbl = s.segtbl := rfl
@[simp] theorem State.die_vmtbl : (s.die r).vmtbl = s.vmtbl := rfl
@[simp] theorem State.die_cs : (s.die r).cs = s.cs := rfl
@[simp] theorem State.die_ds : (s.die r).ds = s.ds := rfl
@[simp] theorem State.die_es : (s.die r).es = s.es := rfl
@[simp] theorem State.die_rs : (s.die r).rs = s.rs := rfl
@[simp] theorem State.die_ss : (s.die r).ss = s.ss := rfl
@[simp] theorem State.die_counter : (s.die r).counter = s.counter := rfl
@[simp] theorem State.die_compare : (s.die r).compare = s.compare := rfl
@[simp] theorem State.die_int : (s.die r).int = s.int := rfl
@[simp] theorem State.die_tp : (s.die r).tp = s.tp := rfl
@[simp] theorem State.die_segInstalled : (s.die r).segInstalled = s.segInstalled := rfl
@[simp] theorem State.die_segTable : (s.die r).segTable = s.segTable := rfl
@[simp] theorem State.die_vmInstalled : (s.die r).vmInstalled = s.vmInstalled := rfl
@[simp] theorem State.die_vmTable : (s.die r).vmTable = s.vmTable := rfl
@[simp] theorem State.die_console : (s.die r).console = s.console := rfl
@[simp] theorem State.die_status : (s.die r).status = .fatal r := rfl
@[simp] theorem State.die_outcome : (s.die r).outcome = .fatal r := rfl

end

/-! ## `leaveGuest` -/

section
variable (s : State)

@[simp] theorem State.leaveGuest_mem : (s.leaveGuest).mem = s.mem := rfl
@[simp] theorem State.leaveGuest_ip : (s.leaveGuest).ip = s.ip := rfl
@[simp] theorem State.leaveGuest_flags : (s.leaveGuest).flags = s.flags := rfl
@[simp] theorem State.leaveGuest_cpl : (s.leaveGuest).cpl = s.cpl := rfl
@[simp] theorem State.leaveGuest_inVM : (s.leaveGuest).inVM = false := rfl
@[simp] theorem State.leaveGuest_vmID : (s.leaveGuest).vmID = 0 := rfl
@[simp] theorem State.leaveGuest_ie : (s.leaveGuest).ie = s.ie := rfl
@[simp] theorem State.leaveGuest_segtbl : (s.leaveGuest).segtbl = s.segtbl := rfl
@[simp] theorem State.leaveGuest_vmtbl : (s.leaveGuest).vmtbl = s.vmtbl := rfl
@[simp] theorem State.leaveGuest_cs : (s.leaveGuest).cs = s.cs := rfl
@[simp] theorem State.leaveGuest_ds : (s.leaveGuest).ds = s.ds := rfl
@[simp] theorem State.leaveGuest_es : (s.leaveGuest).es = s.es := rfl
@[simp] theorem State.leaveGuest_rs : (s.leaveGuest).rs = s.rs := rfl
@[simp] theorem State.leaveGuest_ss : (s.leaveGuest).ss = s.ss := rfl
@[simp] theorem State.leaveGuest_counter : (s.leaveGuest).counter = s.counter := rfl
@[simp] theorem State.leaveGuest_compare : (s.leaveGuest).compare = s.compare := rfl
@[simp] theorem State.leaveGuest_int : (s.leaveGuest).int = s.int := rfl
@[simp] theorem State.leaveGuest_tp : (s.leaveGuest).tp = s.tp := rfl
@[simp] theorem State.leaveGuest_segInstalled : (s.leaveGuest).segInstalled = s.segInstalled := rfl
@[simp] theorem State.leaveGuest_segTable : (s.leaveGuest).segTable = s.segTable := rfl
@[simp] theorem State.leaveGuest_vmInstalled : (s.leaveGuest).vmInstalled = s.vmInstalled := rfl
@[simp] theorem State.leaveGuest_vmTable : (s.leaveGuest).vmTable = s.vmTable := rfl
@[simp] theorem State.leaveGuest_console : (s.leaveGuest).console = s.console := rfl
@[simp] theorem State.leaveGuest_status : (s.leaveGuest).status = s.status := rfl
@[simp] theorem State.leaveGuest_outcome : (s.leaveGuest).outcome = s.outcome := rfl

end

/-! ## `enterGuest` -/

section
variable (s : State) (id : Word)

@[simp] theorem State.enterGuest_mem : (s.enterGuest id).mem = s.mem := rfl
@[simp] theorem State.enterGuest_ip : (s.enterGuest id).ip = s.ip := rfl
@[simp] theorem State.enterGuest_flags : (s.enterGuest id).flags = s.flags := rfl
@[simp] theorem State.enterGuest_cpl : (s.enterGuest id).cpl = s.cpl := rfl
@[simp] theorem State.enterGuest_inVM : (s.enterGuest id).inVM = true := rfl
@[simp] theorem State.enterGuest_vmID : (s.enterGuest id).vmID = id := rfl
@[simp] theorem State.enterGuest_ie : (s.enterGuest id).ie = s.ie := rfl
@[simp] theorem State.enterGuest_segtbl : (s.enterGuest id).segtbl = s.segtbl := rfl
@[simp] theorem State.enterGuest_vmtbl : (s.enterGuest id).vmtbl = s.vmtbl := rfl
@[simp] theorem State.enterGuest_cs : (s.enterGuest id).cs = s.cs := rfl
@[simp] theorem State.enterGuest_ds : (s.enterGuest id).ds = s.ds := rfl
@[simp] theorem State.enterGuest_es : (s.enterGuest id).es = s.es := rfl
@[simp] theorem State.enterGuest_rs : (s.enterGuest id).rs = s.rs := rfl
@[simp] theorem State.enterGuest_ss : (s.enterGuest id).ss = s.ss := rfl
@[simp] theorem State.enterGuest_counter : (s.enterGuest id).counter = s.counter := rfl
@[simp] theorem State.enterGuest_compare : (s.enterGuest id).compare = s.compare := rfl
@[simp] theorem State.enterGuest_int : (s.enterGuest id).int = s.int := rfl
@[simp] theorem State.enterGuest_tp : (s.enterGuest id).tp = s.tp := rfl
@[simp] theorem State.enterGuest_segInstalled : (s.enterGuest id).segInstalled = s.segInstalled := rfl
@[simp] theorem State.enterGuest_segTable : (s.enterGuest id).segTable = s.segTable := rfl
@[simp] theorem State.enterGuest_vmInstalled : (s.enterGuest id).vmInstalled = s.vmInstalled := rfl
@[simp] theorem State.enterGuest_vmTable : (s.enterGuest id).vmTable = s.vmTable := rfl
@[simp] theorem State.enterGuest_console : (s.enterGuest id).console = s.console := rfl
@[simp] theorem State.enterGuest_status : (s.enterGuest id).status = s.status := rfl
@[simp] theorem State.enterGuest_outcome : (s.enterGuest id).outcome = s.outcome := rfl

end

/-! ## `loadContext` -/

section
variable (s : State) (d : VmDescriptor)

@[simp] theorem State.loadContext_mem : (s.loadContext d).mem = s.mem := rfl
@[simp] theorem State.loadContext_ip : (s.loadContext d).ip = d.ip := rfl
@[simp] theorem State.loadContext_flags : (s.loadContext d).flags = d.flags := rfl
@[simp] theorem State.loadContext_cpl : (s.loadContext d).cpl = d.privilegeLevel := rfl
@[simp] theorem State.loadContext_inVM : (s.loadContext d).inVM = s.inVM := rfl
@[simp] theorem State.loadContext_vmID : (s.loadContext d).vmID = s.vmID := rfl
@[simp] theorem State.loadContext_ie : (s.loadContext d).ie = s.ie := rfl
@[simp] theorem State.loadContext_segtbl : (s.loadContext d).segtbl = s.segtbl := rfl
@[simp] theorem State.loadContext_vmtbl : (s.loadContext d).vmtbl = s.vmtbl := rfl
@[simp] theorem State.loadContext_cs : (s.loadContext d).cs = d.cs := rfl
@[simp] theorem State.loadContext_ds : (s.loadContext d).ds = d.ds := rfl
@[simp] theorem State.loadContext_es : (s.loadContext d).es = d.es := rfl
@[simp] theorem State.loadContext_rs : (s.loadContext d).rs = d.rs := rfl
@[simp] theorem State.loadContext_ss : (s.loadContext d).ss = d.ss := rfl
@[simp] theorem State.loadContext_counter : (s.loadContext d).counter = s.counter := rfl
@[simp] theorem State.loadContext_compare : (s.loadContext d).compare = s.compare := rfl
@[simp] theorem State.loadContext_int : (s.loadContext d).int = s.int := rfl
@[simp] theorem State.loadContext_tp : (s.loadContext d).tp = s.tp := rfl
@[simp] theorem State.loadContext_segInstalled : (s.loadContext d).segInstalled = s.segInstalled := rfl
@[simp] theorem State.loadContext_segTable : (s.loadContext d).segTable = s.segTable := rfl
@[simp] theorem State.loadContext_vmInstalled : (s.loadContext d).vmInstalled = s.vmInstalled := rfl
@[simp] theorem State.loadContext_vmTable : (s.loadContext d).vmTable = s.vmTable := rfl
@[simp] theorem State.loadContext_console : (s.loadContext d).console = s.console := rfl
@[simp] theorem State.loadContext_status : (s.loadContext d).status = s.status := rfl
@[simp] theorem State.loadContext_outcome : (s.loadContext d).outcome = s.outcome := rfl

end

/-! ## `consoleOut` -/

section
variable (s : State) (b : Byte)

@[simp] theorem State.consoleOut_mem : (s.consoleOut b).mem = s.mem := rfl
@[simp] theorem State.consoleOut_ip : (s.consoleOut b).ip = s.ip := rfl
@[simp] theorem State.consoleOut_flags : (s.consoleOut b).flags = s.flags := rfl
@[simp] theorem State.consoleOut_cpl : (s.consoleOut b).cpl = s.cpl := rfl
@[simp] theorem State.consoleOut_inVM : (s.consoleOut b).inVM = s.inVM := rfl
@[simp] theorem State.consoleOut_vmID : (s.consoleOut b).vmID = s.vmID := rfl
@[simp] theorem State.consoleOut_ie : (s.consoleOut b).ie = s.ie := rfl
@[simp] theorem State.consoleOut_segtbl : (s.consoleOut b).segtbl = s.segtbl := rfl
@[simp] theorem State.consoleOut_vmtbl : (s.consoleOut b).vmtbl = s.vmtbl := rfl
@[simp] theorem State.consoleOut_cs : (s.consoleOut b).cs = s.cs := rfl
@[simp] theorem State.consoleOut_ds : (s.consoleOut b).ds = s.ds := rfl
@[simp] theorem State.consoleOut_es : (s.consoleOut b).es = s.es := rfl
@[simp] theorem State.consoleOut_rs : (s.consoleOut b).rs = s.rs := rfl
@[simp] theorem State.consoleOut_ss : (s.consoleOut b).ss = s.ss := rfl
@[simp] theorem State.consoleOut_counter : (s.consoleOut b).counter = s.counter := rfl
@[simp] theorem State.consoleOut_compare : (s.consoleOut b).compare = s.compare := rfl
@[simp] theorem State.consoleOut_int : (s.consoleOut b).int = s.int := rfl
@[simp] theorem State.consoleOut_tp : (s.consoleOut b).tp = s.tp := rfl
@[simp] theorem State.consoleOut_segInstalled : (s.consoleOut b).segInstalled = s.segInstalled := rfl
@[simp] theorem State.consoleOut_segTable : (s.consoleOut b).segTable = s.segTable := rfl
@[simp] theorem State.consoleOut_vmInstalled : (s.consoleOut b).vmInstalled = s.vmInstalled := rfl
@[simp] theorem State.consoleOut_vmTable : (s.consoleOut b).vmTable = s.vmTable := rfl
@[simp] theorem State.consoleOut_console : (s.consoleOut b).console = s.console ++ [b] := rfl
@[simp] theorem State.consoleOut_status : (s.consoleOut b).status = s.status := rfl
@[simp] theorem State.consoleOut_outcome : (s.consoleOut b).outcome = s.outcome := rfl

end

/-! ## `setIe` -/

section
variable (s : State) (b : Bool)

@[simp] theorem State.setIe_mem : (s.setIe b).mem = s.mem := rfl
@[simp] theorem State.setIe_ip : (s.setIe b).ip = s.ip := rfl
@[simp] theorem State.setIe_flags : (s.setIe b).flags = s.flags := rfl
@[simp] theorem State.setIe_cpl : (s.setIe b).cpl = s.cpl := rfl
@[simp] theorem State.setIe_inVM : (s.setIe b).inVM = s.inVM := rfl
@[simp] theorem State.setIe_vmID : (s.setIe b).vmID = s.vmID := rfl
@[simp] theorem State.setIe_ie : (s.setIe b).ie = b := rfl
@[simp] theorem State.setIe_segtbl : (s.setIe b).segtbl = s.segtbl := rfl
@[simp] theorem State.setIe_vmtbl : (s.setIe b).vmtbl = s.vmtbl := rfl
@[simp] theorem State.setIe_cs : (s.setIe b).cs = s.cs := rfl
@[simp] theorem State.setIe_ds : (s.setIe b).ds = s.ds := rfl
@[simp] theorem State.setIe_es : (s.setIe b).es = s.es := rfl
@[simp] theorem State.setIe_rs : (s.setIe b).rs = s.rs := rfl
@[simp] theorem State.setIe_ss : (s.setIe b).ss = s.ss := rfl
@[simp] theorem State.setIe_counter : (s.setIe b).counter = s.counter := rfl
@[simp] theorem State.setIe_compare : (s.setIe b).compare = s.compare := rfl
@[simp] theorem State.setIe_int : (s.setIe b).int = s.int := rfl
@[simp] theorem State.setIe_tp : (s.setIe b).tp = s.tp := rfl
@[simp] theorem State.setIe_segInstalled : (s.setIe b).segInstalled = s.segInstalled := rfl
@[simp] theorem State.setIe_segTable : (s.setIe b).segTable = s.segTable := rfl
@[simp] theorem State.setIe_vmInstalled : (s.setIe b).vmInstalled = s.vmInstalled := rfl
@[simp] theorem State.setIe_vmTable : (s.setIe b).vmTable = s.vmTable := rfl
@[simp] theorem State.setIe_console : (s.setIe b).console = s.console := rfl
@[simp] theorem State.setIe_status : (s.setIe b).status = s.status := rfl
@[simp] theorem State.setIe_outcome : (s.setIe b).outcome = s.outcome := rfl

end

/-! ## `compareFlags` -/

section
variable (s : State) (a b : Word)

@[simp] theorem State.compareFlags_mem : (s.compareFlags a b).mem = s.mem := rfl
@[simp] theorem State.compareFlags_ip : (s.compareFlags a b).ip = s.ip := rfl
@[simp] theorem State.compareFlags_flags : (s.compareFlags a b).flags = cmpFlags a b s.flags := rfl
@[simp] theorem State.compareFlags_cpl : (s.compareFlags a b).cpl = s.cpl := rfl
@[simp] theorem State.compareFlags_inVM : (s.compareFlags a b).inVM = s.inVM := rfl
@[simp] theorem State.compareFlags_vmID : (s.compareFlags a b).vmID = s.vmID := rfl
@[simp] theorem State.compareFlags_ie : (s.compareFlags a b).ie = s.ie := rfl
@[simp] theorem State.compareFlags_segtbl : (s.compareFlags a b).segtbl = s.segtbl := rfl
@[simp] theorem State.compareFlags_vmtbl : (s.compareFlags a b).vmtbl = s.vmtbl := rfl
@[simp] theorem State.compareFlags_cs : (s.compareFlags a b).cs = s.cs := rfl
@[simp] theorem State.compareFlags_ds : (s.compareFlags a b).ds = s.ds := rfl
@[simp] theorem State.compareFlags_es : (s.compareFlags a b).es = s.es := rfl
@[simp] theorem State.compareFlags_rs : (s.compareFlags a b).rs = s.rs := rfl
@[simp] theorem State.compareFlags_ss : (s.compareFlags a b).ss = s.ss := rfl
@[simp] theorem State.compareFlags_counter : (s.compareFlags a b).counter = s.counter := rfl
@[simp] theorem State.compareFlags_compare : (s.compareFlags a b).compare = s.compare := rfl
@[simp] theorem State.compareFlags_int : (s.compareFlags a b).int = s.int := rfl
@[simp] theorem State.compareFlags_tp : (s.compareFlags a b).tp = s.tp := rfl
@[simp] theorem State.compareFlags_segInstalled : (s.compareFlags a b).segInstalled = s.segInstalled := rfl
@[simp] theorem State.compareFlags_segTable : (s.compareFlags a b).segTable = s.segTable := rfl
@[simp] theorem State.compareFlags_vmInstalled : (s.compareFlags a b).vmInstalled = s.vmInstalled := rfl
@[simp] theorem State.compareFlags_vmTable : (s.compareFlags a b).vmTable = s.vmTable := rfl
@[simp] theorem State.compareFlags_console : (s.compareFlags a b).console = s.console := rfl
@[simp] theorem State.compareFlags_status : (s.compareFlags a b).status = s.status := rfl
@[simp] theorem State.compareFlags_outcome : (s.compareFlags a b).outcome = s.outcome := rfl

end

/-! ## `writeAll`: only memory changes -/

section
variable (s : State) (l : List (Word × Word))

theorem State.writeAll_eq : s.writeAll l = { s with mem := (s.writeAll l).mem } := by
  induction l generalizing s with
  | nil => rfl
  | cons c l ih =>
    obtain ⟨pa, v⟩ := c
    rw [State.writeAll, ih]
    rfl

@[simp] theorem State.writeAll_ip : (s.writeAll l).ip = s.ip := by rw [State.writeAll_eq]
@[simp] theorem State.writeAll_flags : (s.writeAll l).flags = s.flags := by rw [State.writeAll_eq]
@[simp] theorem State.writeAll_cpl : (s.writeAll l).cpl = s.cpl := by rw [State.writeAll_eq]
@[simp] theorem State.writeAll_inVM : (s.writeAll l).inVM = s.inVM := by rw [State.writeAll_eq]
@[simp] theorem State.writeAll_vmID : (s.writeAll l).vmID = s.vmID := by rw [State.writeAll_eq]
@[simp] theorem State.writeAll_ie : (s.writeAll l).ie = s.ie := by rw [State.writeAll_eq]
@[simp] theorem State.writeAll_segtbl : (s.writeAll l).segtbl = s.segtbl := by rw [State.writeAll_eq]
@[simp] theorem State.writeAll_vmtbl : (s.writeAll l).vmtbl = s.vmtbl := by rw [State.writeAll_eq]
@[simp] theorem State.writeAll_cs : (s.writeAll l).cs = s.cs := by rw [State.writeAll_eq]
@[simp] theorem State.writeAll_ds : (s.writeAll l).ds = s.ds := by rw [State.writeAll_eq]
@[simp] theorem State.writeAll_es : (s.writeAll l).es = s.es := by rw [State.writeAll_eq]
@[simp] theorem State.writeAll_rs : (s.writeAll l).rs = s.rs := by rw [State.writeAll_eq]
@[simp] theorem State.writeAll_ss : (s.writeAll l).ss = s.ss := by rw [State.writeAll_eq]
@[simp] theorem State.writeAll_counter : (s.writeAll l).counter = s.counter := by rw [State.writeAll_eq]
@[simp] theorem State.writeAll_compare : (s.writeAll l).compare = s.compare := by rw [State.writeAll_eq]
@[simp] theorem State.writeAll_int : (s.writeAll l).int = s.int := by rw [State.writeAll_eq]
@[simp] theorem State.writeAll_tp : (s.writeAll l).tp = s.tp := by rw [State.writeAll_eq]
@[simp] theorem State.writeAll_segInstalled : (s.writeAll l).segInstalled = s.segInstalled := by rw [State.writeAll_eq]
@[simp] theorem State.writeAll_segTable : (s.writeAll l).segTable = s.segTable := by rw [State.writeAll_eq]
@[simp] theorem State.writeAll_vmInstalled : (s.writeAll l).vmInstalled = s.vmInstalled := by rw [State.writeAll_eq]
@[simp] theorem State.writeAll_vmTable : (s.writeAll l).vmTable = s.vmTable := by rw [State.writeAll_eq]
@[simp] theorem State.writeAll_console : (s.writeAll l).console = s.console := by rw [State.writeAll_eq]
@[simp] theorem State.writeAll_status : (s.writeAll l).status = s.status := by rw [State.writeAll_eq]
@[simp] theorem State.writeAll_outcome : (s.writeAll l).outcome = s.outcome := by rw [State.writeAll_eq]

end

/-! ## `storeSpr`: only the named register changes -/

section
variable (s : State) (n : SpecialReg) (v : Word)

@[simp] theorem State.storeSpr_mem : (s.storeSpr n v).mem = s.mem := by cases n <;> rfl
@[simp] theorem State.storeSpr_ip : (s.storeSpr n v).ip = s.ip := by cases n <;> rfl
@[simp] theorem State.storeSpr_flags : (s.storeSpr n v).flags = s.flags := by cases n <;> rfl
@[simp] theorem State.storeSpr_cpl : (s.storeSpr n v).cpl = s.cpl := by cases n <;> rfl
@[simp] theorem State.storeSpr_inVM : (s.storeSpr n v).inVM = s.inVM := by cases n <;> rfl
@[simp] theorem State.storeSpr_vmID : (s.storeSpr n v).vmID = s.vmID := by cases n <;> rfl
@[simp] theorem State.storeSpr_ie : (s.storeSpr n v).ie = s.ie := by cases n <;> rfl
@[simp] theorem State.storeSpr_tp : (s.storeSpr n v).tp = s.tp := by cases n <;> rfl
@[simp] theorem State.storeSpr_segInstalled : (s.storeSpr n v).segInstalled = s.segInstalled := by cases n <;> rfl
@[simp] theorem State.storeSpr_segTable : (s.storeSpr n v).segTable = s.segTable := by cases n <;> rfl
@[simp] theorem State.storeSpr_vmInstalled : (s.storeSpr n v).vmInstalled = s.vmInstalled := by cases n <;> rfl
@[simp] theorem State.storeSpr_vmTable : (s.storeSpr n v).vmTable = s.vmTable := by cases n <;> rfl
@[simp] theorem State.storeSpr_console : (s.storeSpr n v).console = s.console := by cases n <;> rfl
@[simp] theorem State.storeSpr_status : (s.storeSpr n v).status = s.status := by cases n <;> rfl
@[simp] theorem State.storeSpr_outcome : (s.storeSpr n v).outcome = s.outcome := by cases n <;> rfl

/-- A stored special register reads back (R30). -/
@[simp] theorem State.readSpr_storeSpr_same : (s.storeSpr n v).readSpr n = v := by cases n <;> rfl

/-- The other special registers keep their words. -/
theorem State.readSpr_storeSpr_other {n m : SpecialReg} (h : m ≠ n) :
    (s.storeSpr n v).readSpr m = s.readSpr m := by
  cases n <;> cases m <;> first | rfl | exact absurd rfl h

end

/-! ## `tick`: only COUNTER, TP and INT change -/

section
variable (s : State)

theorem State.tick_eq :
    s.tick = { s with counter := s.tick.counter, tp := s.tick.tp, int := s.tick.int } := by
  unfold State.tick
  split
  · split <;> rfl
  · rfl

@[simp] theorem State.tick_mem : s.tick.mem = s.mem := by rw [State.tick_eq]
@[simp] theorem State.tick_ip : s.tick.ip = s.ip := by rw [State.tick_eq]
@[simp] theorem State.tick_flags : s.tick.flags = s.flags := by rw [State.tick_eq]
@[simp] theorem State.tick_cpl : s.tick.cpl = s.cpl := by rw [State.tick_eq]
@[simp] theorem State.tick_inVM : s.tick.inVM = s.inVM := by rw [State.tick_eq]
@[simp] theorem State.tick_vmID : s.tick.vmID = s.vmID := by rw [State.tick_eq]
@[simp] theorem State.tick_ie : s.tick.ie = s.ie := by rw [State.tick_eq]
@[simp] theorem State.tick_segtbl : s.tick.segtbl = s.segtbl := by rw [State.tick_eq]
@[simp] theorem State.tick_vmtbl : s.tick.vmtbl = s.vmtbl := by rw [State.tick_eq]
@[simp] theorem State.tick_cs : s.tick.cs = s.cs := by rw [State.tick_eq]
@[simp] theorem State.tick_ds : s.tick.ds = s.ds := by rw [State.tick_eq]
@[simp] theorem State.tick_es : s.tick.es = s.es := by rw [State.tick_eq]
@[simp] theorem State.tick_rs : s.tick.rs = s.rs := by rw [State.tick_eq]
@[simp] theorem State.tick_ss : s.tick.ss = s.ss := by rw [State.tick_eq]
@[simp] theorem State.tick_compare : s.tick.compare = s.compare := by rw [State.tick_eq]
@[simp] theorem State.tick_segInstalled : s.tick.segInstalled = s.segInstalled := by rw [State.tick_eq]
@[simp] theorem State.tick_segTable : s.tick.segTable = s.segTable := by rw [State.tick_eq]
@[simp] theorem State.tick_vmInstalled : s.tick.vmInstalled = s.vmInstalled := by rw [State.tick_eq]
@[simp] theorem State.tick_vmTable : s.tick.vmTable = s.vmTable := by rw [State.tick_eq]
@[simp] theorem State.tick_console : s.tick.console = s.console := by rw [State.tick_eq]
@[simp] theorem State.tick_status : s.tick.status = s.status := by rw [State.tick_eq]
@[simp] theorem State.tick_outcome : s.tick.outcome = s.outcome := by rw [State.tick_eq]

end

/-! ## Memory reads after memory writes -/

section
variable (s : State)

@[simp] theorem State.memRead_memWrite_same (pa v : Word) : (s.memWrite pa v).memRead pa = v :=
  Memory.read_write_same _ _ _

theorem State.memRead_memWrite_other {pa qa : Word} (v : Word) (h : qa ≠ pa) :
    (s.memWrite pa v).memRead qa = s.memRead qa :=
  Memory.read_write_other _ _ fun e => h (BitVec.eq_of_toNat_eq e)

theorem State.memRead_memWrite (pa qa v : Word) :
    (s.memWrite pa v).memRead qa = if qa = pa then v else s.memRead qa := by
  split
  next h => rw [h, State.memRead_memWrite_same]
  next h => exact s.memRead_memWrite_other v h

/-- A word outside the written addresses keeps its value. -/
theorem State.memRead_writeAll_other (l : List (Word × Word)) {qa : Word}
    (h : ∀ c ∈ l, qa ≠ c.1) : (s.writeAll l).memRead qa = s.memRead qa := by
  induction l generalizing s with
  | nil => rfl
  | cons c l ih =>
    obtain ⟨pa, v⟩ := c
    rw [State.writeAll, ih _ fun c hc => h c (by simp [hc]),
      s.memRead_memWrite_other v (h (pa, v) (by simp))]

@[simp] theorem State.memRead_jump (target : Word) (qa : Word) : (s.jump target).memRead qa = s.memRead qa := rfl
@[simp] theorem State.memRead_continues (qa : Word) : (s.continues).memRead qa = s.memRead qa := rfl
@[simp] theorem State.memRead_stops (qa : Word) : (s.stops).memRead qa = s.memRead qa := rfl
@[simp] theorem State.memRead_die (r : FatalReason) (qa : Word) : (s.die r).memRead qa = s.memRead qa := rfl
@[simp] theorem State.memRead_leaveGuest (qa : Word) : (s.leaveGuest).memRead qa = s.memRead qa := rfl
@[simp] theorem State.memRead_enterGuest (id : Word) (qa : Word) : (s.enterGuest id).memRead qa = s.memRead qa := rfl
@[simp] theorem State.memRead_loadContext (d : VmDescriptor) (qa : Word) : (s.loadContext d).memRead qa = s.memRead qa := rfl
@[simp] theorem State.memRead_consoleOut (b : Byte) (qa : Word) : (s.consoleOut b).memRead qa = s.memRead qa := rfl
@[simp] theorem State.memRead_setIe (b : Bool) (qa : Word) : (s.setIe b).memRead qa = s.memRead qa := rfl
@[simp] theorem State.memRead_compareFlags (a b : Word) (qa : Word) : (s.compareFlags a b).memRead qa = s.memRead qa := rfl

end

end Sys2Proof.Machine
end

