-- ==== Sys2Proof/Laws/Ops.lean ====
section
/-! SUPPORT. For each shared operation, what it can do, said once: where it succeeds and with what,
what it fails with, and what it leaves alone. Proofs cite these and unfold nothing. -/

namespace Sys2Proof.Machine

/-! ## Effects -/

/-- The state an effect leaves, completed or not. -/
def Eff.state : Eff → State
  | .done s => s
  | .fatal _ s => s

@[simp] theorem Eff.state_done (s : State) : (Eff.done s).state = s := rfl
@[simp] theorem Eff.state_fatal (r : FatalReason) (s : State) : (Eff.fatal r s).state = s := rfl
@[simp] theorem Eff.andThen_done (s : State) (f : State → Eff) : (Eff.done s).andThen f = f s := rfl
@[simp] theorem Eff.andThen_fatal (r : FatalReason) (s : State) (f : State → Eff) :
    (Eff.fatal r s).andThen f = .fatal r s := rfl
@[simp] theorem Eff.toOutcome_done (s : State) : (Eff.done s).toOutcome = .next s.continues := rfl
@[simp] theorem Eff.toOutcome_fatal (r : FatalReason) (s : State) :
    (Eff.fatal r s).toOutcome = .next (s.die r) := rfl

theorem Eff.andThen_eq_done {e : Eff} {f : State → Eff} {t : State} (h : e.andThen f = .done t) :
    ∃ m, e = .done m ∧ f m = .done t := by
  cases e with
  | done m => exact ⟨m, rfl, h⟩
  | fatal r m => cases h

theorem Eff.andThen_eq_fatal {e : Eff} {f : State → Eff} {r : FatalReason} {t : State}
    (h : e.andThen f = .fatal r t) : e = .fatal r t ∨ ∃ m, e = .done m ∧ f m = .fatal r t := by
  cases e with
  | done m => exact .inr ⟨m, rfl, h⟩
  | fatal r' m => exact .inl h

/-- A step that ends by an effect ends `Continue` or in its fatal error, never `Stop`. -/
theorem Eff.toOutcome_cases (e : Eff) :
    (∃ t, e = .done t ∧ e.toOutcome = .next t.continues) ∨
    ∃ r t, e = .fatal r t ∧ e.toOutcome = .next (t.die r) := by
  cases e with
  | done t => exact .inl ⟨t, rfl, rfl⟩
  | fatal r t => exact .inr ⟨r, t, rfl, rfl⟩

/-! ## The translator (R70) -/

/-- A translation depends on the installed table and the role's selector alone. -/
theorem translate_congr {s t : State} (role : Role) (off : Word)
    (hi : t.segInstalled = s.segInstalled) (ht : t.segTable = s.segTable)
    (hs : t.selector role = s.selector role) : translate role off t = translate role off s := by
  simp only [translate, hi, ht, hs]

theorem translate_flat {s : State} (role : Role) (off : Word) (h : s.segInstalled = false) :
    translate role off s =
      .ok (if role = .register then Config.flatRegisterBase + off else off) := by
  cases role <;> simp [translate, h]

theorem translate_ok {role : Role} {off pa : Word} {s : State} (h : translate role off s = .ok pa) :
    (s.segInstalled = false ∧
      pa = if role = .register then Config.flatRegisterBase + off else off) ∨
    (s.segInstalled = true ∧ ∃ d, s.segTable[(s.selector role).toNat]? = some d ∧
      d.kind = role.kind ∧ d.start ≤ d.limit ∧ off ≤ d.limit - d.start ∧ pa = d.start + off) := by
  cases hi : s.segInstalled with
  | false =>
    rw [translate_flat role off hi] at h
    exact .inl ⟨rfl, (Except.ok.inj h).symm⟩
  | true =>
    refine .inr ⟨rfl, ?_⟩
    simp only [translate, hi, if_true] at h
    split at h
    next => cases h
    next d hd =>
      split at h
      · cases h
      · split at h
        · cases h
        · split at h
          · cases h
          · next hk hl ho =>
            exact ⟨d, hd, by simpa using hk, BitVec.not_lt.1 hl, BitVec.not_lt.1 ho,
              (Except.ok.inj h).symm⟩

theorem translate_seg {role : Role} {off : Word} {s : State} {d : SegDescriptor}
    (hi : s.segInstalled = true) (hd : s.segTable[(s.selector role).toNat]? = some d)
    (hk : d.kind = role.kind) (hl : d.start ≤ d.limit) (ho : off ≤ d.limit - d.start) :
    translate role off s = .ok (d.start + off) := by
  simp [translate, hi, hd, hk, BitVec.not_lt.2 hl, BitVec.not_lt.2 ho]

/-- A failed translation carries the role's kind and the offset (R72); flat mode never fails (R73). -/
theorem translate_error {role : Role} {off : Word} {s : State} {v : SegViol}
    (h : translate role off s = .error v) : s.segInstalled = true ∧ v = ⟨role.kind, off⟩ := by
  cases hi : s.segInstalled with
  | false => rw [translate_flat role off hi] at h; cases h
  | true =>
    refine ⟨rfl, ?_⟩
    simp only [translate, hi, if_true] at h
    split at h
    next => exact (Except.error.inj h).symm
    next d hd =>
      split at h
      · exact (Except.error.inj h).symm
      · split at h
        · exact (Except.error.inj h).symm
        · split at h
          · exact (Except.error.inj h).symm
          · cases h

/-- Two offsets of one role never share a physical word. -/
theorem translate_inj {role : Role} {a b pa : Word} {s : State} (ha : translate role a s = .ok pa)
    (hb : translate role b s = .ok pa) : a = b := by
  rcases translate_ok ha with ⟨hi, ha⟩ | ⟨hi, d, hd, -, -, -, ha⟩ <;>
    rcases translate_ok hb with ⟨hi', hb⟩ | ⟨hi', d', hd', -, -, -, hb⟩
  · split at ha
    next hr => rw [if_pos hr] at hb; exact (BitVec.add_right_inj _).1 (ha.symm.trans hb)
    next hr => rw [if_neg hr] at hb; exact ha.symm.trans hb
  · rw [hi] at hi'; cases hi'
  · rw [hi] at hi'; cases hi'
  · rw [hd] at hd'
    cases hd'
    exact (BitVec.add_right_inj _).1 (ha.symm.trans hb)

/-- With a segment table installed, a translated word of a role but Code lies in that role's segment. -/
theorem reachable_of_translate {role : Role} {off pa : Word} {s : State}
    (h : translate role off s = .ok pa) (hi : s.segInstalled = true) (hr : role ≠ .code) :
    Reachable s pa := by
  rcases translate_ok h with ⟨hf, -⟩ | ⟨-, d, hd, hk, hl, ho, rfl⟩
  · rw [hi] at hf; cases hf
  · refine ⟨role, d, hr, hd, hk, ?_, ?_⟩ <;>
      rw [BitVec.le_def] at * <;>
      rw [BitVec.toNat_sub_of_le (BitVec.le_def.2 hl)] at ho <;>
      rw [BitVec.toNat_add, Nat.mod_eq_of_lt (by have := d.limit.isLt; omega)] <;> omega

section
variable (role : Role) (off : Word) (s : State)

@[simp] theorem translate_memWrite (pa v : Word) :
    translate role off (s.memWrite pa v) = translate role off s := by
  apply translate_congr <;> cases role <;> rfl
@[simp] theorem translate_writeAll (l : List (Word × Word)) :
    translate role off (s.writeAll l) = translate role off s := by
  apply translate_congr <;> first | simp | (cases role <;> simp [State.selector])
@[simp] theorem translate_jump (ip : Word) :
    translate role off (s.jump ip) = translate role off s := by
  apply translate_congr <;> cases role <;> rfl
@[simp] theorem translate_leaveGuest :
    translate role off s.leaveGuest = translate role off s := by
  apply translate_congr <;> cases role <;> rfl
@[simp] theorem translate_withMem (m : Memory) :
    translate role off { s with mem := m } = translate role off s := by
  apply translate_congr <;> cases role <;> rfl

end

/-! ## Registers (R21) -/

@[simp] theorem regAddr_memWrite (i : RegIdx) (s : State) (pa v : Word) :
    regAddr i (s.memWrite pa v) = regAddr i s := translate_memWrite _ _ _ _ _
@[simp] theorem regAddr_jump (i : RegIdx) (s : State) (ip : Word) :
    regAddr i (s.jump ip) = regAddr i s := translate_jump _ _ _ _
@[simp] theorem regAddr_leaveGuest (i : RegIdx) (s : State) :
    regAddr i s.leaveGuest = regAddr i s := translate_leaveGuest _ _ _
@[simp] theorem regAddr_withMem (i : RegIdx) (s : State) (m : Memory) :
    regAddr i { s with mem := m } = regAddr i s := translate_withMem _ _ _ _

theorem regAddr_error {i : RegIdx} {s : State} {v : SegViol} (h : regAddr i s = .error v) :
    v = ⟨.register, BitVec.ofNat 32 i.val⟩ := (translate_error h).2

theorem readReg_ok {i : RegIdx} {s : State} {v : Word} (h : readReg i s = .ok v) :
    ∃ pa, regAddr i s = .ok pa ∧ v = s.memRead pa := by
  unfold readReg at h
  split at h
  next => cases h
  next pa hpa => exact ⟨pa, hpa, (Except.ok.inj h).symm⟩

theorem readReg_of_regAddr {i : RegIdx} {s : State} {pa : Word} (h : regAddr i s = .ok pa) :
    readReg i s = .ok (s.memRead pa) := by simp [readReg, h]

theorem readReg_error {i : RegIdx} {s : State} {v : SegViol} (h : readReg i s = .error v) :
    regAddr i s = .error v := by
  unfold readReg at h
  split at h
  next e he => rw [he, Except.error.inj h]
  next => cases h

theorem readReg_of_error {i : RegIdx} {s : State} {v : SegViol} (h : regAddr i s = .error v) :
    readReg i s = .error v := by simp [readReg, h]

theorem writeReg_ok {i : RegIdx} {v : Word} {s t : State} (h : writeReg i v s = .ok t) :
    ∃ pa, regAddr i s = .ok pa ∧ t = s.memWrite pa v := by
  unfold writeReg at h
  split at h
  next => cases h
  next pa hpa => exact ⟨pa, hpa, (Except.ok.inj h).symm⟩

theorem writeReg_of_regAddr {i : RegIdx} {s : State} {pa : Word} (v : Word)
    (h : regAddr i s = .ok pa) : writeReg i v s = .ok (s.memWrite pa v) := by simp [writeReg, h]

theorem writeReg_of_error {i : RegIdx} {s : State} {e : SegViol} (v : Word)
    (h : regAddr i s = .error e) : writeReg i v s = .error e := by simp [writeReg, h]

/-! ## Where memory may change -/

/-- Every word that differs between `s` and `u` is one that some role but Code translates to in `s`,
and the canonical form of memory is kept. -/
def Confined (s u : State) : Prop :=
  (∀ pa, u.memRead pa ≠ s.memRead pa → ∃ role off, role ≠ .code ∧ translate role off s = .ok pa) ∧
    (s.mem.wf → u.mem.wf)

theorem Confined.refl (s : State) : Confined s s := ⟨fun _ h => absurd rfl h, id⟩

/-- One more write at a translated word keeps the change confined. -/
theorem Confined.memWrite {s u : State} (h : Confined s u) {role : Role} {off pa : Word} (v : Word)
    (hr : role ≠ .code) (ht : translate role off s = .ok pa) : Confined s (u.memWrite pa v) := by
  refine ⟨fun qa hq => ?_, fun hw => Memory.wf_write v (h.2 hw) (Nat.le_of_lt_succ pa.isLt)⟩
  rw [State.memRead_memWrite] at hq
  split at hq
  next e => exact ⟨role, off, hr, e ▸ ht⟩
  next => exact h.1 qa hq

theorem Confined.writeAll {s u : State} (h : Confined s u) (l : List (Word × Word))
    (hl : ∀ c ∈ l, ∃ off, translate .stack off s = .ok c.1) : Confined s (u.writeAll l) := by
  induction l generalizing u with
  | nil => exact h
  | cons c l ih =>
    obtain ⟨off, hoff⟩ := hl c (by simp)
    exact ih (h.memWrite c.2 (by simp) hoff) fun d hd => hl d (by simp [hd])

/-! ## The stack (R220) -/

theorem sub_one_sub_ofNat (sp : Word) (j : Nat) :
    sp - 1 - BitVec.ofNat 32 j = sp - BitVec.ofNat 32 (j + 1) := by
  rw [BitVec.ofNat_add, sub_sub, add_comm]
  rfl

/-- The check phase of a push: the j-th word goes where `sp - (j + 1)` translates to. -/
theorem pushSlots_ok {s : State} {sp : Word} {vs : List Word} {slots : List (Word × Word)}
    (h : pushSlots s sp vs = .ok slots) :
    slots.map Prod.snd = vs ∧ ∀ (j : Nat) (hj : j < slots.length),
      translate .stack (sp - BitVec.ofNat 32 (j + 1)) s = .ok slots[j].1 := by
  induction vs generalizing sp slots with
  | nil => cases h; simp
  | cons v vs ih =>
    simp only [pushSlots] at h
    split at h
    next => cases h
    next pa hpa =>
      split at h
      next => cases h
      next rest hrest =>
        cases h
        obtain ⟨hs, ht⟩ := ih hrest
        refine ⟨by simp [hs], fun j hj => ?_⟩
        cases j with
        | zero => simpa using hpa
        | succ j =>
          have := ht j (by simpa using hj)
          rw [sub_one_sub_ofNat] at this
          simpa using this

theorem pushSlots_error {s : State} {sp : Word} {vs : List Word} {v : SegViol}
    (h : pushSlots s sp vs = .error v) :
    ∃ j, j < vs.length ∧ translate .stack (sp - BitVec.ofNat 32 (j + 1)) s = .error v := by
  induction vs generalizing sp with
  | nil => cases h
  | cons w vs ih =>
    simp only [pushSlots] at h
    split at h
    next e he =>
      cases h
      exact ⟨0, by simp, by simpa using he⟩
    next pa hpa =>
      split at h
      next e he =>
        cases h
        obtain ⟨j, hj, ht⟩ := ih he
        refine ⟨j + 1, by simpa using hj, ?_⟩
        rw [← ht, sub_one_sub_ofNat]
      next => cases h

theorem push_ok {vs : List Word} {s t : State} (h : push vs s = .ok t) :
    ∃ spAddr slots, regAddr 30 s = .ok spAddr ∧ pushSlots s (s.memRead spAddr) vs = .ok slots ∧
      t = (s.writeAll slots).memWrite spAddr
        (s.memRead spAddr - BitVec.ofNat 32 vs.length) := by
  unfold push at h
  split at h
  next => cases h
  next spAddr hsp =>
    split at h
    next => cases h
    next slots hslots => exact ⟨spAddr, slots, hsp, hslots, (Except.ok.inj h).symm⟩

theorem push_error {vs : List Word} {s : State} {v : SegViol} (h : push vs s = .error v) :
    regAddr 30 s = .error v ∨ ∃ spAddr, regAddr 30 s = .ok spAddr ∧
      pushSlots s (s.memRead spAddr) vs = .error v := by
  unfold push at h
  split at h
  next e he => exact .inl (he.trans (congrArg _ (Except.error.inj h)))
  next spAddr hsp =>
    split at h
    next e he => exact .inr ⟨spAddr, hsp, he.trans (congrArg _ (Except.error.inj h))⟩
    next => cases h

/-- A push of one word. -/
theorem push_one {s : State} {spAddr pa : Word} (v : Word) (hsp : regAddr 30 s = .ok spAddr)
    (hpa : translate .stack (s.memRead spAddr - 1) s = .ok pa) :
    push [v] s = .ok ((s.memWrite pa v).memWrite spAddr (s.memRead spAddr - 1)) := by
  have hsp' : regAddr Config.SP_INDEX s = .ok spAddr := hsp
  simp only [push, hsp', pushSlots, hpa, State.writeAll, List.length_singleton]
  rfl

/-- A push changes memory alone, and only words its roles translate to. -/
theorem push_frame {vs : List Word} {s t : State} (h : push vs s = .ok t) :
    t = { s with mem := t.mem } ∧ Confined s t := by
  obtain ⟨spAddr, slots, hsp, hslots, rfl⟩ := push_ok h
  refine ⟨?_, ?_⟩
  · rw [State.memWrite, State.writeAll_eq]
  · refine Confined.memWrite (Confined.writeAll (Confined.refl s) slots fun c hc => ?_) _
      (by simp) hsp
    obtain ⟨j, hj, rfl⟩ := List.getElem_of_mem hc
    exact ⟨_, (pushSlots_ok hslots).2 j hj⟩

theorem pop_ok {s t : State} {v : Word} (h : pop s = .ok (v, t)) :
    ∃ spAddr pa, regAddr 30 s = .ok spAddr ∧ translate .stack (s.memRead spAddr) s = .ok pa ∧
      v = s.memRead pa ∧ t = s.memWrite spAddr (s.memRead spAddr + 1) := by
  unfold pop at h
  split at h
  next => cases h
  next spAddr hsp =>
    split at h
    next => cases h
    next pa hpa => cases h; exact ⟨spAddr, pa, hsp, hpa, rfl, rfl⟩

theorem pop_eq {s : State} {spAddr pa : Word} (hsp : regAddr 30 s = .ok spAddr)
    (hpa : translate .stack (s.memRead spAddr) s = .ok pa) :
    pop s = .ok (s.memRead pa, s.memWrite spAddr (s.memRead spAddr + 1)) := by
  have hsp' : regAddr Config.SP_INDEX s = .ok spAddr := hsp
  simp [pop, hsp', hpa]

theorem pop_frame {s t : State} {v : Word} (h : pop s = .ok (v, t)) :
    t = { s with mem := t.mem } ∧ Confined s t := by
  obtain ⟨spAddr, pa, hsp, -, -, rfl⟩ := pop_ok h
  exact ⟨rfl, (Confined.refl s).memWrite _ (by simp) hsp⟩

/-! ## Special registers and tables (R30 to R32, R80, R85) -/

theorem installSegTable_done {s t : State} (h : installSegTable s = .done t) :
    ∃ rows, parseSegTable s.mem s.segtbl = .ok rows ∧
      t = { s with segTable := rows, segInstalled := true } := by
  unfold installSegTable at h
  split at h
  next => cases h
  next rows hr => cases h; exact ⟨rows, hr, rfl⟩

theorem installVmTable_done {s t : State} (h : installVmTable s = .done t) :
    ∃ rows, parseVmTable s.mem s.vmtbl = .ok rows ∧
      t = { s with vmTable := rows, vmInstalled := true } := by
  unfold installVmTable at h
  split at h
  next => cases h
  next rows hr => cases h; exact ⟨rows, hr, rfl⟩

theorem installSegTable_fatal {r : FatalReason} {s t : State} (h : installSegTable s = .fatal r t) :
    t = s ∧ parseSegTable s.mem s.segtbl = .error r := by
  unfold installSegTable at h
  split at h
  next r' hr => cases h; exact ⟨rfl, hr⟩
  next => cases h

theorem installVmTable_fatal {r : FatalReason} {s t : State} (h : installVmTable s = .fatal r t) :
    t = s ∧ parseVmTable s.mem s.vmtbl = .error r := by
  unfold installVmTable at h
  split at h
  next r' hr => cases h; exact ⟨rfl, hr⟩
  next => cases h

/-- A special-register write changes special registers and parsed tables alone. -/
theorem writeSpr_frame (n : SpecialReg) (v : Word) (s : State) :
    ∃ t, (writeSpr n v s).state = t ∧ t = { s with
      segtbl := t.segtbl, vmtbl := t.vmtbl, cs := t.cs, ds := t.ds, es := t.es, rs := t.rs,
      ss := t.ss, counter := t.counter, compare := t.compare, int := t.int,
      segInstalled := t.segInstalled, segTable := t.segTable, vmInstalled := t.vmInstalled,
      vmTable := t.vmTable } := by
  refine ⟨_, rfl, ?_⟩
  cases n <;> simp only [writeSpr]
  case segtbl => unfold installSegTable; split <;> rfl
  case vmtbl => unfold installVmTable; split <;> rfl
  all_goals rfl

/-! ## Physical writes and the context switcher (R330, R331) -/

theorem writePhys_ok {s t : State} {a v : Nat} (h : s.writePhys a v = .ok t) :
    a ≤ wordMax ∧ v ≤ wordMax ∧ t = { s with mem := s.mem.write a (BitVec.ofNat 32 v) } := by
  unfold State.writePhys at h
  split at h
  next ha =>
    split at h
    next hv => exact ⟨ha, hv, (Except.ok.inj h).symm⟩
    next => cases h
  next => cases h

theorem writePhys_word (s : State) {a : Nat} (w : Word) (ha : a ≤ wordMax) :
    s.writePhys a w.toNat = .ok { s with mem := s.mem.write a w } := by
  have hw : w.toNat ≤ wordMax := Nat.le_of_lt_succ w.isLt
  simp [State.writePhys, ha, hw]

theorem writeRow_frame (s : State) (a : Nat) (ws : List Word) :
    (s.writeRow a ws).state = { s with mem := (s.writeRow a ws).state.mem } := by
  induction ws generalizing s a with
  | nil => rfl
  | cons w ws ih =>
    simp only [State.writeRow]
    split
    next s' h => obtain ⟨-, -, rfl⟩ := writePhys_ok h; rw [ih]
    next => rfl

/-- A row written whole lies inside the address space, reads back word for word, and every other
word keeps its value. -/
theorem writeRow_done {s t : State} {a : Nat} {ws : List Word} (h : s.writeRow a ws = .done t) :
    (ws ≠ [] → a + ws.length ≤ wordMax + 1) ∧ t = { s with mem := t.mem } ∧
    (∀ (j : Nat) (hj : j < ws.length), t.mem.read (a + j) = ws[j]) ∧
    ∀ b, b < a ∨ a + ws.length ≤ b → t.mem.read b = s.mem.read b := by
  refine ⟨?_, by simpa [h] using writeRow_frame s a ws, ?_⟩
  · induction ws generalizing s a with
    | nil => simp
    | cons w ws ih =>
      intro _
      simp only [State.writeRow] at h
      split at h
      next s' hs =>
        obtain ⟨ha, -, -⟩ := writePhys_ok hs
        by_cases hn : ws = []
        · subst hn; simpa using Nat.succ_le_succ ha
        · have := ih h hn; simp; omega
      next => cases h
  · induction ws generalizing s a with
    | nil => cases h; simp
    | cons w ws ih =>
      simp only [State.writeRow] at h
      split at h
      next s' hs =>
        obtain ⟨-, -, rfl⟩ := writePhys_ok hs
        obtain ⟨hread, hother⟩ := ih h
        refine ⟨fun j hj => ?_, fun b hb => ?_⟩
        · cases j with
          | zero =>
            rw [hother _ (.inl (by omega))]
            simp
          | succ j =>
            have := hread j (by simpa using hj)
            rw [show a + (j + 1) = a + 1 + j by omega, this]
            simp
        · have hb' : b < a + 1 ∨ a + 1 + ws.length ≤ b := by
            rcases hb with hb | hb
            · exact .inl (by omega)
            · exact .inr (by simp at hb; omega)
          rw [hother b hb']
          refine Memory.read_write_other _ _ ?_
          rcases hb with hb | hb
          · omega
          · simp at hb; omega
      next => cases h

/-- A row inside the address space is written whole. -/
theorem writeRow_total (s : State) (a : Nat) (ws : List Word) (h : a + ws.length ≤ wordMax + 1) :
    ∃ t, s.writeRow a ws = .done t := by
  induction ws generalizing s a with
  | nil => exact ⟨s, rfl⟩
  | cons w ws ih =>
    simp only [List.length_cons] at h
    simp only [State.writeRow, writePhys_word s w (show a ≤ wordMax by omega)]
    exact ih _ _ (by omega)

/-- A row that runs past the address space is fatal, whatever it had written. -/
theorem writeRow_beyond (s : State) (a : Nat) (ws : List Word) (h : wordMax + 1 < a + ws.length)
    (hn : ws ≠ []) : ∃ t, s.writeRow a ws = .fatal .addressOutOfBounds t := by
  induction ws generalizing s a with
  | nil => exact absurd rfl hn
  | cons w ws ih =>
    simp only [List.length_cons] at h
    by_cases ha : a ≤ wordMax
    · simp only [State.writeRow, writePhys_word s w ha]
      refine ih _ _ (by omega) ?_
      rintro rfl
      simp at h
      omega
    · exact ⟨s, by simp [State.writeRow, State.writePhys, ha]⟩

theorem saveSlot_done {k : Nat} {s t : State} (h : saveSlot k s = .done t) :
    ∃ sp w, readReg 30 s = .ok sp ∧
      s.writeRow (s.vmtbl.toNat + 9 * k) (s.context sp).words = .done w ∧
      parseVmTable w.mem s.vmtbl = .ok t.vmTable ∧
      t = { s with mem := w.mem, vmTable := t.vmTable, vmInstalled := true } := by
  unfold saveSlot at h
  split at h
  · cases h
  · split at h
    next => cases h
    next sp hsp =>
      obtain ⟨w, hw, hi⟩ := Eff.andThen_eq_done h
      obtain ⟨rows, hr, rfl⟩ := installVmTable_done hi
      have hf : w = { s with mem := w.mem } := by
        simpa [hw] using writeRow_frame s (s.vmtbl.toNat + 9 * k) (s.context sp).words
      refine ⟨sp, w, hsp, hw, ?_, ?_⟩
      · rw [hf] at hr; exact hr
      · rw [hf]

/-- SaveSlot changes memory and the VM table's snapshot alone, even where it is fatal. -/
theorem saveSlot_frame (k : Nat) (s : State) : ∃ t, (saveSlot k s).state = t ∧
    t = { s with mem := t.mem, vmTable := t.vmTable, vmInstalled := t.vmInstalled } ∧
    (t.vmInstalled = s.vmInstalled ∧ t.vmTable = s.vmTable ∨ t.vmInstalled = true) := by
  refine ⟨_, rfl, ?_⟩
  unfold saveSlot
  split
  · exact ⟨rfl, .inl ⟨rfl, rfl⟩⟩
  · split
    next => exact ⟨rfl, .inl ⟨rfl, rfl⟩⟩
    next sp hsp =>
      have hf := writeRow_frame s (s.vmtbl.toNat + 9 * k) (s.context sp).words
      cases hw : s.writeRow (s.vmtbl.toNat + 9 * k) (s.context sp).words with
      | fatal r w =>
        rw [hw, Eff.state_fatal] at hf
        rw [Eff.andThen_fatal, Eff.state_fatal]
        exact ⟨by rw [hf], .inl ⟨by rw [hf], by rw [hf]⟩⟩
      | done w =>
        rw [hw, Eff.state_done] at hf
        rw [Eff.andThen_done]
        unfold installVmTable
        split
        next => exact ⟨by rw [Eff.state_fatal, hf], .inl ⟨by rw [Eff.state_fatal, hf],
          by rw [Eff.state_fatal, hf]⟩⟩
        next => exact ⟨by rw [Eff.state_done, hf], .inr rfl⟩

theorem loadSlot_done {k : Nat} {s t : State} (h : loadSlot k s = .done t) :
    ∃ d spAddr, s.vmTable[k]? = some d ∧ regAddr 30 (s.loadContext d) = .ok spAddr ∧
      t = (s.loadContext d).memWrite spAddr d.sp := by
  unfold loadSlot at h
  split at h
  next => cases h
  next d hd =>
    split at h
    next => cases h
    next s' hs =>
      cases h
      obtain ⟨pa, hpa, rfl⟩ := writeReg_ok hs
      exact ⟨d, pa, hd, hpa, rfl⟩

/-- LoadSlot changes memory and the live context alone, even where it is fatal. -/
theorem loadSlot_frame (k : Nat) (s : State) : ∃ t, (loadSlot k s).state = t ∧ t = { s with
    mem := t.mem, cs := t.cs, ds := t.ds, es := t.es, ss := t.ss, rs := t.rs, ip := t.ip,
    flags := t.flags, cpl := t.cpl } := by
  refine ⟨_, rfl, ?_⟩
  unfold loadSlot
  split
  next => rfl
  next d hd =>
    split
    next => rfl
    next s' hs => obtain ⟨pa, -, rfl⟩ := writeReg_ok hs; rfl

/-! ## Delivery (R310 to R322) -/

theorem pushFrame_done {ws : List Word} {s t : State} (h : pushFrame ws s = .done t) :
    push ws s = .ok t := by
  unfold pushFrame at h
  split at h
  next => cases h
  next s' hs => cases h; exact hs

theorem pushFrame_fatal {ws : List Word} {s t : State} {r : FatalReason}
    (h : pushFrame ws s = .fatal r t) : r = .doubleFault ∧ t = s := by
  unfold pushFrame at h
  split at h
  next => cases h; exact ⟨rfl, rfl⟩
  next => cases h

/-- What differs between two states of a context switch: everything else is the same (R333). -/
def SwitchFrame (s t : State) : Prop :=
  t = { s with
    mem := t.mem, cs := t.cs, ds := t.ds, es := t.es, ss := t.ss, rs := t.rs, ip := t.ip,
    flags := t.flags, cpl := t.cpl, inVM := t.inVM, vmID := t.vmID, vmTable := t.vmTable,
    vmInstalled := t.vmInstalled }

theorem SwitchFrame.trans {s t u : State} (h : SwitchFrame s t) (h' : SwitchFrame t u) :
    SwitchFrame s u := by
  unfold SwitchFrame at *
  rw [h'] ; rw [h]

theorem SwitchFrame.mk' {s t : State} (h : t = { s with
    mem := t.mem, cs := t.cs, ds := t.ds, es := t.es, ss := t.ss, rs := t.rs, ip := t.ip,
    flags := t.flags, cpl := t.cpl, inVM := t.inVM, vmID := t.vmID, vmTable := t.vmTable,
    vmInstalled := t.vmInstalled }) : SwitchFrame s t := h

/-- Where a VM-exit completes: the guest is saved, slot 0 is loaded, and the frame is pushed. -/
theorem vmExit_done {reason : Word} {extra : List Word} {s t : State}
    (h : vmExit reason extra s = .done t) :
    ∃ m g, saveSlot s.vmID.toNat s = .done m ∧ loadSlot 0 m = .done g ∧
      push (extra ++ [reason, s.vmID]) g.leaveGuest = .ok t := by
  obtain ⟨g, hg, hp⟩ := Eff.andThen_eq_done h
  obtain ⟨m, hm, hl⟩ := Eff.andThen_eq_done hg
  exact ⟨m, g, hm, hl, pushFrame_done hp⟩

theorem vmExit_frame (reason : Word) (extra : List Word) (s : State) :
    ∃ t, (vmExit reason extra s).state = t ∧ SwitchFrame s t ∧
      (t.vmInstalled = s.vmInstalled ∧ t.vmTable = s.vmTable ∨ t.vmInstalled = true) ∧
      (t.inVM = s.inVM ∧ t.vmID = s.vmID ∨ t.inVM = false ∧ t.vmID = 0) := by
  refine ⟨_, rfl, ?_⟩
  obtain ⟨m, hm, hmf, hmv⟩ := saveSlot_frame s.vmID.toNat s
  unfold vmExit
  cases hs : saveSlot s.vmID.toNat s with
  | fatal r m' =>
    rw [hs] at hm
    change m' = m at hm
    subst hm
    simp only [Eff.andThen_fatal, Eff.state_fatal]
    exact ⟨by rw [SwitchFrame, hmf], hmv, .inl ⟨by rw [hmf], by rw [hmf]⟩⟩
  | done m' =>
    rw [hs] at hm
    change m' = m at hm
    subst hm
    obtain ⟨g, hg, hgf⟩ := loadSlot_frame 0 m'
    rw [Eff.andThen_done]
    have hv : (g.vmInstalled = s.vmInstalled ∧ g.vmTable = s.vmTable ∨ g.vmInstalled = true) := by
      rw [hgf]; exact hmv
    cases hl : loadSlot 0 m' with
    | fatal r g' =>
      rw [hl] at hg
      change g' = g at hg
      subst hg
      simp only [Eff.andThen_fatal, Eff.state_fatal]
      exact ⟨by rw [SwitchFrame, hgf, hmf], hv, .inl ⟨by rw [hgf, hmf], by rw [hgf, hmf]⟩⟩
    | done g' =>
      rw [hl] at hg
      change g' = g at hg
      subst hg
      rw [Eff.andThen_done]
      cases hp : pushFrame (extra ++ [reason, s.vmID]) g'.leaveGuest with
      | fatal r u =>
        obtain ⟨-, rfl⟩ := pushFrame_fatal hp
        exact ⟨by rw [SwitchFrame, Eff.state_fatal, State.leaveGuest, hgf, hmf], hv,
          .inr ⟨rfl, rfl⟩⟩
      | done u =>
        have hu := (push_frame (pushFrame_done hp)).1
        rw [Eff.state_done]
        exact ⟨by rw [SwitchFrame, hu, State.leaveGuest, hgf, hmf], by rw [hu]; exact hv,
          .inr ⟨by rw [hu]; rfl, by rw [hu]; rfl⟩⟩

/-- A VM-exit that completes leaves guest mode. -/
theorem vmExit_leaves {reason : Word} {extra : List Word} {s t : State}
    (h : vmExit reason extra s = .done t) :
    t.inVM = false ∧ t.vmID = 0 ∧ t.vmInstalled = true := by
  obtain ⟨m, g, hm, hg, hp⟩ := vmExit_done h
  obtain ⟨sp, w, -, -, -, hm'⟩ := saveSlot_done hm
  obtain ⟨d, spAddr, -, -, rfl⟩ := loadSlot_done hg
  rw [(push_frame hp).1]
  exact ⟨rfl, rfl, by rw [hm']; rfl⟩

/-- Where a host-mode delivery completes: the frame is pushed and IP is at the vector (R311). -/
theorem deliverInterrupt_host_done {n ret : Word} {extra : List Word} {s t : State}
    (h : deliverInterrupt n ret extra s = .done t) (hv : s.inVM = false) :
    ∃ p, push (extra ++ [ret]) s = .ok p ∧ t = p.jump (vectorEntry n) := by
  unfold deliverInterrupt at h
  rw [hv] at h
  split at h
  · cases h
  · obtain ⟨p, hp, ht⟩ := Eff.andThen_eq_done h
    cases ht
    exact ⟨p, pushFrame_done hp, rfl⟩

/-- What delivering any event can do: it is a context switch's frame or less. -/
theorem deliver_frame (ev : Event) (s : State) : ∃ t, (deliver ev s).state = t ∧
    SwitchFrame s t ∧
    (t.vmInstalled = s.vmInstalled ∧ t.vmTable = s.vmTable ∨ t.vmInstalled = true) ∧
    (t.inVM = s.inVM ∧ t.vmID = s.vmID ∨ t.inVM = false ∧ t.vmID = 0) := by
  have same : ∀ t : State, t = { s with mem := t.mem, ip := t.ip } → SwitchFrame s t ∧
      (t.vmInstalled = s.vmInstalled ∧ t.vmTable = s.vmTable ∨ t.vmInstalled = true) ∧
      (t.inVM = s.inVM ∧ t.vmID = s.vmID ∨ t.inVM = false ∧ t.vmID = 0) := by
    intro t ht
    rw [ht]
    exact ⟨rfl, .inl ⟨rfl, rfl⟩, .inl ⟨rfl, rfl⟩⟩
  refine ⟨_, rfl, ?_⟩
  cases ev with
  | fatal r => exact same s rfl
  | vmExit reason ip extra =>
    obtain ⟨t, ht, hf, hr⟩ := vmExit_frame reason extra (s.jump ip)
    simp only [deliver, ht]
    exact ⟨SwitchFrame.trans (t := s.jump ip) rfl hf, hr⟩
  | interrupt n ret extra =>
    simp only [deliver, deliverInterrupt]
    split
    · exact same s rfl
    · split
      · obtain ⟨t, ht, hf, hr⟩ := vmExit_frame Config.VMEXIT_INTERRUPT (extra ++ [n]) (s.jump ret)
        rw [ht]
        exact ⟨SwitchFrame.trans (t := s.jump ret) rfl hf, hr⟩
      · cases hp : pushFrame (extra ++ [ret]) s with
        | fatal r u => obtain ⟨-, rfl⟩ := pushFrame_fatal hp; exact same _ rfl
        | done u =>
          have hu := (push_frame (pushFrame_done hp)).1
          refine same (u.jump (vectorEntry n)) ?_
          rw [hu]
          rfl

/-- An event delivered in guest mode that does not end the run leaves guest mode. -/
theorem deliver_guest {ev : Event} {s t : State} (h : deliver ev s = .done t)
    (hv : s.inVM = true) : t.inVM = false ∧ t.vmID = 0 ∧ t.vmInstalled = true := by
  cases ev with
  | fatal r => cases h
  | vmExit reason ip extra => exact vmExit_leaves h
  | interrupt n ret extra =>
    simp only [deliver, deliverInterrupt, hv] at h
    split at h
    · cases h
    · exact vmExit_leaves h

/-- An interrupt delivered in host mode that does not end the run changes memory and IP alone. -/
theorem deliver_host_interrupt {n ret : Word} {extra : List Word} {s t : State}
    (h : deliver (.interrupt n ret extra) s = .done t) (hv : s.inVM = false) :
    t = { s with mem := t.mem, ip := t.ip } ∧ Confined s t := by
  obtain ⟨p, hp, rfl⟩ := deliverInterrupt_host_done h hv
  obtain ⟨hf, hc⟩ := push_frame hp
  refine ⟨?_, hc⟩
  rw [hf]
  rfl

end Sys2Proof.Machine
end

