-- ==== Sys2Proof/Laws/Cycle.lean ====
section
/-! SUPPORT. Stages 4 to 8 of the step: what operand resolution and writeback can do, and what the
`run` combinators come to, forwards (where everything resolves) and backwards (in general). -/

namespace Sys2Proof.Machine

/-! ## Privilege (R148) -/

theorem checkPriv_ok_iff (p : Byte) (s : State) :
    checkPriv p s = .ok () ↔ s.cpl ≤ p.zeroExtend 32 := by
  unfold checkPriv privViolation
  simp only [Config.PRIV_LITERAL, Bool.false_eq_true, if_false, decide_eq_true_eq]
  split
  next h => simpa using h
  next h => simpa using h

theorem checkPriv_violation {p : Byte} {s : State} (h : p.zeroExtend 32 < s.cpl) :
    checkPriv p s = .error (.interrupt 3 s.ip []) := by
  simp only [checkPriv, privViolation, Config.PRIV_LITERAL, Bool.false_eq_true, if_false, h,
    decide_true, if_true]
  rfl

/-! ## Resolution (R150) -/

theorem orSegViol_ok {α : Type} {s : State} {x : Except SegViol α} {a : α}
    (h : orSegViol s x = .ok a) : x = .ok a := by
  cases x with
  | ok b => cases h; rfl
  | error v => cases h

theorem orSegViol_error {α : Type} {s : State} {x : Except SegViol α} {ev : Event}
    (h : orSegViol s x = .error ev) : ∃ v, x = .error v ∧ ev = v.event s.ip := by
  cases x with
  | ok b => cases h
  | error v => exact ⟨v, rfl, (Except.error.inj h).symm⟩

@[simp] theorem orSegViol_of_ok {α : Type} (s : State) (a : α) :
    orSegViol s (.ok a : Except SegViol α) = .ok a := rfl
@[simp] theorem orSegViol_of_error {α : Type} (s : State) (v : SegViol) :
    orSegViol s (.error v : Except SegViol α) = .error (v.event s.ip) := rfl

theorem singleLocation_ok {seg : DataSeg} {base : Option RegIdx} {e : Nat} {s : State} {pa : Word}
    (h : singleLocation seg base e s = .ok pa) :
    ∃ off, translate (dataRole seg) off s = .ok pa := by
  unfold singleLocation at h
  split at h
  next => cases h
  next ea hea => exact ⟨ea, h⟩

theorem doubleLocation_ok {seg : DataSeg} {base : Option RegIdx} {e : Nat} {s : State} {pa : Word}
    (h : doubleLocation seg base e s = .ok pa) :
    ∃ off, translate (dataRole seg) off s = .ok pa := by
  unfold doubleLocation at h
  split at h
  next => cases h
  next p hp => exact ⟨_, h⟩

theorem dataRole_ne_code (seg : DataSeg) : dataRole seg ≠ .code := by cases seg <;> simp [dataRole]

/-- A target a resolution can record: none, a word some role but Code translates to, or, in host
mode, a special register. -/
inductive TargetOf (s : State) : Target → Prop where
  | none : TargetOf s .none
  | reg (role : Role) (off pa : Word) (hr : role ≠ .code) (ht : translate role off s = .ok pa) :
      TargetOf s (.reg pa)
  | mem (role : Role) (off pa : Word) (hr : role ≠ .code) (ht : translate role off s = .ok pa) :
      TargetOf s (.mem pa)
  | spr (n : SpecialReg) (hv : s.inVM = false) : TargetOf s (.spr n)

theorem resolve_target {o : Operand} {e : Nat} {s : State} {v : Word} {t : Target}
    (h : resolve o e s = .ok (v, t)) : TargetOf s t := by
  cases o with
  | imm =>
    simp only [resolve] at h
    split at h
    next => cases h
    next => cases h; exact .none
  | reg i =>
    simp only [resolve] at h
    split at h
    next => cases h
    next pa hpa => cases h; exact .reg .register _ _ (by simp) (orSegViol_ok hpa)
  | single seg base =>
    simp only [resolve] at h
    split at h
    next => cases h
    next pa hpa =>
      cases h
      obtain ⟨off, ho⟩ := singleLocation_ok (orSegViol_ok hpa)
      exact .mem _ off _ (dataRole_ne_code seg) ho
  | double seg base =>
    simp only [resolve] at h
    split at h
    next => cases h
    next pa hpa =>
      cases h
      obtain ⟨off, ho⟩ := doubleLocation_ok (orSegViol_ok hpa)
      exact .mem _ off _ (dataRole_ne_code seg) ho
  | special n =>
    simp only [resolve] at h
    split at h
    next => cases h
    next hv => cases h; exact .spr n (by simpa using hv)

/-- An event a stage may raise on `s`: in host mode it is an interrupt, for only a guest exits. -/
def EventOf (s : State) (ev : Event) : Prop :=
  s.inVM = false → ∃ n ret extra, ev = .interrupt n ret extra

theorem EventOf.interrupt (s : State) (n ret : Word) (extra : List Word) :
    EventOf s (.interrupt n ret extra) := fun _ => ⟨n, ret, extra, rfl⟩

theorem EventOf.guest {s : State} (h : s.inVM = true) (ev : Event) : EventOf s ev :=
  fun hv => by rw [h] at hv; cases hv

theorem EventOf.ofSegViol {α : Type} {s : State} {x : Except SegViol α} {ev : Event}
    (h : orSegViol s x = .error ev) : EventOf s ev := by
  obtain ⟨v, -, rfl⟩ := orSegViol_error h
  exact fun _ => ⟨_, _, _, rfl⟩

theorem resolve_event {o : Operand} {e : Nat} {s : State} {ev : Event}
    (h : resolve o e s = .error ev) : EventOf s ev := by
  cases o with
  | special n =>
    simp only [resolve] at h
    split at h
    next hv => exact EventOf.guest hv ev
    next => cases h
  | _ =>
    simp only [resolve] at h
    split at h
    next ev' he => cases h; exact EventOf.ofSegViol he
    next => cases h

theorem checkPriv_event {p : Byte} {s : State} {ev : Event} (h : checkPriv p s = .error ev) :
    EventOf s ev := by
  unfold checkPriv at h
  split at h
  · cases h; exact fun _ => ⟨_, _, _, rfl⟩
  · cases h

/-! ## The combinators, forwards -/

section
variable {priv : Byte} {o o' : Operand} {s : State}

theorem run0_ok {body : Word → Except Event Effect} {x : Effect}
    (hp : s.cpl ≤ priv.zeroExtend 32) (hb : body (nextIp 0 s) = .ok x) :
    run0 priv s body = complete (nextIp 0 s) .none x := by
  simp only [run0, (checkPriv_ok_iff priv s).2 hp, hb]

theorem run0_raises {body : Word → Except Event Effect} {ev : Event}
    (hp : s.cpl ≤ priv.zeroExtend 32) (hb : body (nextIp 0 s) = .error ev) :
    run0 priv s body = (deliver ev s).toOutcome := by
  simp only [run0, (checkPriv_ok_iff priv s).2 hp, hb]

theorem run1_ok {body : Word → Word → Except Event Effect} {a : Word} {t : Target} {x : Effect}
    (hp : s.cpl ≤ priv.zeroExtend 32) (hr : resolve o 0 s = .ok (a, t))
    (hb : body (nextIp o.extraWords s) a = .ok x) :
    run1 priv o s body = complete (nextIp o.extraWords s) t x := by
  simp only [run1, (checkPriv_ok_iff priv s).2 hp, hr, hb]

theorem run1_raises {body : Word → Word → Except Event Effect} {a : Word} {t : Target} {ev : Event}
    (hp : s.cpl ≤ priv.zeroExtend 32) (hr : resolve o 0 s = .ok (a, t))
    (hb : body (nextIp o.extraWords s) a = .error ev) :
    run1 priv o s body = (deliver ev s).toOutcome := by
  simp only [run1, (checkPriv_ok_iff priv s).2 hp, hr, hb]

theorem run1_resolve_raises {body : Word → Word → Except Event Effect} {ev : Event}
    (hp : s.cpl ≤ priv.zeroExtend 32) (hr : resolve o 0 s = .error ev) :
    run1 priv o s body = (deliver ev s).toOutcome := by
  simp only [run1, (checkPriv_ok_iff priv s).2 hp, hr]

theorem run2_ok {body : Word → Word → Except Event Effect} {a b : Word} {t t' : Target} {x : Effect}
    (hp : s.cpl ≤ priv.zeroExtend 32) (hr : resolve o 0 s = .ok (a, t))
    (hr' : resolve o' o.extraWords s = .ok (b, t')) (hb : body a b = .ok x) :
    run2 priv o o' s body = complete (nextIp (o.extraWords + o'.extraWords) s) t x := by
  simp only [run2, (checkPriv_ok_iff priv s).2 hp, hr, hr', hb]

theorem run2_raises {body : Word → Word → Except Event Effect} {a b : Word} {t t' : Target}
    {ev : Event} (hp : s.cpl ≤ priv.zeroExtend 32) (hr : resolve o 0 s = .ok (a, t))
    (hr' : resolve o' o.extraWords s = .ok (b, t')) (hb : body a b = .error ev) :
    run2 priv o o' s body = (deliver ev s).toOutcome := by
  simp only [run2, (checkPriv_ok_iff priv s).2 hp, hr, hr', hb]

theorem run2_resolve1_raises {body : Word → Word → Except Event Effect} {ev : Event}
    (hp : s.cpl ≤ priv.zeroExtend 32) (hr : resolve o 0 s = .error ev) :
    run2 priv o o' s body = (deliver ev s).toOutcome := by
  simp only [run2, (checkPriv_ok_iff priv s).2 hp, hr]

theorem run2_resolve2_raises {body : Word → Word → Except Event Effect} {r : Word × Target}
    {ev : Event} (hp : s.cpl ≤ priv.zeroExtend 32) (hr : resolve o 0 s = .ok r)
    (hr' : resolve o' o.extraWords s = .error ev) :
    run2 priv o o' s body = (deliver ev s).toOutcome := by
  simp only [run2, (checkPriv_ok_iff priv s).2 hp, hr, hr']

/-! ## The combinators, backwards -/

theorem run0_cases {body : Word → Except Event Effect}
    (hb : ∀ next ev, body next = .error ev → EventOf s ev) :
    (∃ ev, EventOf s ev ∧ run0 priv s body = (deliver ev s).toOutcome) ∨
    ∃ next x, body next = .ok x ∧ run0 priv s body = complete next .none x := by
  unfold run0
  split
  next ev he => exact .inl ⟨ev, checkPriv_event he, rfl⟩
  next =>
    split
    next ev he => exact .inl ⟨ev, hb _ _ he, rfl⟩
    next x hx => exact .inr ⟨_, x, hx, rfl⟩

theorem run1_cases {body : Word → Word → Except Event Effect}
    (hb : ∀ next a ev, body next a = .error ev → EventOf s ev) :
    (∃ ev, EventOf s ev ∧ run1 priv o s body = (deliver ev s).toOutcome) ∨
    ∃ next a t x, TargetOf s t ∧ body next a = .ok x ∧ run1 priv o s body = complete next t x := by
  unfold run1
  split
  next ev he => exact .inl ⟨ev, checkPriv_event he, rfl⟩
  next =>
    split
    next ev he => exact .inl ⟨ev, resolve_event he, rfl⟩
    next a t ht =>
      split
      next ev he => exact .inl ⟨ev, hb _ _ _ he, rfl⟩
      next x hx => exact .inr ⟨_, a, t, x, resolve_target ht, hx, rfl⟩

theorem run2_cases {body : Word → Word → Except Event Effect}
    (hb : ∀ a b ev, body a b = .error ev → EventOf s ev) :
    (∃ ev, EventOf s ev ∧ run2 priv o o' s body = (deliver ev s).toOutcome) ∨
    ∃ next a b t x, TargetOf s t ∧ body a b = .ok x ∧
      run2 priv o o' s body = complete next t x := by
  unfold run2
  split
  next ev he => exact .inl ⟨ev, checkPriv_event he, rfl⟩
  next =>
    split
    next ev he => exact .inl ⟨ev, resolve_event he, rfl⟩
    next a t ht =>
      split
      next ev he => exact .inl ⟨ev, resolve_event he, rfl⟩
      next b t' hb' =>
        split
        next ev he => exact .inl ⟨ev, hb _ _ _ he, rfl⟩
        next x hx => exact .inr ⟨_, a, b, t, x, resolve_target ht, hx, rfl⟩

end

end Sys2Proof.Machine
end

