-- ==== Sys2Proof/Laws/Decode.lean ====
section
/-! SUPPORT. The fields of an encoded word read back (R100, R101), operand by operand, and what a
decoded operand says about its descriptor. -/

namespace Sys2Proof

theorem packWord_eq (op p d1 d2 : Byte) :
    packWord op p d1 d2 = (d2 ++ d1 ++ p ++ op : BitVec (8 + 8 + 8 + 8)) := rfl

theorem opcodeField_packWord (op p d1 d2 : Byte) : opcodeField (packWord op p d1 d2) = op := by
  rw [packWord_eq]
  exact BitVec.extractLsb'_append_eq_right

theorem privField_packWord (op p d1 d2 : Byte) : privField (packWord op p d1 d2) = p := by
  apply BitVec.eq_of_getLsbD_eq
  intro i hi
  rw [privField, packWord_eq, BitVec.getLsbD_extractLsb', BitVec.getLsbD_append,
    BitVec.getLsbD_append]
  simp [hi, show ¬ 8 + i < 8 by omega]

section
variable (op p d : Byte) (t : BitVec 3) (r : BitVec 5)

theorem tag1Field_packWord : tag1Field (packWord op p (packDescriptor t r) d) = t := by
  apply BitVec.eq_of_getLsbD_eq
  intro i hi
  rw [tag1Field, packWord_eq, packDescriptor]
  simp only [BitVec.getLsbD_extractLsb', BitVec.getLsbD_append]
  simp [hi, show ¬ 21 + i < 8 by omega, show ¬ 21 + i - 8 < 8 by omega,
    show 21 + i - 8 - 8 < 8 by omega, show ¬ 21 + i - 8 - 8 < 5 by omega,
    show 21 + i - 8 - 8 - 5 = i by omega]

theorem reg1Field_packWord : reg1Field (packWord op p (packDescriptor t r) d) = r := by
  apply BitVec.eq_of_getLsbD_eq
  intro i hi
  rw [reg1Field, packWord_eq, packDescriptor]
  simp only [BitVec.getLsbD_extractLsb', BitVec.getLsbD_append]
  simp [hi, show ¬ 16 + i < 8 by omega, show ¬ 16 + i - 8 < 8 by omega, show ¬ 8 ≤ i by omega,
    show 16 + i - 8 - 8 = i by omega]

theorem tag2Field_packWord : tag2Field (packWord op p d (packDescriptor t r)) = t := by
  apply BitVec.eq_of_getLsbD_eq
  intro i hi
  rw [tag2Field, packWord_eq, packDescriptor]
  simp only [BitVec.getLsbD_extractLsb', BitVec.getLsbD_append]
  simp [hi, show ¬ 29 + i < 8 by omega, show ¬ 29 + i - 8 < 8 by omega,
    show ¬ 29 + i - 8 - 8 < 8 by omega, show ¬ 29 + i - 8 - 8 - 8 < 5 by omega,
    show 29 + i - 8 - 8 - 8 - 5 = i by omega]

theorem reg2Field_packWord : reg2Field (packWord op p d (packDescriptor t r)) = r := by
  apply BitVec.eq_of_getLsbD_eq
  intro i hi
  rw [reg2Field, packWord_eq, packDescriptor]
  simp only [BitVec.getLsbD_extractLsb', BitVec.getLsbD_append]
  simp [hi, show ¬ 24 + i < 8 by omega, show ¬ 24 + i - 8 < 8 by omega,
    show ¬ 24 + i - 8 - 8 < 8 by omega,
    show 24 + i - 8 - 8 - 8 = i by omega]

end

/-! ## Operands -/

/-- An operand's tag (R102). -/
def Operand.tag : Operand → BitVec 3
  | .imm => 0
  | .reg _ => 1
  | .single .ds _ => 2
  | .single .es _ => 3
  | .double .ds _ => 4
  | .double .es _ => 5
  | .special _ => 6

/-- An operand's `reg` field as it is encoded. -/
def Operand.regField : Operand → BitVec 5
  | .imm => 31
  | .reg i => fieldOfBase (some i)
  | .single _ base => fieldOfBase base
  | .double _ base => fieldOfBase base
  | .special n => BitVec.ofNat 5 n.number

theorem encodeOperand_eq (o : Operand) : encodeOperand o = packDescriptor o.tag o.regField := by
  cases o with
  | single seg base => cases seg <;> rfl
  | double seg base => cases seg <;> rfl
  | _ => rfl

theorem regOfField_fieldOfBase (base : Option RegIdx) : regOfField (fieldOfBase base) = base := by
  cases base with
  | none => rfl
  | some i =>
    have hi := i.isLt
    have e : i.val % 2 ^ 5 = i.val := Nat.mod_eq_of_lt (by omega)
    simp only [regOfField, fieldOfBase, BitVec.toNat_ofNat]
    rw [dif_pos (by omega)]
    congr 1
    exact Fin.ext e

theorem fieldOfBase_regOfField (r : BitVec 5) : fieldOfBase (regOfField r) = r := by
  revert r; decide

theorem number_specialOfField {r : BitVec 5} {n : SpecialReg} (h : specialOfField r = some n) :
    BitVec.ofNat 5 n.number = r := by
  revert r n; decide

theorem decodeOperand_encoded (o : Operand) : decodeOperand o.tag o.regField = .ok o := by
  cases o with
  | imm => rfl
  | reg i => simp [decodeOperand, Operand.tag, Operand.regField, regOfField_fieldOfBase]
  | single seg base =>
    cases seg <;> simp [decodeOperand, Operand.tag, Operand.regField, regOfField_fieldOfBase]
  | double seg base =>
    cases seg <;> simp [decodeOperand, Operand.tag, Operand.regField, regOfField_fieldOfBase]
  | special n => cases n <;> rfl

theorem Operand.tag_ne_zero {o : Operand} (h : o.writable = true) : o.tag ≠ 0 := by
  cases o with
  | imm => cases h
  | single seg base => cases seg <;> simp [Operand.tag]
  | double seg base => cases seg <;> simp [Operand.tag]
  | _ => simp [Operand.tag]

theorem decodeWritten_encoded {o : Operand} (h : o.writable = true) :
    decodeWritten o.tag o.regField = .ok o := by
  rw [decodeWritten, if_neg (Operand.tag_ne_zero h), decodeOperand_encoded]

/-- A decoded operand gives back its descriptor, but for an Immediate's ignored `reg` field. -/
theorem decodeOperand_ok {t : BitVec 3} {r : BitVec 5} {o : Operand}
    (h : decodeOperand t r = .ok o) : o.tag = t ∧ (t ≠ 0 → o.regField = r) := by
  have key : ∀ k : Nat, k < 8 → t.toNat = k → t = BitVec.ofNat 3 k := fun k hk e => by
    apply BitVec.eq_of_toNat_eq
    rw [e]
    simp
    omega
  unfold decodeOperand at h
  split at h
  next e => obtain rfl := key 0 (by omega) e; cases h; exact ⟨rfl, fun h => absurd rfl h⟩
  next e =>
    obtain rfl := key 1 (by omega) e
    split at h
    next i hi =>
      cases h
      exact ⟨rfl, fun _ => (congrArg fieldOfBase hi).symm.trans (fieldOfBase_regOfField r)⟩
    next => cases h
  next e => obtain rfl := key 2 (by omega) e; cases h; exact ⟨rfl, fun _ => fieldOfBase_regOfField r⟩
  next e => obtain rfl := key 3 (by omega) e; cases h; exact ⟨rfl, fun _ => fieldOfBase_regOfField r⟩
  next e => obtain rfl := key 4 (by omega) e; cases h; exact ⟨rfl, fun _ => fieldOfBase_regOfField r⟩
  next e => obtain rfl := key 5 (by omega) e; cases h; exact ⟨rfl, fun _ => fieldOfBase_regOfField r⟩
  next e =>
    obtain rfl := key 6 (by omega) e
    split at h
    next n hn => cases h; exact ⟨rfl, fun _ => number_specialOfField hn⟩
    next => cases h
  next => cases h

theorem decodeWritten_ok {t : BitVec 3} {r : BitVec 5} {o : Operand}
    (h : decodeWritten t r = .ok o) :
    o.writable = true ∧ o.tag = t ∧ (t ≠ 0 → o.regField = r) := by
  unfold decodeWritten at h
  split at h
  next => cases h
  next ht =>
    obtain ⟨h1, h2⟩ := decodeOperand_ok h
    refine ⟨?_, h1, h2⟩
    cases o with
    | imm => exact absurd h1.symm ht
    | _ => rfl

/-- The descriptors a read role refuses: conditions 2, 3 and 4 of R121. -/
theorem decodeOperand_refuses_iff {t : BitVec 3} {r : BitVec 5} :
    (∃ e, decodeOperand t r = .error e) ↔
      t = 7 ∨ (t = 1 ∧ r = 31) ∨ (t = 6 ∧ 10 ≤ r.toNat) := by
  have key : ∀ (t : BitVec 3) (r : BitVec 5),
      (match decodeOperand t r with | .error _ => true | .ok _ => false) =
        decide (t = 7 ∨ (t = 1 ∧ r = 31) ∨ (t = 6 ∧ 10 ≤ r.toNat)) := by decide +kernel
  have := key t r
  cases h : decodeOperand t r with
  | error e =>
    rw [h] at this
    exact ⟨fun _ => of_decide_eq_true this.symm, fun _ => ⟨e, rfl⟩⟩
  | ok o =>
    rw [h] at this
    exact ⟨fun ⟨e, he⟩ => (by cases he), fun hh => absurd hh (of_decide_eq_false this.symm)⟩

theorem decodeWritten_refuses_iff {t : BitVec 3} {r : BitVec 5} :
    (∃ e, decodeWritten t r = .error e) ↔
      t = 0 ∨ t = 7 ∨ (t = 1 ∧ r = 31) ∨ (t = 6 ∧ 10 ≤ r.toNat) := by
  unfold decodeWritten
  split
  next h => simp [h]
  next h => rw [decodeOperand_refuses_iff]; exact ⟨.inr, fun hh => hh.resolve_left h⟩

/-! ## Rows -/

theorem lookup_mem {α β : Type} [BEq α] [LawfulBEq α] {l : List (α × β)} {a : α} {b : β}
    (h : l.lookup a = some b) : (a, b) ∈ l := by
  induction l with
  | nil => cases h
  | cons c l ih =>
    obtain ⟨k, v⟩ := c
    rw [List.lookup_cons] at h
    split at h
    next e => cases h; rw [eq_of_beq e]; simp
    next => exact List.mem_cons_of_mem _ (ih h)

/-- A packed word decodes by its opcode's row. -/
theorem decode_packWord {op p d1 d2 : Byte} {row : Word → Except Illegal Instr}
    (h : decodeRows.lookup op = some row) :
    decode (packWord op p d1 d2) = row (packWord op p d1 d2) := by
  rw [decode, opcodeField_packWord, h]

theorem rowWR_ok {c : Byte → Operand → Operand → Instr} {w : Word} {i : Instr}
    (h : rowWR c w = .ok i) : ∃ d s, decodeWritten (tag1Field w) (reg1Field w) = .ok d ∧
      decodeOperand (tag2Field w) (reg2Field w) = .ok s ∧ i = c (privField w) d s := by
  unfold rowWR at h
  split at h
  next => cases h
  next d hd =>
    split at h
    next => cases h
    next s hs => cases h; exact ⟨d, s, hd, hs, rfl⟩

theorem rowRR_ok {c : Byte → Operand → Operand → Instr} {w : Word} {i : Instr}
    (h : rowRR c w = .ok i) : ∃ d s, decodeOperand (tag1Field w) (reg1Field w) = .ok d ∧
      decodeOperand (tag2Field w) (reg2Field w) = .ok s ∧ i = c (privField w) d s := by
  unfold rowRR at h
  split at h
  next => cases h
  next d hd =>
    split at h
    next => cases h
    next s hs => cases h; exact ⟨d, s, hd, hs, rfl⟩

theorem rowR_ok {c : Byte → Operand → Instr} {w : Word} {i : Instr} (h : rowR c w = .ok i) :
    ∃ d, decodeOperand (tag1Field w) (reg1Field w) = .ok d ∧ i = c (privField w) d := by
  unfold rowR at h
  split at h
  next => cases h
  next d hd => cases h; exact ⟨d, hd, rfl⟩

theorem rowW_ok {c : Byte → Operand → Instr} {w : Word} {i : Instr} (h : rowW c w = .ok i) :
    ∃ d, decodeWritten (tag1Field w) (reg1Field w) = .ok d ∧ i = c (privField w) d := by
  unfold rowW at h
  split at h
  next => cases h
  next d hd => cases h; exact ⟨d, hd, rfl⟩

end Sys2Proof
end

