-- ==== Sys2Proof/Laws/Exec.lean ====
section
/-! SUPPORT. What one instruction can do, said once: `exec_cases`. Every whole-machine rule follows
from it by cases, with no meaning unfolded again. -/

namespace Sys2Proof.Machine

/-- The ways an instruction `i` can end on `s`. -/
inductive ExecCase (i : Instr) (s : State) : Prop where
  /-- An event was delivered on `s` itself (R144, R173). -/
  | raised (ev : Event) (hev : EventOf s ev) (h : exec i s = (deliver ev s).toOutcome)
  /-- A result was stored through operand 1's target, after memory changes in `p` (R160). -/
  | stored (p : State) (t : Target) (v next : Word) (hp : p = { s with mem := p.mem })
      (hc : Confined s p) (ht : TargetOf s t)
      (h : exec i s = ((writeback t v p).andThen fun u => .done (u.jump next)).toOutcome)
  /-- Memory and IP changed, and nothing else. -/
  | moved (u : State) (hu : u = { s with mem := u.mem, ip := u.ip }) (hc : Confined s u)
      (h : exec i s = .next u.continues)
  /-- CMP wrote the flags (R196). -/
  | compared (p : Byte) (o o' : Operand) (a b next : Word) (hi : i = .cmp p o o')
      (h : exec i s = .next ((s.compareFlags a b).jump next).continues)
  /-- CLI or STI wrote IE in host mode (R268, R269). -/
  | toggled (p : Byte) (b : Bool) (next : Word) (hi : i = .cli p ∨ i = .sti p)
      (hv : s.inVM = false) (h : exec i s = .next ((s.setIe b).jump next).continues)
  /-- PRINT wrote a byte in host mode (R272). -/
  | printed (p : Byte) (o : Operand) (b : Byte) (next : Word) (hi : i = .print p o)
      (hv : s.inVM = false) (h : exec i s = .next ((s.consoleOut b).jump next).continues)
  /-- HALT stopped in host mode (R275). -/
  | halted (p : Byte) (hi : i = .halt p) (hv : s.inVM = false) (h : exec i s = .next s.stops)
  /-- VMRESUME went to enter guest `id` (R265). -/
  | resumed (p : Byte) (o : Operand) (next id : Word) (hi : i = .vmresume p o)
      (hv : s.inVM = false) (hin : s.vmInstalled = true) (hid : id ≠ 0)
      (h : exec i s = (resumeGuest next id s).toOutcome)

theorem ExecCase.ofResult {i : Instr} {s : State} {t : Target} {v next : Word} (p : State)
    (hp : p = { s with mem := p.mem }) (hc : Confined s p) (ht : TargetOf s t)
    (h : exec i s = complete next t (.result v p)) : ExecCase i s :=
  .stored p t v next hp hc ht h

theorem ExecCase.ofMemory {i : Instr} {s : State} {t : Target} {next : Word} {p : State}
    (hp : p = { s with mem := p.mem }) (hc : Confined s p)
    (h : exec i s = complete next t (.advance p)) : ExecCase i s :=
  .moved (p.jump next) (by rw [hp]; rfl) hc h

/-- An instruction with two operands and a result that is a function of them (R179). -/
theorem exec_cases_binary {i : Instr} {s : State} {f : Word → Word → Word} {priv : Byte}
    {dst src : Operand} (h : exec i s = runBinary f priv dst src s) : ExecCase i s := by
  rcases run2_cases (priv := priv) (o := dst) (o' := src) (s := s)
    (body := fun a b => .ok (.result (f a b) s)) (fun _ _ _ h => by cases h) with
    ⟨ev, hev, he⟩ | ⟨next, a, b, t, x, ht, hx, hr⟩
  · exact .raised ev hev (h.trans he)
  · cases hx
    exact .ofResult s rfl (Confined.refl s) ht (h.trans hr)

theorem exec_cases_division {i : Instr} {s : State} {f : Word → Word → Word} {priv : Byte}
    {dst src : Operand} (h : exec i s = runDivision f priv dst src s) : ExecCase i s := by
  rcases run2_cases (priv := priv) (o := dst) (o' := src) (s := s) (body := fun a b =>
      if b = 0 then .error (.interrupt Config.INTR_DIV_BY_ZERO s.ip []) else .ok (.result (f a b) s))
    (fun a b ev h => by split at h <;> cases h; exact EventOf.interrupt _ _ _ _) with
    ⟨ev, hev, he⟩ | ⟨next, a, b, t, x, ht, hx, hr⟩
  · exact .raised ev hev (h.trans he)
  · split at hx
    · cases hx
    · cases hx
      exact .ofResult s rfl (Confined.refl s) ht (h.trans hr)

theorem exec_cases_jump {i : Instr} {s : State} {c : Bool} {priv : Byte} {op1 : Operand}
    (h : exec i s = runJump c priv op1 s) : ExecCase i s := by
  rcases run1_cases (priv := priv) (o := op1) (s := s)
    (body := fun _ a => .ok (if c then .redirect (s.jump a) else .advance s))
    (fun _ _ _ h => by cases h) with ⟨ev, hev, he⟩ | ⟨next, a, t, x, ht, hx, hr⟩
  · exact .raised ev hev (h.trans he)
  · cases hx
    cases c with
    | true => exact .moved (s.jump a) rfl (Confined.refl s) (h.trans hr)
    | false => exact .ofMemory rfl (Confined.refl s) (h.trans hr)

theorem popIp_ok {s t : State} (h : popIp s = .ok t) :
    t = { s with mem := t.mem, ip := t.ip } ∧ Confined s t := by
  unfold popIp at h
  split at h
  next => cases h
  next target p hp =>
    cases h
    obtain ⟨hf, hc⟩ := pop_frame hp
    exact ⟨by rw [hf]; rfl, hc⟩

theorem popIpDiscard_ok {n : Word} {s t : State} (h : popIpDiscard n s = .ok t) :
    t = { s with mem := t.mem, ip := t.ip } ∧ Confined s t := by
  unfold popIpDiscard at h
  split at h
  next => cases h
  next target p hp =>
    split at h
    next => cases h
    next sp hsp =>
      split at h
      next => cases h
      next q hq =>
        cases h
        obtain ⟨spAddr, pa, ha, -, -, rfl⟩ := pop_ok hp
        obtain ⟨qa, hqa, rfl⟩ := writeReg_ok hq
        rw [regAddr_memWrite] at hqa
        exact ⟨rfl, ((Confined.refl s).memWrite _ (by simp) ha).memWrite _ (by simp) hqa⟩

theorem enterFrame_ok {s t : State} (h : enterFrame s = .ok t) :
    t = { s with mem := t.mem } ∧ Confined s t := by
  unfold enterFrame at h
  split at h
  next => cases h
  next spAddr hsp =>
    split at h
    next => cases h
    next fpAddr hfp =>
      split at h
      next => cases h
      next pa hpa =>
        cases h
        exact ⟨rfl, (((Confined.refl s).memWrite _ (by simp) hpa).memWrite _ (by simp) hsp).memWrite _
          (by simp) hfp⟩

theorem leaveFrame_ok {s t : State} (h : leaveFrame s = .ok t) :
    t = { s with mem := t.mem } ∧ Confined s t := by
  unfold leaveFrame at h
  split at h
  next => cases h
  next fpAddr hfp =>
    split at h
    next => cases h
    next pa hpa =>
      split at h
      next => cases h
      next spAddr hsp =>
        cases h
        exact ⟨rfl, ((Confined.refl s).memWrite _ (by simp) hsp).memWrite _ (by simp) hfp⟩

/-- A zero-operand instruction whose execute stage is a check that redirects IP. -/
theorem exec_cases_return {i : Instr} {s : State} {priv : Byte}
    (h : exec i s = run0 priv s fun _ =>
      match orSegViol s (popIp s) with
      | .error ev => .error ev
      | .ok s' => .ok (.redirect s')) : ExecCase i s := by
  refine (run0_cases ?_).elim (fun ⟨ev, hev, he⟩ => .raised ev hev (h.trans he)) ?_
  · intro _ ev he
    split at he <;> cases he
    next hx => exact EventOf.ofSegViol hx
  · rintro ⟨next, x, hx, hr⟩
    split at hx <;> cases hx
    next u hu =>
      obtain ⟨hf, hc⟩ := popIp_ok (orSegViol_ok hu)
      exact .moved u hf hc (h.trans hr)

/-- A zero-operand instruction whose execute stage is a check that changes memory. -/
theorem exec_cases_frame {i : Instr} {s : State} {priv : Byte} {f : State → Except SegViol State}
    (hf : ∀ t, f s = .ok t → t = { s with mem := t.mem } ∧ Confined s t)
    (h : exec i s = run0 priv s fun _ =>
      match orSegViol s (f s) with
      | .error ev => .error ev
      | .ok s' => .ok (.advance s')) : ExecCase i s := by
  refine (run0_cases ?_).elim (fun ⟨ev, hev, he⟩ => .raised ev hev (h.trans he)) ?_
  · intro _ ev he
    split at he <;> cases he
    next hx => exact EventOf.ofSegViol hx
  · rintro ⟨next, x, hx, hr⟩
    split at hx <;> cases hx
    next u hu =>
      obtain ⟨hu', hc⟩ := hf u (orSegViol_ok hu)
      exact .ofMemory hu' hc (h.trans hr)

/-- What one instruction can do. -/
theorem exec_cases (i : Instr) (s : State) : ExecCase i s := by
  cases i with
  | add p d o => exact exec_cases_binary rfl
  | sub p d o => exact exec_cases_binary rfl
  | mul p d o => exact exec_cases_binary rfl
  | div p d o => exact exec_cases_division rfl
  | mod p d o => exact exec_cases_division rfl
  | or p d o => exact exec_cases_binary rfl
  | xor p d o => exact exec_cases_binary rfl
  | and p d o => exact exec_cases_binary rfl
  | not p d o => exact exec_cases_binary rfl
  | shl p d o => exact exec_cases_binary rfl
  | shr p d o => exact exec_cases_binary rfl
  | mov p d o => exact exec_cases_binary rfl
  | cmp p o o' =>
    rcases run2_cases (priv := p) (o := o) (o' := o') (s := s)
      (body := fun a b => .ok (.advance (s.compareFlags a b))) (fun _ _ _ h => by cases h) with
      ⟨ev, hev, he⟩ | ⟨next, a, b, t, x, ht, hx, hr⟩
    · exact .raised ev hev he
    · cases hx
      exact .compared p o o' a b next rfl hr
  | jmp p o => exact exec_cases_jump rfl
  | jz p o => exact exec_cases_jump rfl
  | jnz p o => exact exec_cases_jump rfl
  | jgt p o => exact exec_cases_jump rfl
  | jge p o => exact exec_cases_jump rfl
  | call p o =>
    refine (run1_cases (priv := p) (o := o) (body := fun next a =>
      match orSegViol s (push [next] s) with
      | .error ev => .error ev
      | .ok s' => .ok (.redirect (s'.jump a))) ?_).elim
        (fun ⟨ev, hev, he⟩ => .raised ev hev he) ?_
    · intro _ _ ev he
      split at he <;> cases he
      next hx => exact EventOf.ofSegViol hx
    · rintro ⟨next, a, t, x, ht, hx, hr⟩
      split at hx <;> cases hx
      next u hu =>
        obtain ⟨hf, hc⟩ := push_frame (orSegViol_ok hu)
        exact .moved (u.jump a) (by rw [hf]; rfl) hc hr
  | ret p => exact exec_cases_return rfl
  | retn p o =>
    refine (run1_cases (priv := p) (o := o) (body := fun _ a =>
      match orSegViol s (popIpDiscard a s) with
      | .error ev => .error ev
      | .ok s' => .ok (.redirect s')) ?_).elim (fun ⟨ev, hev, he⟩ => .raised ev hev he) ?_
    · intro _ _ ev he
      split at he <;> cases he
      next hx => exact EventOf.ofSegViol hx
    · rintro ⟨next, a, t, x, ht, hx, hr⟩
      split at hx <;> cases hx
      next u hu =>
        obtain ⟨hf, hc⟩ := popIpDiscard_ok (orSegViol_ok hu)
        exact .moved u hf hc hr
  | enter p => exact exec_cases_frame (fun _ h => enterFrame_ok h) rfl
  | leave p => exact exec_cases_frame (fun _ h => leaveFrame_ok h) rfl
  | getargument p d o =>
    refine (run2_cases (priv := p) (o := d) (o' := o) (body := fun _ b =>
      match orSegViol s (argument b s) with
      | .error ev => .error ev
      | .ok v => .ok (.result v s)) ?_).elim (fun ⟨ev, hev, he⟩ => .raised ev hev he) ?_
    · intro _ _ ev he
      split at he <;> cases he
      next hx => exact EventOf.ofSegViol hx
    · rintro ⟨next, a, b, t, x, ht, hx, hr⟩
      split at hx <;> cases hx
      exact .ofResult s rfl (Confined.refl s) ht hr
  | push p o =>
    refine (run1_cases (priv := p) (o := o) (body := fun _ a =>
      match orSegViol s (push [a] s) with
      | .error ev => .error ev
      | .ok s' => .ok (.advance s')) ?_).elim (fun ⟨ev, hev, he⟩ => .raised ev hev he) ?_
    · intro _ _ ev he
      split at he <;> cases he
      next hx => exact EventOf.ofSegViol hx
    · rintro ⟨next, a, t, x, ht, hx, hr⟩
      split at hx <;> cases hx
      next u hu =>
        obtain ⟨hf, hc⟩ := push_frame (orSegViol_ok hu)
        exact .ofMemory hf hc hr
  | pop p d =>
    refine (run1_cases (priv := p) (o := d) (body := fun _ _ =>
      match orSegViol s (pop s) with
      | .error ev => .error ev
      | .ok (v, s') => .ok (.result v s')) ?_).elim (fun ⟨ev, hev, he⟩ => .raised ev hev he) ?_
    · intro _ _ ev he
      split at he <;> cases he
      next hx => exact EventOf.ofSegViol hx
    · rintro ⟨next, a, t, x, ht, hx, hr⟩
      split at hx <;> cases hx
      next v u hu =>
        obtain ⟨hf, hc⟩ := pop_frame (orSegViol_ok hu)
        exact .ofResult u hf hc ht hr
  | int p o =>
    refine (run1_cases (priv := p) (o := o) (body := fun next a => .error (.interrupt a next []))
      ?_).elim (fun ⟨ev, hev, he⟩ => .raised ev hev he) ?_
    · intro _ _ ev he
      cases he
      exact EventOf.interrupt _ _ _ _
    · rintro ⟨next, a, t, x, ht, hx, hr⟩
      cases hx
  | reti p => exact exec_cases_return rfl
  | vmresume p o =>
    refine (run1_cases (priv := p) (o := o) (body := fun next a =>
      if s.inVM then .error (privilegedExit Config.OPC_VMRESUME s)
      else if s.vmInstalled = false ∨ a = 0 ∨ s.vmTable.length ≤ a.toNat then
        .error (.interrupt Config.INTR_INVALID_INSTR s.ip [])
      else .ok (resumeGuest next a s).asRedirect) ?_).elim
        (fun ⟨ev, hev, he⟩ => .raised ev hev he) ?_
    · intro _ _ ev he
      split at he
      next hv => exact EventOf.guest hv ev
      next =>
        split at he <;> cases he
        exact EventOf.interrupt _ _ _ _
    · rintro ⟨next, a, t, x, ht, hx, hr⟩
      split at hx
      · cases hx
      next hv =>
        split at hx <;> cases hx
        next hbad =>
          simp only [not_or] at hbad
          refine .resumed p o next a rfl (by simpa using hv) (by simpa using hbad.1) hbad.2.1
            (Eq.trans hr ?_)
          cases resumeGuest next a s <;> rfl
  | cli p =>
    refine (run0_cases (priv := p) (body := fun _ =>
      if s.inVM then .error (privilegedExit Config.OPC_CLI s)
      else .ok (.advance (s.setIe false))) ?_).elim (fun ⟨ev, hev, he⟩ => .raised ev hev he) ?_
    · intro _ ev he
      split at he <;> cases he
      next hv => exact EventOf.guest hv _
    · rintro ⟨next, x, hx, hr⟩
      split at hx <;> cases hx
      next hv => exact .toggled p false next (.inl rfl) (by simpa using hv) hr
  | sti p =>
    refine (run0_cases (priv := p) (body := fun _ =>
      if s.inVM then .error (privilegedExit Config.OPC_STI s)
      else .ok (.advance (s.setIe true))) ?_).elim (fun ⟨ev, hev, he⟩ => .raised ev hev he) ?_
    · intro _ ev he
      split at he <;> cases he
      next hv => exact EventOf.guest hv _
    · rintro ⟨next, x, hx, hr⟩
      split at hx <;> cases hx
      next hv => exact .toggled p true next (.inr rfl) (by simpa using hv) hr
  | print p o =>
    refine (run1_cases (priv := p) (o := o) (body := fun next a =>
      if s.inVM then .error (.vmExit Config.VMEXIT_PRINT next [a])
      else .ok (.advance (s.consoleOut (a.setWidth 8)))) ?_).elim
        (fun ⟨ev, hev, he⟩ => .raised ev hev he) ?_
    · intro _ _ ev he
      split at he <;> cases he
      next hv => exact EventOf.guest hv _
    · rintro ⟨next, a, t, x, ht, hx, hr⟩
      split at hx <;> cases hx
      next hv => exact .printed p o _ next rfl (by simpa using hv) hr
  | halt p =>
    refine (run0_cases (priv := p) (body := fun next =>
      if s.inVM then .error (.vmExit Config.VMEXIT_HALT next []) else .ok (.stop s)) ?_).elim
        (fun ⟨ev, hev, he⟩ => .raised ev hev he) ?_
    · intro _ ev he
      split at he <;> cases he
      next hv => exact EventOf.guest hv _
    · rintro ⟨next, x, hx, hr⟩
      split at hx <;> cases hx
      next hv => exact .halted p rfl (by simpa using hv) hr

/-! ## Writing back and entering a guest -/

/-- What a writeback can do: nothing, with no target; one translated word; or, in host mode, special
registers and parsed tables. -/
theorem writeback_cases {s : State} {t : Target} (ht : TargetOf s t) (v : Word) (p : State) :
    (t = .none ∧ writeback t v p = .fatal .writebackContract p) ∨
    (∃ role off pa, role ≠ Role.code ∧ translate role off s = .ok pa ∧
      writeback t v p = .done (p.memWrite pa v)) ∨
    ∃ n, t = .spr n ∧ s.inVM = false ∧ writeback t v p = writeSpr n v p := by
  cases ht with
  | none => exact .inl ⟨rfl, rfl⟩
  | reg role off pa hr ht => exact .inr (.inl ⟨role, off, pa, hr, ht, rfl⟩)
  | mem role off pa hr ht => exact .inr (.inl ⟨role, off, pa, hr, ht, rfl⟩)
  | spr n hv => exact .inr (.inr ⟨n, rfl, hv, rfl⟩)

/-- VMRESUME's commit keeps what a context switch keeps, even where it is fatal. -/
theorem resumeGuest_frame (next id : Word) (s : State) : ∃ t, (resumeGuest next id s).state = t ∧
    SwitchFrame s t ∧
    (t.vmInstalled = s.vmInstalled ∧ t.vmTable = s.vmTable ∨ t.vmInstalled = true) ∧
    (t.inVM = s.inVM ∧ t.vmID = s.vmID ∨ t.inVM = true ∧ t.vmID = id ∧ t.vmInstalled = true) := by
  refine ⟨_, rfl, ?_⟩
  obtain ⟨m, hm, hmf, hmv⟩ := saveSlot_frame 0 (s.jump next)
  unfold resumeGuest
  cases hs : saveSlot 0 (s.jump next) with
  | fatal r m' =>
    rw [hs] at hm
    change m' = m at hm
    subst hm
    simp only [Eff.andThen_fatal, Eff.state_fatal]
    exact ⟨by rw [SwitchFrame, hmf, State.jump], hmv, .inl ⟨by rw [hmf]; rfl, by rw [hmf]; rfl⟩⟩
  | done m' =>
    rw [hs] at hm
    change m' = m at hm
    subst hm
    obtain ⟨g, hg, hgf⟩ := loadSlot_frame id.toNat m'
    have hin : m'.vmInstalled = true := by
      obtain ⟨sp, w, -, -, -, hd⟩ := saveSlot_done hs
      rw [hd]
    rw [Eff.andThen_done]
    cases hl : loadSlot id.toNat m' with
    | fatal r g' =>
      rw [hl] at hg
      change g' = g at hg
      subst hg
      simp only [Eff.andThen_fatal, Eff.state_fatal]
      exact ⟨by rw [SwitchFrame, hgf, hmf, State.jump], .inr (by rw [hgf]; exact hin),
        .inl ⟨by rw [hgf, hmf]; rfl, by rw [hgf, hmf]; rfl⟩⟩
    | done g' =>
      rw [hl] at hg
      change g' = g at hg
      subst hg
      simp only [Eff.andThen_done, Eff.state_done]
      have hin' : (g'.enterGuest id).vmInstalled = true := by
        rw [State.enterGuest_vmInstalled, hgf]; exact hin
      exact ⟨by rw [SwitchFrame, State.enterGuest, hgf, hmf, State.jump], .inr hin',
        .inr ⟨rfl, rfl, hin'⟩⟩

theorem resumeGuest_done {next id : Word} {s t : State} (h : resumeGuest next id s = .done t) :
    ∃ m g, saveSlot 0 (s.jump next) = .done m ∧ loadSlot id.toNat m = .done g ∧
      t = g.enterGuest id := by
  obtain ⟨g, hg, ht⟩ := Eff.andThen_eq_done h
  obtain ⟨m, hm, hl⟩ := Eff.andThen_eq_done hg
  cases ht
  exact ⟨m, g, hm, hl, rfl⟩

end Sys2Proof.Machine
end

