-- ==== Sys2Proof/Laws/PerInstr.lean ====
section
/-! SUPPORT. Statements about every instruction as syntax, one lemma per constructor. -/

namespace Sys2Proof

namespace Laws.OpcodeField

/-- The encoded word carries the instruction's row of R110 in byte 0 and its required privilege in
byte 1. -/
def Statement (i : Instr) : Prop :=
  (decodeRows.map Prod.fst).contains (opcodeField (encode i)) = true ∧
    privField (encode i) = i.requiredPriv

theorem of_packWord {op p d1 d2 : Byte} (h : (decodeRows.map Prod.fst).contains op = true) :
    (decodeRows.map Prod.fst).contains (opcodeField (packWord op p d1 d2)) = true ∧
      privField (packWord op p d1 d2) = p := by
  rw [opcodeField_packWord, privField_packWord]
  exact ⟨h, rfl⟩

theorem add (p : Byte) (o o' : Operand) : Statement (.add p o o') := of_packWord (by decide)
theorem sub (p : Byte) (o o' : Operand) : Statement (.sub p o o') := of_packWord (by decide)
theorem mul (p : Byte) (o o' : Operand) : Statement (.mul p o o') := of_packWord (by decide)
theorem div (p : Byte) (o o' : Operand) : Statement (.div p o o') := of_packWord (by decide)
theorem mod (p : Byte) (o o' : Operand) : Statement (.mod p o o') := of_packWord (by decide)
theorem or (p : Byte) (o o' : Operand) : Statement (.or p o o') := of_packWord (by decide)
theorem xor (p : Byte) (o o' : Operand) : Statement (.xor p o o') := of_packWord (by decide)
theorem and (p : Byte) (o o' : Operand) : Statement (.and p o o') := of_packWord (by decide)
theorem not (p : Byte) (o o' : Operand) : Statement (.not p o o') := of_packWord (by decide)
theorem shl (p : Byte) (o o' : Operand) : Statement (.shl p o o') := of_packWord (by decide)
theorem shr (p : Byte) (o o' : Operand) : Statement (.shr p o o') := of_packWord (by decide)
theorem mov (p : Byte) (o o' : Operand) : Statement (.mov p o o') := of_packWord (by decide)
theorem cmp (p : Byte) (o o' : Operand) : Statement (.cmp p o o') := of_packWord (by decide)
theorem jmp (p : Byte) (o : Operand) : Statement (.jmp p o) := of_packWord (by decide)
theorem jz (p : Byte) (o : Operand) : Statement (.jz p o) := of_packWord (by decide)
theorem jnz (p : Byte) (o : Operand) : Statement (.jnz p o) := of_packWord (by decide)
theorem jgt (p : Byte) (o : Operand) : Statement (.jgt p o) := of_packWord (by decide)
theorem jge (p : Byte) (o : Operand) : Statement (.jge p o) := of_packWord (by decide)
theorem call (p : Byte) (o : Operand) : Statement (.call p o) := of_packWord (by decide)
theorem ret (p : Byte) : Statement (.ret p) := of_packWord (by decide)
theorem retn (p : Byte) (o : Operand) : Statement (.retn p o) := of_packWord (by decide)
theorem enter (p : Byte) : Statement (.enter p) := of_packWord (by decide)
theorem leave (p : Byte) : Statement (.leave p) := of_packWord (by decide)
theorem getargument (p : Byte) (o o' : Operand) : Statement (.getargument p o o') := of_packWord (by decide)
theorem push (p : Byte) (o : Operand) : Statement (.push p o) := of_packWord (by decide)
theorem pop (p : Byte) (o : Operand) : Statement (.pop p o) := of_packWord (by decide)
theorem int (p : Byte) (o : Operand) : Statement (.int p o) := of_packWord (by decide)
theorem reti (p : Byte) : Statement (.reti p) := of_packWord (by decide)
theorem vmresume (p : Byte) (o : Operand) : Statement (.vmresume p o) := of_packWord (by decide)
theorem cli (p : Byte) : Statement (.cli p) := of_packWord (by decide)
theorem sti (p : Byte) : Statement (.sti p) := of_packWord (by decide)
theorem print (p : Byte) (o : Operand) : Statement (.print p o) := of_packWord (by decide)
theorem halt (p : Byte) : Statement (.halt p) := of_packWord (by decide)

end Laws.OpcodeField

end Sys2Proof
end

