-- ==== Sys2Proof/Laws/Tables.lean ====
section
/-! SUPPORT. The descriptor-table parses (R80, R85): that their fuel is always enough, and what the
rows they give are like. -/

namespace Sys2Proof.Machine

/-- How many listed words lie at or above an address. -/
def Memory.above (m : Memory) (a : Nat) : Nat := (m.filter (fun c => decide (a ≤ c.1))).length

theorem Memory.above_le (m : Memory) (a : Nat) : m.above a ≤ m.length := List.length_filter_le _ _

/-- A listed word in `[a, b)` is above `a` and not above `b`. -/
theorem Memory.above_lt {m : Memory} {a b k : Nat} (hk : m.read k ≠ unwritten) (ha : a ≤ k)
    (hb : k < b) : m.above b < m.above a := by
  have hmem := Memory.mem_of_read_ne hk
  have hsub : (m.filter (fun c => decide (b ≤ c.1))) =
      (m.filter (fun c => decide (a ≤ c.1))).filter (fun c => decide (b ≤ c.1)) := by
    rw [List.filter_filter]
    congr 1
    funext c
    by_cases h : b ≤ c.1
    · simp [h, (show a ≤ c.1 by omega)]
    · simp [h]
  unfold Memory.above
  rw [hsub]
  refine List.length_filter_lt_length_iff_exists.2 ⟨(k, m.read k), ?_, ?_⟩
  · exact List.mem_filter.2 ⟨hmem, by simpa using ha⟩
  · simpa using hb

theorem parseSegRows_fuel (m : Memory) {f g a : Nat} (hf : m.above a < f) (hg : m.above a < g) :
    parseSegRows m f a = parseSegRows m g a := by
  induction f generalizing g a with
  | zero => omega
  | succ f ih =>
    cases g with
    | zero => omega
    | succ g =>
      by_cases hs : m.read a = unwritten ∧ m.read (a + 1) = unwritten ∧ m.read (a + 2) = unwritten
          ∧ m.read (a + 3) = unwritten
      · simp [parseSegRows, hs]
      · have hlt : m.above (a + 4) < m.above a := by
          by_cases h0 : m.read a = unwritten
          · by_cases h1 : m.read (a + 1) = unwritten
            · by_cases h2 : m.read (a + 2) = unwritten
              · exact Memory.above_lt (k := a + 3) (fun h3 => hs ⟨h0, h1, h2, h3⟩) (by omega)
                  (by omega)
              · exact Memory.above_lt h2 (by omega) (by omega)
            · exact Memory.above_lt h1 (by omega) (by omega)
          · exact Memory.above_lt h0 (by omega) (by omega)
        simp only [parseSegRows, if_neg hs, ih (show m.above (a + 4) < f by omega)
          (show m.above (a + 4) < g by omega)]

/-- The fuel `parseSegTable` gives is enough: more changes nothing. -/
theorem parseSegRows_enough (m : Memory) {f : Nat} (a : Nat) (h : m.length < f) :
    parseSegRows m f a = parseSegRows m (m.length + 1) a :=
  parseSegRows_fuel m ((m.above_le a).trans_lt h) (Nat.lt_succ_of_le (m.above_le a))

/-- After a row that is no sentinel, one unit of fuel less is enough too. -/
theorem parseSegRows_rest (m : Memory) (a : Nat)
    (hs : ¬(m.read a = unwritten ∧ m.read (a + 1) = unwritten ∧ m.read (a + 2) = unwritten
      ∧ m.read (a + 3) = unwritten)) :
    parseSegRows m m.length (a + 4) = parseSegRows m (m.length + 1) (a + 4) := by
  have hlt : m.above (a + 4) < m.above a := by
    by_contra hn
    refine hs ⟨?_, ?_, ?_, ?_⟩ <;> by_contra hr <;>
      exact hn (Memory.above_lt hr (by omega) (by omega))
  have := m.above_le a
  exact parseSegRows_fuel m (by omega) (by omega)

theorem vmRowAt_sentinel {m : Memory} {a : Nat} :
    vmRowAt m a = VmDescriptor.sentinel ↔ ∀ j, j < 9 → m.read (a + j) = unwritten := by
  constructor
  · intro h j hj
    simp only [vmRowAt, VmDescriptor.sentinel, VmDescriptor.mk.injEq] at h
    obtain ⟨h0, h1, h2, h3, h4, h5, h6, h7, h8⟩ := h
    interval_cases j <;> assumption
  · intro h
    simp only [vmRowAt, VmDescriptor.sentinel, VmDescriptor.mk.injEq]
    exact ⟨h 0 (by omega), h 1 (by omega), h 2 (by omega), h 3 (by omega), h 4 (by omega),
      h 5 (by omega), h 6 (by omega), h 7 (by omega), h 8 (by omega)⟩

theorem above_lt_of_vmRow {m : Memory} {a : Nat} (h : vmRowAt m a ≠ VmDescriptor.sentinel) :
    m.above (a + 9) < m.above a := by
  rw [Ne, vmRowAt_sentinel] at h
  simp only [not_forall] at h
  obtain ⟨j, hj, hr⟩ := h
  exact Memory.above_lt hr (by omega) (by omega)

theorem parseVmRows_fuel (m : Memory) {f g a : Nat} (hf : m.above a < f) (hg : m.above a < g) :
    parseVmRows m f a = parseVmRows m g a := by
  induction f generalizing g a with
  | zero => omega
  | succ f ih =>
    cases g with
    | zero => omega
    | succ g =>
      by_cases hs : vmRowAt m a = VmDescriptor.sentinel
      · simp [parseVmRows, hs]
      · have hlt := above_lt_of_vmRow hs
        simp only [parseVmRows, if_neg hs, ih (show m.above (a + 9) < f by omega)
          (show m.above (a + 9) < g by omega)]

theorem parseVmRows_enough (m : Memory) {f : Nat} (a : Nat) (h : m.length < f) :
    parseVmRows m f a = parseVmRows m (m.length + 1) a :=
  parseVmRows_fuel m ((m.above_le a).trans_lt h) (Nat.lt_succ_of_le (m.above_le a))

theorem parseVmRows_rest (m : Memory) (a : Nat) (hs : vmRowAt m a ≠ VmDescriptor.sentinel) :
    parseVmRows m m.length (a + 9) = parseVmRows m (m.length + 1) (a + 9) := by
  have := above_lt_of_vmRow hs
  have := m.above_le a
  exact parseVmRows_fuel m (by omega) (by omega)

/-- A parsed Register segment has 31 words (R82). -/
theorem segDescriptorOf_register {s l k p : Word} {d : SegDescriptor}
    (h : segDescriptorOf s l k p = some d) (hk : d.kind = .register) :
    d.start ≤ d.limit ∧ d.limit - d.start = 30 := by
  unfold segDescriptorOf at h
  split at h
  next => cases h
  next k' hk' =>
    split at h
    · cases h
    next hbad =>
      cases h
      simp only [not_and_or, not_or, not_not] at hbad
      rcases hbad with hbad | ⟨h1, h2⟩
      · exact absurd hk hbad
      · refine ⟨BitVec.not_lt.1 h1, ?_⟩
        have : l - s + 1 - 1 = (31 : Word) - 1 := by rw [h2]
        simpa using this

theorem parseSegRows_register {m : Memory} {f a : Nat} {rows : List SegDescriptor}
    (h : parseSegRows m f a = .ok rows) :
    ∀ d ∈ rows, d.kind = .register → d.start ≤ d.limit ∧ d.limit - d.start = 30 := by
  induction f generalizing a rows with
  | zero => cases h
  | succ f ih =>
    simp only [parseSegRows] at h
    split at h
    · cases h
    · split at h
      · cases h; simp
      · split at h
        next => cases h
        next d hd =>
          split at h
          next => cases h
          next rest hr =>
            cases h
            intro d' hd' hk
            rcases List.mem_cons.1 hd' with rfl | hm
            · exact segDescriptorOf_register hd hk
            · exact ih hr d' hm hk

theorem parseVmRows_noSentinel {m : Memory} {f a : Nat} {rows : List VmDescriptor}
    (h : parseVmRows m f a = .ok rows) : VmDescriptor.sentinel ∉ rows := by
  induction f generalizing a rows with
  | zero => cases h
  | succ f ih =>
    simp only [parseVmRows] at h
    split at h
    · cases h
    · split at h
      · cases h; simp
      next hs =>
        split at h
        next => cases h
        next rest hr =>
          cases h
          simp only [List.mem_cons, not_or]
          exact ⟨fun e => hs e.symm, ih hr⟩

end Sys2Proof.Machine
end

