-- ==== Sys2Proof/Laws/Results.lean ====
section
/-! SUPPORT. How an instruction that completes ends, forwards: a stored result, a pushed frame; and
that no operation puts the sentinel row into the VM table. -/

namespace Sys2Proof.Machine

/-! ## Results (R160) -/

theorem storesOnly_memWrite (p : State) (pa v next : Word) :
    StoresOnly p ((p.memWrite pa v).jump next).continues pa v next :=
  ⟨rfl, p.memRead_memWrite_same pa v, fun _ h => p.memRead_memWrite_other v h⟩

/-- A result stored from the state `p` that the execute stage left. -/
theorem completesFrom_of_result {i : Instr} {s p : State} {t : Target} {v next : Word}
    (h : exec i s = complete next t (.result v p)) : CompletesFrom i s p t v next := by
  cases t with
  | none => exact ⟨_, h, rfl, rfl⟩
  | reg pa => exact ⟨_, h, storesOnly_memWrite p pa v next⟩
  | mem pa => exact ⟨_, h, storesOnly_memWrite p pa v next⟩
  | spr n =>
    cases n with
    | segtbl =>
      simp only [CompletesFrom]
      simp only [complete, writeback, writeSpr, installSegTable, State.storeSpr] at h
      split
      next rows hr => rw [hr] at h; exact h
      next r hr => rw [hr] at h; exact ⟨_, h, rfl, rfl⟩
    | vmtbl =>
      simp only [CompletesFrom]
      simp only [complete, writeback, writeSpr, installVmTable, State.storeSpr] at h
      split
      next rows hr => rw [hr] at h; exact h
      next r hr => rw [hr] at h; exact ⟨_, h, rfl, rfl⟩
    | _ => exact h

/-- A completed effect that goes on: `Continue`, from the state it left. -/
theorem Eff.toOutcome_running {e : Eff} {t : State} (h : e.toOutcome = .next t)
    (hr : t.status = .running) : ∃ s, e = .done s ∧ t = s.continues := by
  cases e with
  | done s => cases h; exact ⟨s, rfl, rfl⟩
  | fatal r s => cases h; cases hr

/-! ## Frames (R220, R314) -/

/-- What one pushed word leaves in memory. -/
theorem push_one_words (s : State) (spAddr pa v : Word) :
    ((s.memWrite pa v).memWrite spAddr (s.memRead spAddr - 1)).memRead spAddr =
        s.memRead spAddr - 1 ∧
      (pa ≠ spAddr →
        ((s.memWrite pa v).memWrite spAddr (s.memRead spAddr - 1)).memRead pa = v) ∧
      KeepsWordsBut s ((s.memWrite pa v).memWrite spAddr (s.memRead spAddr - 1)) [spAddr, pa] := by
  refine ⟨by simp, fun h => by rw [State.memRead_memWrite_other _ _ h]; simp, fun qa h => ?_⟩
  simp only [List.mem_cons, List.not_mem_nil, or_false, not_or] at h
  rw [State.memRead_memWrite_other _ _ h.1, State.memRead_memWrite_other _ _ h.2]

/-- Where every slot translates, the check phase gives each word its slot. -/
theorem pushSlots_total {s : State} {sp : Word} {vs : List Word} (slot : Nat → Word)
    (h : ∀ j, j < vs.length →
      translate .stack (sp - BitVec.ofNat 32 (j + 1)) s = .ok (slot j)) :
    pushSlots s sp vs = .ok ((List.range vs.length).map fun j => (slot j, vs[j]!)) := by
  induction vs generalizing sp slot with
  | nil => rfl
  | cons v vs ih =>
    have h0 := h 0 (by simp)
    simp only [pushSlots]
    rw [show sp - 1 = sp - BitVec.ofNat 32 (0 + 1) from rfl, h0]
    simp only
    rw [ih (sp := sp - BitVec.ofNat 32 (0 + 1)) (fun j => slot (j + 1)) (fun j hj => ?_)]
    · simp [List.range_succ_eq_map, Function.comp_def]
    · rw [show sp - BitVec.ofNat 32 (0 + 1) = sp - 1 from rfl, sub_one_sub_ofNat]
      exact h (j + 1) (by simpa using hj)

/-- Where some slot does not translate, the check phase fails. -/
theorem pushSlots_fails {s : State} {sp : Word} {vs : List Word} {v : SegViol} {j : Nat}
    (hj : j < vs.length) (h : translate .stack (sp - BitVec.ofNat 32 (j + 1)) s = .error v) :
    ∃ w, pushSlots s sp vs = .error w := by
  cases hp : pushSlots s sp vs with
  | error w => exact ⟨w, rfl⟩
  | ok slots =>
    obtain ⟨hm, ht⟩ := pushSlots_ok hp
    have hl : slots.length = vs.length := by rw [← hm]; simp
    rw [ht j (by omega)] at h
    cases h

/-- Words written to distinct addresses read back. -/
theorem State.memRead_writeAll {s : State} {l : List (Word × Word)}
    (hn : (l.map Prod.fst).Nodup) {c : Word × Word} (hc : c ∈ l) :
    (s.writeAll l).memRead c.1 = c.2 := by
  induction l generalizing s with
  | nil => cases hc
  | cons d l ih =>
    obtain ⟨pa, v⟩ := d
    simp only [List.map_cons, List.nodup_cons] at hn
    rcases List.mem_cons.1 hc with rfl | hm
    · rw [State.writeAll, State.memRead_writeAll_other _ _ fun d hd e =>
        hn.1 (List.mem_map.2 ⟨d, hd, e.symm⟩)]
      exact State.memRead_memWrite_same _ _ _
    · exact ih hn.2 hm

/-- Where SP and every slot translate, the push completes: SP moves down by the whole frame, each
word is in its slot, and every other word keeps its value. -/
theorem push_total {s : State} {spAddr : Word} {vs : List Word} (slot : Nat → Word)
    (hl : vs.length < 2 ^ 32) (hsp : regAddr 30 s = .ok spAddr)
    (h : ∀ j, j < vs.length →
      translate .stack (s.memRead spAddr - BitVec.ofNat 32 (j + 1)) s = .ok (slot j)) :
    ∃ t, push vs s = .ok t ∧ t = { s with mem := t.mem } ∧
      t.memRead spAddr = s.memRead spAddr - BitVec.ofNat 32 vs.length ∧
      (∀ (j : Nat) (hj : j < vs.length), slot j ≠ spAddr → t.memRead (slot j) = vs[j]) ∧
      ∀ qa, qa ≠ spAddr → (∀ j, j < vs.length → qa ≠ slot j) → t.memRead qa = s.memRead qa := by
  have hsp' : regAddr Config.SP_INDEX s = .ok spAddr := hsp
  have hp := pushSlots_total slot h
  refine ⟨(s.writeAll ((List.range vs.length).map fun j => (slot j, vs[j]!))).memWrite spAddr
    (s.memRead spAddr - BitVec.ofNat 32 vs.length), ?_, ?_, by simp, ?_, ?_⟩
  · simp only [push, hsp', hp]
  · exact (push_frame (vs := vs) (s := s) (by simp only [push, hsp', hp])).1
  · intro j hj hne
    rw [State.memRead_memWrite_other _ _ hne]
    have hm : (slot j, vs[j]!) ∈ (List.range vs.length).map fun j => (slot j, vs[j]!) :=
      List.mem_map.2 ⟨j, by simpa using hj, rfl⟩
    rw [State.memRead_writeAll ?_ hm]
    · simp [hj]
    · rw [List.map_map]
      refine List.nodup_range.map_on fun a ha b hb hab => ?_
      simp only [Function.comp] at hab
      have h1 := h a (by simpa using ha)
      rw [hab] at h1
      have he := translate_inj h1 (h b (by simpa using hb))
      simp only [List.mem_range] at ha hb
      have he : BitVec.ofNat 32 (a + 1) = BitVec.ofNat 32 (b + 1) := by bv_omega
      have he := congrArg BitVec.toNat he
      simp only [BitVec.toNat_ofNat] at he
      rw [Nat.mod_eq_of_lt (by omega), Nat.mod_eq_of_lt (by omega)] at he
      omega
  · intro qa hq ho
    rw [State.memRead_memWrite_other _ _ hq, State.memRead_writeAll_other]
    intro c hc
    obtain ⟨j, hj, rfl⟩ := List.mem_map.1 hc
    exact ho j (by simpa using hj)

/-! ## The VM table holds no sentinel row (R85, R87) -/

theorem installVmTable_noSentinel {s : State} (h : VmDescriptor.sentinel ∉ s.vmTable) :
    VmDescriptor.sentinel ∉ (installVmTable s).state.vmTable := by
  cases hi : installVmTable s with
  | done t => obtain ⟨rows, hr, rfl⟩ := installVmTable_done hi; exact parseVmRows_noSentinel hr
  | fatal r t => obtain ⟨rfl, -⟩ := installVmTable_fatal hi; exact h

theorem saveSlot_noSentinel (k : Nat) {s : State} (h : VmDescriptor.sentinel ∉ s.vmTable) :
    VmDescriptor.sentinel ∉ (saveSlot k s).state.vmTable := by
  unfold saveSlot
  split
  · exact h
  · split
    · exact h
    next sp _ =>
      have hf := writeRow_frame s (s.vmtbl.toNat + 9 * k) (s.context sp).words
      cases hw : s.writeRow (s.vmtbl.toNat + 9 * k) (s.context sp).words with
      | done w =>
        rw [hw] at hf
        change w = _ at hf
        exact installVmTable_noSentinel (by rw [hf]; exact h)
      | fatal r w =>
        rw [hw] at hf
        change w = _ at hf
        show _ ∉ w.vmTable
        rw [hf]
        exact h

theorem loadSlot_noSentinel (k : Nat) {s : State} (h : VmDescriptor.sentinel ∉ s.vmTable) :
    VmDescriptor.sentinel ∉ (loadSlot k s).state.vmTable := by
  obtain ⟨t, ht, hf⟩ := loadSlot_frame k s
  rw [ht, hf]
  exact h

theorem Eff.noSentinel_andThen {e : Eff} {f : State → Eff}
    (h : VmDescriptor.sentinel ∉ e.state.vmTable)
    (hf : ∀ s : State, VmDescriptor.sentinel ∉ s.vmTable →
      VmDescriptor.sentinel ∉ (f s).state.vmTable) :
    VmDescriptor.sentinel ∉ (e.andThen f).state.vmTable := by
  cases e with
  | done s => exact hf s h
  | fatal r s => exact h

theorem pushFrame_noSentinel (ws : List Word) {s : State}
    (h : VmDescriptor.sentinel ∉ s.vmTable) :
    VmDescriptor.sentinel ∉ (pushFrame ws s).state.vmTable := by
  unfold pushFrame
  split
  · exact h
  next s' hs => rw [Eff.state_done, (push_frame hs).1]; exact h

theorem vmExit_noSentinel (reason : Word) (extra : List Word) {s : State}
    (h : VmDescriptor.sentinel ∉ s.vmTable) :
    VmDescriptor.sentinel ∉ (vmExit reason extra s).state.vmTable :=
  Eff.noSentinel_andThen
    (Eff.noSentinel_andThen (saveSlot_noSentinel _ h) fun _ h => loadSlot_noSentinel 0 h)
    fun g hg => pushFrame_noSentinel _ (s := g.leaveGuest) hg

theorem deliver_noSentinel (ev : Event) {s : State} (h : VmDescriptor.sentinel ∉ s.vmTable) :
    VmDescriptor.sentinel ∉ (deliver ev s).state.vmTable := by
  cases ev with
  | fatal r => exact h
  | vmExit reason ip extra => exact vmExit_noSentinel _ _ (s := s.jump ip) h
  | interrupt n ret extra =>
    simp only [deliver, deliverInterrupt]
    split
    · exact h
    · split
      · exact vmExit_noSentinel _ _ (s := s.jump ret) h
      · exact Eff.noSentinel_andThen (pushFrame_noSentinel _ h) fun g hg => hg

theorem resumeGuest_noSentinel (next id : Word) {s : State}
    (h : VmDescriptor.sentinel ∉ s.vmTable) :
    VmDescriptor.sentinel ∉ (resumeGuest next id s).state.vmTable :=
  Eff.noSentinel_andThen
    (Eff.noSentinel_andThen (saveSlot_noSentinel 0 (s := s.jump next) h)
      fun _ h => loadSlot_noSentinel _ h)
    fun _ hg => hg

/-! ## What a context switch leaves in memory (R330, R331, R314) -/

/-- SaveSlot writes no word outside its row. -/
theorem saveSlot_other {k : Nat} {s t : State} (h : saveSlot k s = .done t) {pa : Word}
    (hpa : pa.toNat < s.vmtbl.toNat + 9 * k ∨ s.vmtbl.toNat + 9 * k + 9 ≤ pa.toNat) :
    t.memRead pa = s.memRead pa := by
  obtain ⟨sp, w, -, hw, -, ht⟩ := saveSlot_done h
  rw [ht]
  exact (writeRow_done hw).2.2.2 _ hpa

/-- LoadSlot writes the word that holds r30 in the loaded context, and no other. -/
theorem loadSlot_other {k : Nat} {s t : State} (h : loadSlot k s = .done t) :
    ∃ spAddr, regAddr 30 t = .ok spAddr ∧
      ∀ pa, pa ≠ spAddr → t.memRead pa = s.memRead pa := by
  obtain ⟨d, spAddr, -, hsp, rfl⟩ := loadSlot_done h
  exact ⟨spAddr, by simpa using hsp, fun pa hpa => State.memRead_memWrite_other _ _ hpa⟩

/-- A push writes r30's word and the frame that then lies from SP up, and no other word. -/
theorem push_other {vs : List Word} {s t : State} {spAddr : Word} (h : push vs s = .ok t)
    (hsp : regAddr 30 s = .ok spAddr) {pa : Word} (hpa : pa ≠ spAddr)
    (hf : ∀ j, j < vs.length →
      translate .stack (t.memRead spAddr + BitVec.ofNat 32 j) t ≠ .ok pa) :
    t.memRead pa = s.memRead pa := by
  obtain ⟨a, slots, ha, hs, rfl⟩ := push_ok h
  obtain rfl : a = spAddr := Except.ok.inj (ha.symm.trans hsp)
  rw [State.memRead_memWrite_other _ _ hpa, State.memRead_writeAll_other]
  intro c hc hcp
  obtain ⟨j, hj, rfl⟩ := List.getElem_of_mem hc
  obtain ⟨hm, ht⟩ := pushSlots_ok hs
  have hl : slots.length = vs.length := by rw [← hm, List.length_map]
  refine hf (vs.length - 1 - j) (by omega) ?_
  have hidx : s.memRead a - BitVec.ofNat 32 vs.length + BitVec.ofNat 32 (vs.length - 1 - j) =
      s.memRead a - BitVec.ofNat 32 (j + 1) := by
    obtain ⟨m, hm⟩ : ∃ m, vs.length = m + (j + 1) := ⟨vs.length - (j + 1), by omega⟩
    rw [hm, show m + (j + 1) - 1 - j = m by omega, BitVec.ofNat_add m (j + 1)]
    generalize BitVec.ofNat 32 (j + 1) = y
    generalize BitVec.ofNat 32 m = x
    bv_omega
  have := ht j hj
  rw [← hcp] at this
  simpa [hidx] using this

/-! ## The mode (R345) -/

theorem Eff.toOutcome_inVM {e : Eff} {t : State} (h : e.toOutcome = .next t) :
    t.inVM = e.state.inVM := by
  cases e <;> cases h <;> rfl

theorem pushFrame_inVM (ws : List Word) (s : State) : (pushFrame ws s).state.inVM = s.inVM := by
  unfold pushFrame
  split
  · rfl
  next u hu => rw [Eff.state_done, (push_frame hu).1]

/-- Delivering an interrupt in host mode stays in it, also where it ends in a fatal error. -/
theorem deliver_host_inVM {n ret : Word} {extra : List Word} {s : State} (hv : s.inVM = false) :
    (deliver (.interrupt n ret extra) s).state.inVM = false := by
  have hp := (pushFrame_inVM (extra ++ [ret]) s).trans hv
  simp only [deliver, deliverInterrupt, hv, Bool.false_eq_true, if_false]
  split
  · exact hv
  · cases h : pushFrame (extra ++ [ret]) s <;> rw [h] at hp <;> exact hp

/-- A delivery that leaves guest mode is a VM-exit. -/
theorem deliver_leaves_guest {ev : Event} {s : State} (hv : s.inVM = true)
    (ht : (deliver ev s).state.inVM = false) :
    ∃ reason guestIp extra, deliver ev s = deliver (.vmExit reason guestIp extra) s := by
  cases ev with
  | fatal r => exact absurd (hv.symm.trans ht) (by decide)
  | vmExit reason guestIp extra => exact ⟨reason, guestIp, extra, rfl⟩
  | interrupt n ret extra =>
    by_cases hn : Config.maxInterrupt < n
    · simp only [deliver, deliverInterrupt, if_pos hn] at ht
      exact absurd (hv.symm.trans ht) (by decide)
    · exact ⟨0, ret, extra ++ [n], by
        simp only [deliver, deliverInterrupt, if_neg hn, hv, if_true]; rfl⟩

/-! ## The timer (R141, R350) -/

theorem State.tick_frame (s : State) :
    s.tick = { s with counter := s.tick.counter, tp := s.tick.tp, int := s.tick.int } := by
  unfold State.tick
  split <;> (try split) <;> rfl

/-- Stage 1 either delivers the timer interrupt or ticks. -/
theorem timerService_done {s t : State} (h : timerService s = .done t) :
    deliver (.interrupt 4 s.ip []) { s with tp := false } = .done t ∨ t = s.tick := by
  unfold timerService at h
  split at h
  next => exact .inl h
  next => cases h; exact .inr rfl

end Sys2Proof.Machine
end

