-- ==== Sys2Proof/Laws/Wf.lean ====
section
/-! SUPPORT. Every operation that writes memory keeps its canonical form. -/

namespace Sys2Proof.Machine

theorem State.wf_memWrite {s : State} (pa v : Word) (h : s.mem.wf) : (s.memWrite pa v).mem.wf :=
  Memory.wf_write v h (Nat.le_of_lt_succ pa.isLt)

theorem State.wf_writeAll {s : State} (l : List (Word × Word)) (h : s.mem.wf) :
    (s.writeAll l).mem.wf := by
  induction l generalizing s with
  | nil => exact h
  | cons c l ih => exact ih (s.wf_memWrite c.1 c.2 h)

theorem State.wf_writePhys {s t : State} {a v : Nat} (h : s.mem.wf)
    (hw : s.writePhys a v = .ok t) : t.mem.wf := by
  obtain ⟨ha, -, rfl⟩ := writePhys_ok hw
  exact Memory.wf_write _ h ha

theorem State.wf_writeRow {s : State} (a : Nat) (ws : List Word) (h : s.mem.wf) :
    (s.writeRow a ws).state.mem.wf := by
  induction ws generalizing s a with
  | nil => exact h
  | cons w ws ih =>
    simp only [State.writeRow]
    split
    next s' hs => exact ih _ (State.wf_writePhys h hs)
    next => exact h

theorem wf_writeReg {i : RegIdx} {v : Word} {s t : State} (h : s.mem.wf)
    (hw : writeReg i v s = .ok t) : t.mem.wf := by
  obtain ⟨pa, -, rfl⟩ := writeReg_ok hw
  exact State.wf_memWrite _ _ h

theorem wf_push {vs : List Word} {s t : State} (h : s.mem.wf) (hp : push vs s = .ok t) :
    t.mem.wf := by
  obtain ⟨spAddr, slots, -, -, rfl⟩ := push_ok hp
  exact State.wf_memWrite _ _ (State.wf_writeAll _ h)

theorem wf_pop {s t : State} {v : Word} (h : s.mem.wf) (hp : pop s = .ok (v, t)) : t.mem.wf := by
  obtain ⟨spAddr, pa, -, -, -, rfl⟩ := pop_ok hp
  exact State.wf_memWrite _ _ h

theorem wf_installVmTable {s : State} (h : s.mem.wf) : (installVmTable s).state.mem.wf := by
  unfold installVmTable
  split <;> exact h

theorem wf_saveSlot (k : Nat) {s : State} (h : s.mem.wf) : (saveSlot k s).state.mem.wf := by
  unfold saveSlot
  split
  · exact h
  · split
    next => exact h
    next sp hsp =>
      have hw := s.wf_writeRow (s.vmtbl.toNat + 9 * k) (s.context sp).words h
      cases hr : s.writeRow (s.vmtbl.toNat + 9 * k) (s.context sp).words with
      | fatal r w => rw [hr] at hw; exact hw
      | done w => rw [hr] at hw; exact wf_installVmTable hw

theorem wf_loadSlot (k : Nat) {s : State} (h : s.mem.wf) : (loadSlot k s).state.mem.wf := by
  unfold loadSlot
  split
  next => exact h
  next d hd =>
    split
    next => exact h
    next s' hs => exact wf_writeReg (s := s.loadContext d) h hs

theorem wf_pushFrame (ws : List Word) {s : State} (h : s.mem.wf) :
    (pushFrame ws s).state.mem.wf := by
  unfold pushFrame
  split
  next => exact h
  next s' hs => exact wf_push h hs

theorem Eff.wf_andThen {e : Eff} {f : State → Eff} (h : e.state.mem.wf)
    (hf : ∀ s : State, s.mem.wf → (f s).state.mem.wf) : (e.andThen f).state.mem.wf := by
  cases e with
  | done s => exact hf s h
  | fatal r s => exact h

theorem wf_vmExit (reason : Word) (extra : List Word) {s : State} (h : s.mem.wf) :
    (vmExit reason extra s).state.mem.wf :=
  Eff.wf_andThen (Eff.wf_andThen (wf_saveSlot _ h) fun _ h => wf_loadSlot 0 h)
    fun g hg => wf_pushFrame _ (s := g.leaveGuest) hg

theorem wf_deliver (ev : Event) {s : State} (h : s.mem.wf) : (deliver ev s).state.mem.wf := by
  cases ev with
  | fatal r => exact h
  | vmExit reason ip extra => exact wf_vmExit _ _ (s := s.jump ip) h
  | interrupt n ret extra =>
    simp only [deliver, deliverInterrupt]
    split
    · exact h
    · split
      · exact wf_vmExit _ _ (s := s.jump ret) h
      · exact Eff.wf_andThen (wf_pushFrame _ h) fun g hg => hg

theorem wf_resumeGuest (next id : Word) {s : State} (h : s.mem.wf) :
    (resumeGuest next id s).state.mem.wf :=
  Eff.wf_andThen (Eff.wf_andThen (wf_saveSlot 0 (s := s.jump next) h) fun _ h => wf_loadSlot _ h)
    fun _ hg => hg

theorem wf_writeSpr (n : SpecialReg) (v : Word) {s : State} (h : s.mem.wf) :
    (writeSpr n v s).state.mem.wf := by
  obtain ⟨t, ht, hf⟩ := writeSpr_frame n v s
  rw [ht, hf]
  exact h

theorem wf_writeBlob {ws : List Word} {a : Nat} {s t : State} (h : s.mem.wf)
    (hw : writeBlob a ws s = .ok t) : t.mem.wf := by
  induction ws generalizing a s with
  | nil => cases hw; exact h
  | cons w ws ih =>
    simp only [writeBlob, hostWriteWord] at hw
    split at hw
    next => cases hw
    next s' hs => exact ih (State.wf_writePhys h hs) hw

theorem wf_placeCode (s at_ : State) (off w : Word) (h : s.mem.wf) :
    (s.placeCode at_ off w).mem.wf := by
  unfold State.placeCode
  split
  next => exact h
  next => exact State.wf_memWrite _ _ h

end Sys2Proof.Machine
end

