-- ==== Sys2Proof/Tests/Slice0.lean ====
section
/-! SUPPORT. Tests of one step or one operation each, with results from spec/95_test_vectors.md and
the rules' own examples, and for every obligation with hypotheses a state and operands that meet
them (`witness_<obligation>`). -/

namespace Sys2Proof.Machine.Slice0

/-! ## States -/

/-- Power-on, with some memory words written. -/
def stateOf (cells : List (Nat × Word)) : State :=
  { State.reset with mem := cells.foldl (fun m c => m.write c.1 c.2) [] }

/-- Flat mode with r0, r1 and SP set, and `w` at address 0. -/
def flat (w r0 r1 sp : Word) (cells : List (Nat × Word)) : State :=
  stateOf ([(0, w), (0x2000, r0), (0x2001, r1), (0x201E, sp)] ++ cells)

/-- The segment table of 95 §2.10, CS = 0, DS = ES = 1, RS = 2, SS = 3. -/
def segmented (cells : List (Nat × Word)) : State :=
  { stateOf cells with
    segInstalled := true
    segTable := [⟨0, 0x1FFF, .code, 0⟩, ⟨0x3000, 0x30FF, .data, 0⟩, ⟨0x2000, 0x201E, .register, 0⟩,
      ⟨0x4000, 0x40FF, .stack, 0⟩, ⟨0x5000, 0x4FFF, .data, 0⟩]
    ds := 1, es := 1, rs := 2, ss := 3 }

/-- The VM table of 95 §2.12, installed, with slot 0 as the VMRESUME at 4 saves it. -/
def withGuest (cells : List (Nat × Word)) : State :=
  { stateOf ([(0x5000, 0), (0x5001, 0), (0x5002, 0), (0x5003, 0), (0x5004, 0), (0x5005, 6),
      (0x5006, 0x4000), (0x5007, 0), (0x5008, 0), (0x5009, 0), (0x500A, 0), (0x500B, 0),
      (0x500C, 0), (0x500D, 0), (0x500E, 0x100), (0x500F, 0x6000), (0x5010, 0), (0x5011, 3)]
      ++ cells) with
    vmtbl := 0x5000
    vmInstalled := true
    vmTable := [⟨0, 0, 0, 0, 0, 6, 0x4000, 0, 0⟩, ⟨0, 0, 0, 0, 0, 0x100, 0x6000, 0, 3⟩] }

/-- The host of 95 §2.12 at its VMRESUME. -/
def host (cells : List (Nat × Word)) : State :=
  { withGuest ([(0x201E, 0x4000)] ++ cells) with ip := 4 }

/-- Its guest at 0x100, in slot 1 at CPL 3. -/
def guest (cells : List (Nat × Word)) : State :=
  { withGuest ([(0x201E, 0x6000)] ++ cells) with ip := 0x100, cpl := 3, inVM := true, vmID := 1 }

/-- The same guest under a segment table in which slot 0 names a Register segment at RS = 0. -/
def segmentedGuest : State :=
  { guest [] with
    segInstalled := true
    segTable := [⟨0x2000, 0x201E, .register, 0⟩] }

/-- What one step leaves, seen through `f`. -/
def after {α : Type} (s : State) (f : State → α) : Option α :=
  match step s with
  | .next t => some (f t)
  | _ => none

/-- r0, IP and Flags after a step. -/
def r0 (t : State) : Word × Word × Word := (t.memRead 0x2000, t.ip, t.flags)

/-- The word at SP, SP, and IP after a step in flat mode. -/
def top (t : State) : Word × Word × Word :=
  (t.memRead (t.memRead 0x201E), t.memRead 0x201E, t.ip)

/-! ## Well-formedness (R120): an Immediate in a written role is refused, for each such role -/

theorem smoke_add : (Instr.add 0 .imm (.reg 0)).wellFormed = false := by decide
theorem smoke_sub : (Instr.sub 0 .imm (.reg 0)).wellFormed = false := by decide
theorem smoke_mul : (Instr.mul 0 .imm (.reg 0)).wellFormed = false := by decide
theorem smoke_div : (Instr.div 0 .imm (.reg 0)).wellFormed = false := by decide
theorem smoke_mod : (Instr.mod 0 .imm (.reg 0)).wellFormed = false := by decide
theorem smoke_or : (Instr.or 0 .imm (.reg 0)).wellFormed = false := by decide
theorem smoke_xor : (Instr.xor 0 .imm (.reg 0)).wellFormed = false := by decide
theorem smoke_and : (Instr.and 0 .imm (.reg 0)).wellFormed = false := by decide
theorem smoke_not : (Instr.not 0 .imm (.reg 0)).wellFormed = false := by decide
theorem smoke_shl : (Instr.shl 0 .imm (.reg 0)).wellFormed = false := by decide
theorem smoke_shr : (Instr.shr 0 .imm (.reg 0)).wellFormed = false := by decide
theorem smoke_mov : (Instr.mov 0 .imm (.reg 0)).wellFormed = false := by decide
theorem smoke_getargument : (Instr.getargument 0 .imm (.reg 0)).wellFormed = false := by decide
theorem smoke_pop : (Instr.pop 0 .imm).wellFormed = false := by decide
/-- The same form in a read role is well formed. -/
theorem smoke_read_role : (Instr.cmp 0 .imm .imm).wellFormed = true ∧
    (Instr.push 0 .imm).wellFormed = true := by decide

/-! ## Decoding: each word written out from R100, R101, R102 and R110 -/

/-- `OP r0, r1`: d1 = 1*32 + 0 = 0x20, d2 = 1*32 + 1 = 0x21 (95 §2.1, §2.2). -/
theorem test_decode_arithmetic :
    decode 0x21200001 = .ok (.add 0 (.reg 0) (.reg 1)) ∧
    decode 0x21200002 = .ok (.sub 0 (.reg 0) (.reg 1)) ∧
    decode 0x21200003 = .ok (.mul 0 (.reg 0) (.reg 1)) ∧
    decode 0x21200004 = .ok (.div 0 (.reg 0) (.reg 1)) ∧
    decode 0x21200005 = .ok (.mod 0 (.reg 0) (.reg 1)) :=
  ⟨rfl, rfl, rfl, rfl, rfl⟩

theorem test_decode_logic :
    decode 0x21200006 = .ok (.or 0 (.reg 0) (.reg 1)) ∧
    decode 0x21200007 = .ok (.xor 0 (.reg 0) (.reg 1)) ∧
    decode 0x21200008 = .ok (.and 0 (.reg 0) (.reg 1)) ∧
    decode 0x21200009 = .ok (.not 0 (.reg 0) (.reg 1)) ∧
    decode 0x2120000A = .ok (.shl 0 (.reg 0) (.reg 1)) ∧
    decode 0x2120000B = .ok (.shr 0 (.reg 0) (.reg 1)) ∧
    decode 0x2120000C = .ok (.mov 0 (.reg 0) (.reg 1)) ∧
    decode 0x2120000D = .ok (.cmp 0 (.reg 0) (.reg 1)) :=
  ⟨rfl, rfl, rfl, rfl, rfl, rfl, rfl, rfl⟩

/-- 95 §2.3, §2.4: an Immediate is d1 = 0x1F, r5 is 0x25, `[disp]` is 0x5F. -/
theorem test_decode_control :
    decode 0x1F25000E = .ok (.jmp 0 (.reg 5)) ∧
    decode 0x1F5F000E = .ok (.jmp 0 (.single .ds none)) ∧
    decode 0x1F1F000F = .ok (.jz 0 .imm) ∧
    decode 0x1F1F0010 = .ok (.jnz 0 .imm) ∧
    decode 0x1F1F0011 = .ok (.jgt 0 .imm) ∧
    decode 0x1F1F0012 = .ok (.jge 0 .imm) ∧
    decode 0x1F3E0013 = .ok (.call 0 (.reg 30)) ∧
    decode 0x1F1F0014 = .ok (.ret 0) ∧
    decode 0x1F1F0015 = .ok (.retn 0 .imm) :=
  ⟨rfl, rfl, rfl, rfl, rfl, rfl, rfl, rfl, rfl⟩

theorem test_decode_stack :
    decode 0x1F1F0016 = .ok (.enter 0) ∧
    decode 0x1F1F0017 = .ok (.leave 0) ∧
    decode 0x1F200018 = .ok (.getargument 0 (.reg 0) .imm) ∧
    decode 0x1F3E0019 = .ok (.push 0 (.reg 30)) ∧
    decode 0x1F20001A = .ok (.pop 0 (.reg 0)) :=
  ⟨rfl, rfl, rfl, rfl, rfl⟩

/-- 95 §2.12: `!3` is byte 1 = 3. -/
theorem test_decode_system :
    decode 0x1F1F031B = .ok (.int 3 .imm) ∧
    decode 0x1F1F001C = .ok (.reti 0) ∧
    decode 0x1F1F031D = .ok (.vmresume 3 .imm) ∧
    decode 0x1F1F031E = .ok (.cli 3) ∧
    decode 0x1F1F031F = .ok (.sti 3) ∧
    decode 0x1F1F0320 = .ok (.print 3 .imm) ∧
    decode 0x1F1F0321 = .ok (.halt 3) :=
  ⟨rfl, rfl, rfl, rfl, rfl, rfl, rfl⟩

/-- The operand forms of 95 §2.5, one word each. -/
theorem test_decode_operands :
    decode 0x9F20000C = .ok (.mov 0 (.reg 0) (.double .ds none)) ∧
    decode 0x8120000C = .ok (.mov 0 (.reg 0) (.double .ds (some 1))) ∧
    decode 0x1F41000C = .ok (.mov 0 (.single .ds (some 1)) .imm) ∧
    decode 0x5F5F000C = .ok (.mov 0 (.single .ds none) (.single .ds none)) ∧
    decode 0x1F7F000C = .ok (.mov 0 (.single .es none) .imm) ∧
    decode 0xBE20000C = .ok (.mov 0 (.reg 0) (.double .es (some 30))) ∧
    decode 0x1FC8000C = .ok (.mov 0 (.special .compare) .imm) ∧
    decode 0xC720000C = .ok (.mov 0 (.reg 0) (.special .counter)) :=
  ⟨rfl, rfl, rfl, rfl, rfl, rfl, rfl, rfl⟩

/-- 95 §2.6: the illegal words, each by the condition of R121 that refuses it, and two words whose
unused descriptors are ignored. -/
theorem test_decode_illegal :
    decode 0x00000000 = .error .unknownOpcode ∧
    decode 0xFFFFFFFF = .error .unknownOpcode ∧
    decode 0x1F1F0022 = .error .unknownOpcode ∧
    decode 0x1F1F000C = .error .immediateWritten ∧
    decode 0xE020000C = .error .undefinedTag ∧
    decode 0x1F3F000C = .error .registerIndex31 ∧
    decode 0x1FCA000C = .error .specialRegisterIndex ∧
    decode 0xFFFFFF21 = .ok (.halt 255) ∧
    decode 0xFF1F0014 = .ok (.ret 0) :=
  ⟨rfl, rfl, rfl, rfl, rfl, rfl, rfl, rfl, rfl⟩

/-- The special registers are numbered 0 to 9 in the order of R30. -/
theorem test_special_numbers :
    [SpecialReg.segtbl, .vmtbl, .cs, .ds, .es, .rs, .ss, .counter, .compare, .int].map
      SpecialReg.number = [0, 1, 2, 3, 4, 5, 6, 7, 8, 9] := by decide

/-- R103: the extra-word count follows the used operands alone. -/
theorem test_length :
    (Instr.mov 0 (.single .ds none) .imm).length = 3 ∧ (Instr.ret 0).length = 1 ∧
    (Instr.add 0 (.reg 0) (.special .int)).length = 1 ∧ (Instr.call 0 .imm).length = 2 := by decide

/-- The host's reading of a word: a row's word with an Immediate destination is illegal (R121.5). -/
theorem test_decodeTableWord :
    decodeTableWord 32 0x1F1F0021 = some (.halt 0) ∧
    decodeTableWord 64 0x51F20000C = some (.mov 0 (.reg 0) .imm) ∧
    decodeTableWord 32 0x00000001 = none := by decide

/-- Images are little-endian (R65), and a partial word is none. -/
theorem test_image : imageWords [0x0C, 0x00, 0x20, 0x1F] = some [0x1F20000C] ∧
    imageWords [0x0C, 0x00] = none ∧ bytesOfWord 0x1F20000C = [0x0C, 0x00, 0x20, 0x1F] := by decide

/-! ## One step of each instruction -/

/-- 95 §2.1. -/
theorem test_add_wraps : after (flat 0x21200001 0xFFFFFFFF 1 0x4000 []) r0 = some (0, 1, 0) := by
  decide
theorem test_sub_borrows : after (flat 0x21200002 0 1 0x4000 []) r0 = some (0xFFFFFFFF, 1, 0) := by
  decide
/-- `SUB r0, r0`: both operands are read before the result is stored. -/
theorem test_sub_same : after (flat 0x20200002 5 1 0x4000 []) r0 = some (0, 1, 0) := by decide
theorem test_mul_low : after (flat 0x21200003 0xFFFFFFFF 0xFFFFFFFF 0x4000 []) r0 =
    some (1, 1, 0) := by decide
theorem test_mul_overflow : after (flat 0x21200003 0x10000 0x10000 0x4000 []) r0 =
    some (0, 1, 0) := by decide
theorem test_div_unsigned : after (flat 0x21200004 0xFFFFFFFF 2 0x4000 []) r0 =
    some (0x7FFFFFFF, 1, 0) := by decide
theorem test_div_by_zero : after (flat 0x21200004 9 0 0x4000 []) (fun t => (top t, r0 t)) =
    some ((0, 0x3FFF, 0x1000), (9, 0x1000, 0)) := by decide
theorem test_mod : after (flat 0x21200005 17 5 0x4000 []) r0 = some (2, 1, 0) := by decide
theorem test_mod_by_zero : after (flat 0x21200005 9 0 0x4000 []) (fun t => (top t, r0 t)) =
    some ((0, 0x3FFF, 0x1000), (9, 0x1000, 0)) := by decide
theorem test_or : after (flat 0x21200006 0xF0 0x0F 0x4000 []) r0 = some (0xFF, 1, 0) := by decide
theorem test_xor : after (flat 0x21200007 0xFF00 0x0FF0 0x4000 []) r0 = some (0xF0F0, 1, 0) := by
  decide
theorem test_and : after (flat 0x21200008 0xF0F0 0xFF00 0x4000 []) r0 = some (0xF000, 1, 0) := by
  decide
/-- NOT is XOR and no complement. -/
theorem test_not_is_xor : after (flat 0x21200009 0xFFFF 0xF 0x4000 []) r0 =
    some (0xFFF0, 1, 0) := by decide
theorem test_shl_31 : after (flat 0x2120000A 1 31 0x4000 []) r0 = some (0x80000000, 1, 0) := by
  decide
theorem test_shl_32 : after (flat 0x2120000A 1 32 0x4000 []) r0 = some (0, 1, 0) := by decide
theorem test_shr_logical : after (flat 0x2120000B 0x80000000 31 0x4000 []) r0 =
    some (1, 1, 0) := by decide
theorem test_shr_32 : after (flat 0x2120000B 0x1234 32 0x4000 []) r0 = some (0, 1, 0) := by decide
/-- 95 §2.5: the base register is added before the first dereference. -/
theorem test_mov_double : after (stateOf [(0, 0x8120000C), (1, 0x10), (0x2001, 4), (0x14, 0x30),
    (0x30, 9)]) r0 = some (9, 2, 0) := by decide
/-- 95 §2.11: installing a one-row table. -/
theorem test_mov_segtbl : after (stateOf [(0, 0x1FC0000C), (1, 0x800), (0x800, 0x2000),
    (0x801, 0x201E), (0x802, 2), (0x803, 0)]) (fun t => (t.segTable, t.segInstalled, t.ip)) =
    some ([⟨0x2000, 0x201E, .register, 0⟩], true, 2) := by decide
/-- 95 §2.2: bits 31:2 of Flags are kept. -/
theorem test_cmp_keeps_bits : after ({ flat 0x2120000D 3 5 0x4000 [] with flags := 0xFFFFFFFF }) r0 =
    some (3, 1, 0xFFFFFFFC) := by decide
theorem test_cmp_unsigned : after (flat 0x2120000D 0xFFFFFFFF 0 0x4000 []) r0 =
    some (0xFFFFFFFF, 1, 2) := by decide

/-- 95 §2.3: IP after a branch to 40, by the Flags word. -/
def branch (w flags : Word) : Option Word :=
  after ({ stateOf [(0, w), (1, 40)] with flags := flags }) (fun t => t.ip)

theorem test_jmp_memory : after (stateOf [(0, 0x1F5F000E), (1, 0x10), (0x10, 0x20)])
    (fun t => t.ip) = some 0x20 := by decide
theorem test_jz : [0, 1, 2, 3].map (branch 0x1F1F000F) = [some 2, some 40, some 2, some 40] := by
  decide
theorem test_jnz : [0, 1, 2, 3].map (branch 0x1F1F0010) = [some 40, some 2, some 40, some 2] := by
  decide
theorem test_jgt : [0, 1, 2, 3].map (branch 0x1F1F0011) = [some 2, some 2, some 40, some 2] := by
  decide
theorem test_jge : [0, 1, 2, 3].map (branch 0x1F1F0012) = [some 2, some 2, some 40, some 40] := by
  decide

/-- 95 §2.4. -/
theorem test_call : after (stateOf [(0, 0x1F1F0013), (1, 0x40), (0x201E, 0x4000)]) top =
    some (2, 0x3FFF, 0x40) := by decide
theorem test_call_r30 : after (stateOf [(0, 0x1F3E0013), (0x201E, 0x4000)]) top =
    some (1, 0x3FFF, 0x4000) := by decide
theorem test_ret : after (stateOf [(0, 0x1F1F0014), (0x201E, 0x3FFF), (0x3FFF, 12)])
    (fun t => (t.ip, t.memRead 0x201E)) = some (12, 0x4000) := by decide
theorem test_retn : after (stateOf [(0, 0x1F1F0015), (1, 1), (0x201E, 0x3FFE), (0x3FFE, 6)])
    (fun t => (t.ip, t.memRead 0x201E)) = some (6, 0x4000) := by decide
theorem test_retn_wraps : after (stateOf [(0, 0x1F1F0015), (1, 0xFFFFFFFF), (0x201E, 0x3FFE),
    (0x3FFE, 6)]) (fun t => (t.ip, t.memRead 0x201E)) = some (6, 0x3FFE) := by decide
theorem test_enter : after (stateOf [(0, 0x1F1F0016), (0x201E, 0x3FFE), (0x201D, 0x1234)])
    (fun t => (top t, t.memRead 0x201D)) = some ((0x1234, 0x3FFD, 1), 0x3FFD) := by decide
theorem test_leave : after (stateOf [(0, 0x1F1F0017), (0x201E, 0x3FF0), (0x201D, 0x3FFD),
    (0x3FFD, 0x77)]) (fun t => (t.memRead 0x201E, t.memRead 0x201D, t.ip)) =
    some (0x3FFE, 0x77, 1) := by decide
theorem test_getargument : after (stateOf [(0, 0x1F200018), (1, 1), (0x201D, 0x3FFD),
    (0x4000, 9)]) r0 = some (9, 2, 0) := by decide
theorem test_push_r30 : after (stateOf [(0, 0x1F3E0019), (0x201E, 0x4000)]) top =
    some (0x4000, 0x3FFF, 1) := by decide
theorem test_push_wraps : after (stateOf [(0, 0x1F1F0019), (1, 7), (0x201E, 0)]) top =
    some (7, 0xFFFFFFFF, 2) := by decide
theorem test_pop : after (stateOf [(0, 0x1F20001A), (0x201E, 0x3FFF), (0x3FFF, 7)])
    (fun t => (t.memRead 0x2000, t.memRead 0x201E, t.ip)) = some (7, 0x4000, 1) := by decide
theorem test_pop_r30 : after (stateOf [(0, 0x1F3E001A), (0x201E, 0x3FFF), (0x3FFF, 7)])
    (fun t => t.memRead 0x201E) = some 7 := by decide

/-- 95 §2.8. -/
theorem test_int : after ({ stateOf [(10, 0x1F1F001B), (11, 5), (0x201E, 0x4000)] with ip := 10 })
    top = some (12, 0x3FFF, 0x100A) := by decide
theorem test_int_33 : after (stateOf [(0, 0x1F1F001B), (1, 33), (0x201E, 0x4000)])
    (fun t => (t.status, t.outcome)) =
    some (.fatal .interruptNumberOutOfRange, .fatal .interruptNumberOutOfRange) := by decide
theorem test_reti : after ({ stateOf [(0, 0x1F1F001C), (0x201E, 0x3FFF), (0x3FFF, 12)] with
    ie := true }) (fun t => (t.ip, t.memRead 0x201E, t.ie)) = some (12, 0x4000, true) := by decide
theorem test_cli : after ({ stateOf [(0, 0x1F1F001E)] with ie := true })
    (fun t => (t.ie, t.ip)) = some (false, 1) := by decide
theorem test_cli_guest : after (guest [(0x100, 0x1F1F031E)]) (fun t => (top t, t.inVM, t.cpl,
    t.memRead 0x3FFE, t.memRead 0x3FFF)) = some ((1, 0x3FFD, 6), false, 0, 4, 0x1E) := by decide
theorem test_sti : after (stateOf [(0, 0x1F1F001F)]) (fun t => (t.ie, t.ip)) =
    some (true, 1) := by decide
theorem test_sti_guest : after (guest [(0x100, 0x1F1F031F)]) (fun t => (top t, t.ie, t.inVM,
    t.memRead 0x3FFE, t.memRead 0x3FFF)) = some ((1, 0x3FFD, 6), false, false, 4, 0x1F) := by decide
/-- 95 §2.9. -/
theorem test_print_low_byte : after (stateOf [(0, 0x1F1F0020), (1, 0x169)])
    (fun t => (t.console, t.ip)) = some ([0x69], 2) := by decide
/-- 95 §2.12: no byte; reason 2 and the full operand, and slot 1's IP past the PRINT. -/
theorem test_print_guest : after (guest [(0x100, 0x1F1F0320), (0x101, 0x141)])
    (fun t => (t.console, top t, t.memRead 0x3FFE, t.memRead 0x3FFF, t.memRead 0x500E)) =
    some ([], (1, 0x3FFD, 6), 2, 0x141, 0x102) := by decide
theorem test_halt : after (stateOf [(0, 0x1F1F0021)]) (fun t => (t.outcome, t.ip)) =
    some (.stop, 0) := by decide
theorem test_halt_guest : after (guest [(0x100, 0x1F1F0321)])
    (fun t => (t.outcome, top t, t.memRead 0x3FFF, t.memRead 0x500E)) =
    some (.continue, (1, 0x3FFE, 6), 3, 0x101) := by decide
/-- 95 §2.12: the guest starts at its slot's IP, SP and CPL; slot 0 holds the host past VMRESUME. -/
theorem test_vmresume : after (host [(4, 0x1F1F001D), (5, 1)])
    (fun t => ((t.inVM, t.vmID, t.ip, t.cpl), t.memRead 0x201E, t.memRead 0x5005, t.memRead 0x5006)) =
    some ((true, 1, 0x100, 3), 0x6000, 6, 0x4000) := by decide
theorem test_vmresume_0 : after (host [(4, 0x1F1F001D), (5, 0)]) (fun t => (top t, t.inVM)) =
    some ((4, 0x3FFF, 0x1002), false) := by decide

/-! ## Events, translation and the timer -/

/-- 95 §2.6: an illegal word. -/
theorem test_illegal_word : after (stateOf [(0, 0xE020000C), (0x201E, 0x4000)]) top =
    some (0, 0x3FFF, 0x1002) := by decide
/-- 95 §2.7: CPL 3 and priv 2; the violation exits with reason 0 and n = 3. -/
theorem test_privilege : after (guest [(0x100, 0x1F1F0221)]) (fun t => (top t, t.memRead 0x3FFE,
    t.memRead 0x3FFF, t.memRead 0x500E)) = some ((1, 0x3FFD, 6), 0, 3, 0x100) := by decide
/-- 95 §2.12: a special-register operand exits with reason 1 and its number. -/
theorem test_guest_special : after (guest [(0x100, 0xC720030C)]) (fun t => (top t, t.memRead 0x3FFE,
    t.memRead 0x3FFF, t.memRead 0x500E)) = some ((1, 0x3FFD, 6), 1, 7, 0x100) := by decide
/-- 95 §2.10: JMP 5 with its word last in the code segment. -/
theorem test_extra_word_violation : after ({ segmented [(0x1FFF, 0x1F1F000E), (0x2000, 5),
    (0x201E, 0x100)] with ip := 0x1FFF })
    (fun t => (t.memRead 0x201E, t.ip, t.memRead 0x40FD, t.memRead 0x40FE, t.memRead 0x40FF)) =
    some (0xFD, 0x1004, 0x1FFF, 0x2000, 0) := by decide
/-- 95 §2.10: the translation table. -/
theorem test_translate :
    translate .data 0xFF (segmented []) = .ok 0x30FF ∧
    translate .data 0x100 (segmented []) = .error ⟨.data, 0x100⟩ ∧
    translate .data 0 { segmented [] with ds := 0 } = .error ⟨.data, 0⟩ ∧
    translate .data 0 { segmented [] with ds := 4 } = .error ⟨.data, 0⟩ ∧
    translate .data 0 { segmented [] with ds := 5 } = .error ⟨.data, 0⟩ ∧
    translate .register 30 (segmented []) = .ok 0x201E ∧
    translate .register 31 (segmented []) = .error ⟨.register, 31⟩ ∧
    translate .stack 0xFF (segmented []) = .ok 0x40FF ∧
    translate .code 0x2000 (segmented []) = .error ⟨.code, 0x2000⟩ ∧
    translate .extra 5 (segmented []) = .ok 0x3005 :=
  ⟨rfl, rfl, rfl, rfl, rfl, rfl, rfl, rfl, rfl, rfl⟩
/-- 95 §2.11: a Register row of 30 words is malformed, and so is kind 4. -/
theorem test_malformed :
    (writeSpr .segtbl 0x800 (stateOf [(0x800, 0x2000), (0x801, 0x201D), (0x802, 2), (0x803, 0)]) =
      .fatal .malformedDescriptorTable { stateOf [(0x800, 0x2000), (0x801, 0x201D), (0x802, 2),
        (0x803, 0)] with segtbl := 0x800 }) ∧
    parseSegTable (stateOf [(0x800, 0), (0x801, 0), (0x802, 4), (0x803, 0)]).mem 0x800 =
      .error .malformedDescriptorTable := ⟨rfl, rfl⟩
/-- 95 §2.13: the step that delivers a guest's timer exits and goes on at the hypervisor. -/
theorem test_timer_guest : after { guest [(6, 0x1F1F0021), (0x100, 0x1F1F030E), (0x101, 0x100)] with
    tp := true, ie := true, counter := 4 }
    (fun t => ((t.outcome, t.tp), top t, t.memRead 0x3FFE, t.memRead 0x3FFF, t.memRead 0x500E)) =
    some ((.stop, false), (1, 0x3FFD, 6), 0, 4, 0x100) := by decide
/-- 95 §2.13: the tick that matches sets TP and clears TE alone. -/
theorem test_tick_matches : after { stateOf [(0, 0x1F1F000E), (1, 0)] with
    counter := 0, compare := 1, int := 0x81 } (fun t => (t.counter, t.tp, t.int)) =
    some (1, true, 0x80) := by decide
/-- A step after a fatal error is a fault (R41). -/
theorem test_fatal_is_final : step { State.reset with status := .fatal .doubleFault } =
    .fault (.notRunning .doubleFault) := rfl
/-- The host's way to place an instruction: the next step runs it. -/
theorem test_withFetchWord : after (State.reset.withFetchWord 32 0x1F1F001F) (fun t => t.ie) =
    some true ∧ after (State.reset.withFetchWord 64 0x51F20000C) r0 = some (5, 2, 0) := by decide
/-- R68, R60, R61: the host's writes. -/
theorem test_host_writes :
    hostWriteWord 0x100000000 0 State.reset = .error .addressOutOfBounds ∧
    hostWriteWord 0 0x100000000 State.reset = .error .dataOutOfBounds ∧
    loadImage [1, 2] State.reset = .ok (stateOf [(0, 1), (1, 2)]) ∧
    resultingInstructionAddress (segmented []) = .ok 0 := ⟨rfl, rfl, rfl, rfl⟩

/-! ## Witnesses: a state and operands that meet each obligation's hypotheses -/

theorem witness_DecodeEncodeRoundTrip :
    (Instr.mov 255 (.double .es none) (.special .int)).wellFormed = true ∧
    (Instr.pop 0 (.reg 30)).wellFormed = true ∧ (Instr.cmp 0 .imm .imm).wellFormed = true := by decide

theorem witness_EncodeDecodeKeepsFields :
    decode 0xC75F030C = .ok (.mov 3 (.single .ds none) (.special .counter)) ∧
    1 ≤ (Instr.mov 3 (.single .ds none) (.special .counter)).operands.length ∧
    2 ≤ (Instr.mov 3 (.single .ds none) (.special .counter)).operands.length ∧
    tag1Field 0xC75F030C ≠ 0 ∧ tag2Field 0xC75F030C ≠ 0 :=
  ⟨rfl, by decide, by decide, by decide, by decide⟩

theorem witness_IllegalWordsAreExactlyThose :
    decode 0 = .error .unknownOpcode ∧ (stateOf [(0, 0)]).status = .running ∧
    timerService (stateOf [(0, 0)]) = .done (stateOf [(0, 0)]) ∧
    fetch (stateOf [(0, 0)]).ip (stateOf [(0, 0)]) = .ok 0 := ⟨rfl, rfl, rfl, rfl⟩

theorem witness_StepRunsDecodedInstruction :
    (stateOf [(0, 0x1F1F001F)]).status = .running ∧
    timerService (stateOf [(0, 0x1F1F001F)]) = .done (stateOf [(0, 0x1F1F001F)]) ∧
    fetch 0 (stateOf [(0, 0x1F1F001F)]) = .ok 0x1F1F001F ∧ decode 0x1F1F001F = .ok (.sti 0) :=
  ⟨rfl, rfl, rfl, rfl⟩

/-- One word past the code segment of 95 §2.10. -/
theorem witness_FetchViolationIsDelivered :
    { segmented [] with ip := 0x2000 }.status = .running ∧
    timerService { segmented [] with ip := 0x2000 } = .done { segmented [] with ip := 0x2000 } ∧
    fetch 0x2000 { segmented [] with ip := 0x2000 } = .error ⟨.code, 0x2000⟩ := ⟨rfl, rfl, rfl⟩

/-- A running state, a fatal one, and one whose timer delivery finds no Stack segment. -/
theorem witness_StepRunsExactlyWhileRunning : State.reset.status = .running ∧
    { State.reset with status := .fatal .doubleFault }.status = .fatal .doubleFault ∧
    { segmented [] with ss := 0, tp := true, ie := true }.status = .running ∧
    ∃ u, timerService { segmented [] with ss := 0, tp := true, ie := true } =
      .fatal .doubleFault u := ⟨rfl, rfl, rfl, _, rfl⟩

theorem witness_StopOnlyOnHostHalt :
    ∃ t, step (stateOf [(0, 0x1F1F0021)]) = .next t ∧ t.outcome = .stop := ⟨_, rfl, rfl⟩

/-- CPL 3 against `priv` 2 and 3. -/
theorem witness_PrivilegeViolationIsDelivered :
    (Instr.halt 2).requiredPriv.zeroExtend 32 < (guest []).cpl ∧
    (guest []).cpl ≤ (Instr.halt 3).requiredPriv.zeroExtend 32 := by decide

theorem witness_OperandEventsAreDelivered :
    Permitted (.mov 0 (.single .ds none) (.reg 0)) (segmented [(1, 0x100)]) ∧
    resolve (.single .ds none) 0 (segmented [(1, 0x100)]) =
      .error (.interrupt 2 0 [1, 0x100]) ∧
    Permitted (.mov 0 (.reg 0) (.single .ds none)) (segmented [(1, 0x100), (0x2000, 7)]) ∧
    resolve (.reg 0) 0 (segmented [(1, 0x100), (0x2000, 7)]) = .ok (7, .reg 0x2000) ∧
    resolve (.single .ds none) 0 (segmented [(1, 0x100), (0x2000, 7)]) =
      .error (.interrupt 2 0 [1, 0x100]) := ⟨by decide, rfl, by decide, rfl, rfl⟩

theorem witness_GuestSpecialRegisterExits :
    Permitted (.push 3 (.special .counter)) (guest []) ∧ (guest []).inVM = true ∧
    Permitted (.mov 3 (.reg 0) (.special .int)) (guest [(0x2000, 7)]) ∧
    resolve (.reg 0) 0 (guest [(0x2000, 7)]) = .ok (7, .reg 0x2000) ∧ (host []).inVM = false :=
  ⟨by decide, rfl, by decide, rfl, rfl⟩

/-- Each clause: a literal; an extra word past the code segment; a register and no register segment;
a base register with none; a first level out of bounds; a pointer and what it points to; a second
level out of bounds. -/
theorem witness_OperandFormsResolve :
    translate .code 0x1FFF (segmented []) = .ok 0x1FFF ∧
    translate .code 0x2000 (segmented []) = .error ⟨.code, 0x2000⟩ ∧
    fetchExtra 1 (segmented [(2, 9)]) = .ok 9 ∧
    fetchExtra 0 { segmented [] with ip := 0x1FFF } = .error ⟨.code, 0x2000⟩ ∧
    regAddr 30 (segmented []) = .ok 0x201E ∧
    regAddr 30 { segmented [] with rs := 0 } = .error ⟨.register, 30⟩ ∧
    fetchExtra 0 (segmented [(1, 5)]) = .ok 5 ∧
    readReg 1 { segmented [(1, 5)] with rs := 0 } = .error ⟨.register, 1⟩ ∧
    readBase (some 1) (segmented [(1, 5), (0x2001, 0xFA)]) = .ok 0xFA ∧
    translate .data 0xFF (segmented [(1, 5), (0x2001, 0xFA)]) = .ok 0x30FF ∧
    translate .data 0x100 (segmented [(1, 6), (0x2001, 0xFA)]) = .error ⟨.data, 0x100⟩ ∧
    translate .extra ((segmented [(0x30FF, 0xFF)]).memRead 0x30FF) (segmented [(0x30FF, 0xFF)]) =
      .ok 0x30FF ∧
    translate .data ((segmented [(0x30FF, 0x100)]).memRead 0x30FF) (segmented [(0x30FF, 0x100)]) =
      .error ⟨.data, 0x100⟩ :=
  ⟨rfl, rfl, rfl, rfl, rfl, rfl, rfl, rfl, rfl, rfl, rfl, rfl, rfl⟩

theorem witness_MemoryLaw : hostWriteWord 0xFFFFFFFF 0xFFFFFFFF State.reset = .ok State.reset ∧
    hostReadWord 0xFFFFFFFF State.reset = .ok 0xFFFFFFFF := ⟨rfl, rfl⟩

theorem witness_MemoryBounds : Memory.wf [(0x3000, 1)] ∧ Memory.read [(0x3000, 1)] 0x2FFF =
    0xFFFFFFFF ∧ hostReadWord 0x100000000 State.reset = .error .addressOutOfBounds :=
  ⟨by decide, by decide, rfl⟩

theorem witness_CanonicalMemoriesAgree : Memory.wf [(0, 1), (0xFFFFFFFF, 2)] ∧
    ∀ a, a ≤ 0xFFFFFFFF → Memory.read [(0, 1), (0xFFFFFFFF, 2)] a =
      Memory.read (Memory.write (Memory.write [] 0xFFFFFFFF 2) 0 1) a :=
  ⟨by decide, fun _ _ => rfl⟩

/-- The last address, and an empty write past it. -/
theorem witness_WriteBlobWritesInOrder :
    0xFFFFFFFF + ([7] : List Word).length ≤ 0x100000000 ∧
    0x100000000 + ([] : List Word).length ≤ 0x100000000 := by decide

theorem witness_TranslationRule : translate .register 30 (segmented []) = .ok 0x201E ∧
    translate .register 31 (segmented []) = .error ⟨.register, 31⟩ ∧
    translate .register 0xFFFFFFFF State.reset = .ok 0x1FFF := ⟨rfl, rfl, rfl⟩

theorem witness_FlatRegistersAreMemoryWords : State.reset.segInstalled = false := rfl

/-- r0 and r30 in a Register segment, and RS naming none. -/
theorem witness_RegistersAreWordsOfTheirRole : regAddr 0 (segmented []) = .ok 0x2000 ∧
    regAddr 30 (segmented []) = .ok 0x201E ∧
    regAddr 30 { segmented [] with rs := 0 } = .error ⟨.register, 30⟩ := ⟨rfl, rfl, rfl⟩

/-- The address check at its boundary, the sentinel, both malformations, and a good row. -/
theorem witness_SegTableParseRule :
    0xFFFFFFFF < 0xFFFFFFFD + 3 ∧ 0xFFFFFFFC + 3 ≤ 0xFFFFFFFF ∧
    Memory.read [] 0xFFFFFFFC = 0xFFFFFFFF ∧
    3 < (Memory.read [(0, 0), (1, 0), (2, 4), (3, 0)] 2).toNat ∧
    (Memory.read [(0, 0x2000), (1, 0x201D), (2, 2), (3, 0)] 1).toNat -
      (Memory.read [(0, 0x2000), (1, 0x201D), (2, 2), (3, 0)] 0).toNat + 1 ≠ 31 ∧
    parseSegRows [(0, 0x2000), (1, 0x201E), (2, 2), (3, 0)] 5 4 = .ok [] ∧
    parseSegRows [(0, 0), (1, 0), (2, 0), (3, 0), (6, 4)] 6 4 =
      .error .malformedDescriptorTable :=
  ⟨by decide, by decide, by decide, by decide, by decide, rfl, rfl⟩

theorem witness_VmTableParseRule :
    0xFFFFFFFF < 0xFFFFFFF8 + 8 ∧ 0xFFFFFFF7 + 8 ≤ 0xFFFFFFFF ∧
    (∀ j, j < 9 → Memory.read [] (0xFFFFFFF7 + j) = 0xFFFFFFFF) ∧
    ¬(∀ j, j < 9 → Memory.read [(0, 0)] (0 + j) = 0xFFFFFFFF) ∧
    parseVmRows [(0, 0)] 2 9 = .ok [] ∧
    parseVmRows [(0xFFFFFFF7, 0)] 2 0x100000000 = .error .addressOutOfBounds :=
  ⟨by decide, by decide, by decide, by decide, rfl, rfl⟩

/-- The hypotheses that the result statements share: the privilege check passes and both operands
resolve, operand 1 to a register, a memory word and a special register, at its extreme values. -/
theorem witness_two_operands :
    (flat 0 0xFFFFFFFF 0 0 []).cpl ≤ (0 : Byte).zeroExtend 32 ∧
    resolve (.reg 0) 0 (flat 0 0xFFFFFFFF 0 0 []) = .ok (0xFFFFFFFF, .reg 0x2000) ∧
    resolve (.reg 1) 0 (flat 0 0xFFFFFFFF 0 0 []) = .ok (0, .reg 0x2001) ∧
    (guest []).cpl ≤ (3 : Byte).zeroExtend 32 ∧
    resolve (.single .ds none) 0 (guest [(0x101, 0x10), (0x10, 5), (0x102, 31)]) =
      .ok (5, .mem 0x10) ∧
    resolve .imm 1 (guest [(0x101, 0x10), (0x10, 5), (0x102, 31)]) = .ok (31, .none) ∧
    resolve (.special .segtbl) 0 (stateOf [(1, 32)]) = .ok (0, .spr .segtbl) ∧
    resolve .imm 0 (stateOf [(1, 32)]) = .ok (32, .none) :=
  ⟨by decide, rfl, rfl, by decide, rfl, rfl, rfl, rfl⟩

theorem witness_ArithmeticResults : (flat 0 1 1 0 []).cpl ≤ (0 : Byte).zeroExtend 32 ∧
    resolve (.reg 0) 0 (flat 0 1 1 0 []) = .ok (1, .reg 0x2000) ∧
    resolve (.reg 1) 0 (flat 0 1 1 0 []) = .ok (1, .reg 0x2001) := ⟨by decide, rfl, rfl⟩

/-- A divisor of 0 and of 1. -/
theorem witness_DivisionResults : (flat 0 9 0 0 []).cpl ≤ (0 : Byte).zeroExtend 32 ∧
    resolve (.reg 0) 0 (flat 0 9 0 0 []) = .ok (9, .reg 0x2000) ∧
    resolve (.reg 1) 0 (flat 0 9 0 0 []) = .ok (0, .reg 0x2001) ∧
    resolve (.reg 1) 0 (flat 0 9 1 0 []) = .ok (1, .reg 0x2001) := ⟨by decide, rfl, rfl, rfl⟩

/-- `v = 0xFF` is the OR and the XOR of 0xF0 and 0x0F, and 0 is their AND. -/
theorem witness_BitwiseResults :
    resolve (.reg 0) 0 (flat 0 0xF0 0x0F 0 []) = .ok (0xF0, .reg 0x2000) ∧
    resolve (.reg 1) 0 (flat 0 0xF0 0x0F 0 []) = .ok (0x0F, .reg 0x2001) ∧
    (∀ k, k < 32 → (0xFF : Word).getLsbD k =
      ((0xF0 : Word).getLsbD k || (0x0F : Word).getLsbD k)) ∧
    (∀ k, k < 32 → (0xFF : Word).getLsbD k =
      ((0xF0 : Word).getLsbD k != (0x0F : Word).getLsbD k)) ∧
    (∀ k, k < 32 → (0 : Word).getLsbD k =
      ((0xF0 : Word).getLsbD k && (0x0F : Word).getLsbD k)) :=
  ⟨rfl, rfl, by decide, by decide, by decide⟩

/-- A count of 31 and of 32. -/
theorem witness_ShiftResults :
    resolve (.reg 0) 0 (flat 0 1 31 0 []) = .ok (1, .reg 0x2000) ∧
    resolve (.reg 1) 0 (flat 0 1 31 0 []) = .ok (31, .reg 0x2001) ∧
    resolve (.reg 1) 0 (flat 0 1 32 0 []) = .ok (32, .reg 0x2001) := ⟨rfl, rfl, rfl⟩

/-- MOV to SEGTBL, of a table that parses and of one that does not. -/
theorem witness_MoveResult :
    resolve (.special .segtbl) 0 (stateOf [(1, 0x800)]) = .ok (0, .spr .segtbl) ∧
    resolve .imm 0 (stateOf [(1, 0x800)]) = .ok (0x800, .none) ∧
    parseSegTable (stateOf [(1, 0x800)]).mem 0x800 = .ok [] ∧
    parseSegTable (stateOf [(1, 0x800), (0x802, 4)]).mem 0x800 =
      .error .malformedDescriptorTable ∧
    parseVmTable (stateOf [(1, 0x800)]).mem 0x800 = .ok [] ∧
    parseVmTable (stateOf []).mem 0xFFFFFFF8 = .error .addressOutOfBounds :=
  ⟨rfl, rfl, rfl, rfl, rfl, rfl⟩

theorem witness_CompareSetsFlags :
    resolve .imm 0 (stateOf [(1, 3), (2, 3)]) = .ok (3, .none) ∧
    resolve .imm (Operand.extraWords .imm) (stateOf [(1, 3), (2, 3)]) = .ok (3, .none) := ⟨rfl, rfl⟩

theorem witness_JumpsFollowFlags :
    resolve .imm 0 { stateOf [(1, 40)] with flags := 2 } = .ok (40, .none) ∧
    (2 : Word).getLsbD 1 = true ∧ (2 : Word).getLsbD 0 = false ∧
    (3 : Word).getLsbD 0 = true ∧ (0 : Word).getLsbD 1 = false :=
  ⟨rfl, by decide, by decide, by decide, by decide⟩

/-- The first word of the stack segment of 95 §2.10. -/
theorem witness_PushAndCallStoreOneWord :
    resolve .imm 0 (segmented [(1, 7), (0x201E, 1)]) = .ok (7, .none) ∧
    regAddr 30 (segmented [(1, 7), (0x201E, 1)]) = .ok 0x201E ∧
    translate .stack ((segmented [(1, 7), (0x201E, 1)]).memRead 0x201E - 1)
      (segmented [(1, 7), (0x201E, 1)]) = .ok 0x4000 ∧ (0x4000 : Word) ≠ 0x201E :=
  ⟨rfl, rfl, rfl, by decide⟩

/-- Its last word. -/
theorem witness_ReturnsPopIp :
    regAddr 30 (segmented [(1, 7), (0x201E, 0xFF)]) = .ok 0x201E ∧
    translate .stack ((segmented [(1, 7), (0x201E, 0xFF)]).memRead 0x201E)
      (segmented [(1, 7), (0x201E, 0xFF)]) = .ok 0x40FF ∧
    resolve .imm 0 (segmented [(1, 7), (0x201E, 0xFF)]) = .ok (7, .none) := ⟨rfl, rfl, rfl⟩

theorem witness_EnterBuildsFrame :
    regAddr 30 (segmented [(0x201E, 1)]) = .ok 0x201E ∧
    regAddr 29 (segmented [(0x201E, 1)]) = .ok 0x201D ∧
    translate .stack ((segmented [(0x201E, 1)]).memRead 0x201E - 1) (segmented [(0x201E, 1)]) =
      .ok 0x4000 ∧ (0x4000 : Word) ≠ 0x201E ∧ (0x4000 : Word) ≠ 0x201D :=
  ⟨rfl, rfl, rfl, by decide, by decide⟩

theorem witness_LeaveRestoresFrame :
    regAddr 30 (segmented [(0x201D, 0xFF)]) = .ok 0x201E ∧
    regAddr 29 (segmented [(0x201D, 0xFF)]) = .ok 0x201D ∧
    translate .stack ((segmented [(0x201D, 0xFF)]).memRead 0x201D) (segmented [(0x201D, 0xFF)]) =
      .ok 0x40FF := ⟨rfl, rfl, rfl⟩

theorem witness_GetArgumentReadsFrame :
    resolve (.reg 0) 0 (stateOf [(1, 1), (0x201D, 0x3FFD), (0x2000, 5)]) = .ok (5, .reg 0x2000) ∧
    resolve .imm 0 (stateOf [(1, 1), (0x201D, 0x3FFD), (0x2000, 5)]) = .ok (1, .none) ∧
    regAddr 29 (stateOf [(1, 1), (0x201D, 0x3FFD), (0x2000, 5)]) = .ok 0x201D ∧
    translate .stack ((stateOf [(1, 1), (0x201D, 0x3FFD), (0x2000, 5)]).memRead 0x201D + 2 + 1)
      (stateOf [(1, 1), (0x201D, 0x3FFD), (0x2000, 5)]) = .ok 0x4000 := ⟨rfl, rfl, rfl, rfl⟩

/-- POP r30: the target is SP's own word. -/
theorem witness_PopStoresAfterSp :
    resolve (.reg 30) 0 (stateOf [(0x201E, 0x3FFF), (0x3FFF, 7)]) = .ok (0x3FFF, .reg 0x201E) ∧
    regAddr 30 (stateOf [(0x201E, 0x3FFF), (0x3FFF, 7)]) = .ok 0x201E ∧
    translate .stack ((stateOf [(0x201E, 0x3FFF), (0x3FFF, 7)]).memRead 0x201E)
      (stateOf [(0x201E, 0x3FFF), (0x3FFF, 7)]) = .ok 0x3FFF := ⟨rfl, rfl, rfl⟩

/-- No register segment; and SP or FP one word outside the stack segment. -/
theorem witness_StackViolationsAreDelivered :
    resolve .imm 0 { segmented [(1, 7)] with rs := 0 } = .ok (7, .none) ∧
    resolve (.single .ds none) 0 { segmented [(1, 7)] with rs := 0 } =
      .ok (0xFFFFFFFF, .mem 0x3007) ∧
    regAddr 30 { segmented [(1, 7)] with rs := 0 } = .error ⟨.register, 30⟩ ∧
    regAddr 29 { segmented [(1, 7)] with rs := 0 } = .error ⟨.register, 29⟩ ∧
    regAddr 30 (segmented [(1, 7), (0x201E, 0), (0x201D, 0x100)]) = .ok 0x201E ∧
    regAddr 29 (segmented [(1, 7), (0x201E, 0), (0x201D, 0x100)]) = .ok 0x201D ∧
    translate .stack (0 - 1) (segmented [(1, 7), (0x201E, 0), (0x201D, 0x100)]) =
      .error ⟨.stack, 0xFFFFFFFF⟩ ∧
    translate .stack 0x100 (segmented [(1, 7), (0x201E, 0x100), (0x201D, 0x100)]) =
      .error ⟨.stack, 0x100⟩ ∧
    resolve (.reg 0) 1 (segmented [(0x2000, 0)]) = .ok (0, .reg 0x2000) ∧
    translate .stack (0xFE + 2 + 0) (segmented [(0x201D, 0xFE)]) = .error ⟨.stack, 0x100⟩ :=
  ⟨rfl, rfl, rfl, rfl, rfl, rfl, rfl, rfl, rfl, rfl⟩

/-- Numbers 32 and 33. -/
theorem witness_IntDeliversItsNumber :
    resolve .imm 0 (segmented [(1, 32), (0x201E, 1)]) = .ok (32, .none) ∧
    resolve .imm 0 (stateOf [(1, 33)]) = .ok (33, .none) ∧
    (segmented [(1, 32), (0x201E, 1)]).inVM = false ∧
    regAddr 30 (segmented [(1, 32), (0x201E, 1)]) = .ok 0x201E ∧
    translate .stack ((segmented [(1, 32), (0x201E, 1)]).memRead 0x201E - 1)
      (segmented [(1, 32), (0x201E, 1)]) = .ok 0x4000 := ⟨rfl, rfl, rfl, rfl, rfl⟩

/-- Guest mode; slot 0, slot 2 of two rows, and no table; a resume that completes; one whose save and
one whose load is fatal. -/
theorem witness_VmresumeEntersGuest :
    resolve .imm 0 (guest [(0x101, 1)]) = .ok (1, .none) ∧
    (host [(5, 2)]).vmTable.length = 2 ∧ resolve .imm 0 (host [(5, 2)]) = .ok (2, .none) ∧
    State.reset.vmInstalled = false ∧
    resolve .imm 0 (host [(5, 1)]) = .ok (1, .none) ∧ (host [(5, 1)]).inVM = false ∧
    (∃ h g, saveSlot 0 { host [(5, 1)] with ip := 6 } = .done h ∧ loadSlot 1 h = .done g) ∧
    (∃ h, saveSlot 0 { host [(5, 1)] with vmtbl := 0xFFFFFFF8, ip := 6 } =
      .fatal .addressOutOfBounds h) ∧
    ∃ h g, saveSlot 0 { segmented [(0x600, 1), (0x609, 0), (0x60A, 1), (0x60D, 0)] with
        vmtbl := 0x600, vmInstalled := true, ip := 6 } = .done h ∧
      loadSlot 1 h = .fatal .contextSwitch g :=
  ⟨rfl, rfl, rfl, rfl, rfl, rfl, ⟨_, _, rfl, rfl⟩, ⟨_, rfl⟩, ⟨_, _, rfl, rfl⟩⟩

theorem witness_CliStiSetIe : (host []).cpl ≤ (0 : Byte).zeroExtend 32 ∧
    (host []).inVM = false ∧ (guest []).cpl ≤ (3 : Byte).zeroExtend 32 ∧ (guest []).inVM = true := by
  decide

theorem witness_PrintAndHalt : (host []).inVM = false ∧
    resolve .imm 0 (host [(5, 0x141)]) = .ok (0x141, .none) ∧ (guest []).inVM = true ∧
    resolve .imm 0 (guest [(0x101, 65)]) = .ok (65, .none) := ⟨rfl, rfl, rfl, rfl⟩

/-- A three-word frame that just fits the stack segment, one that does not, and no SP. -/
theorem witness_InterruptDelivery :
    (segmented [(0x201E, 3)]).inVM = false ∧ (guest []).inVM = true ∧
    regAddr 30 (segmented [(0x201E, 3)]) = .ok 0x201E ∧
    (∀ j, j < ([1, 0x100] ++ [0x10] : List Word).length →
      translate .stack ((segmented [(0x201E, 3)]).memRead 0x201E - BitVec.ofNat 32 (j + 1))
        (segmented [(0x201E, 3)]) = .ok (BitVec.ofNat 32 (0x4002 - j))) ∧
    translate .stack ((segmented [(0x201E, 2)]).memRead 0x201E - BitVec.ofNat 32 (2 + 1))
      (segmented [(0x201E, 2)]) = .error ⟨.stack, 0xFFFFFFFF⟩ ∧
    regAddr 30 { segmented [] with rs := 0 } = .error ⟨.register, 30⟩ :=
  ⟨rfl, rfl, rfl, fun j hj => by
    rcases j with _ | _ | _ | j
    · rfl
    · rfl
    · rfl
    · exact absurd (show j + 3 < 3 from hj) (by omega), rfl, rfl⟩

/-- A frame that fits; a save past the end of memory; a slot 0 that the re-parse does not find; a
frame that leaves the hypervisor's stack segment. -/
theorem witness_VmExitDelivery :
    (∃ saved h, saveSlot (guest []).vmID.toNat { guest [] with ip := 0x102 } = .done saved ∧
      loadSlot 0 saved = .done h ∧ regAddr 30 h = .ok 0x201E ∧
      ∀ j, j < ([65] ++ [2, 1] : List Word).length →
        translate .stack (h.memRead 0x201E - BitVec.ofNat 32 (j + 1)) h =
          .ok (BitVec.ofNat 32 (0x3FFF - j))) ∧
    (∃ u, saveSlot 1 { guest [] with vmtbl := 0xFFFFFFF0 } = .fatal .addressOutOfBounds u) ∧
    (∃ saved, saveSlot 1 { guest [] with vmtbl := 0x7000 } = .done saved ∧
      ∃ u, loadSlot 0 saved = .fatal .contextSwitch u) ∧
    ∃ saved h, saveSlot 1 segmentedGuest = .done saved ∧ loadSlot 0 saved = .done h ∧
      regAddr 30 h = .ok 0x201E ∧
      translate .stack (h.memRead 0x201E - BitVec.ofNat 32 (0 + 1)) h = .error ⟨.stack, 0x3FFF⟩ :=
  ⟨⟨_, _, rfl, rfl, rfl, fun j hj => by
    rcases j with _ | _ | _ | j
    · rfl
    · rfl
    · rfl
    · exact absurd (show j + 3 < 3 from hj) (by omega)⟩,
   ⟨_, rfl⟩, ⟨_, rfl, _, rfl⟩, _, _, rfl, rfl, rfl, rfl⟩

/-- The address past the end; SP unreadable; a row across the end; the last row that fits, whose
re-parse runs past the end; a row that is saved. -/
theorem witness_SaveSlotRule :
    0xFFFFFFFF < (0xFFFFFFFF : Word).toNat + 9 * 1 ∧
    readReg 30 { segmented [] with rs := 0 } = .error ⟨.register, 30⟩ ∧
    readReg 30 (host []) = .ok 0x4000 ∧
    0xFFFFFFFF < (0xFFFFFFF8 : Word).toNat + 9 * 0 + 8 ∧
    (0xFFFFFFF7 : Word).toNat + 9 * 0 + 8 ≤ 0xFFFFFFFF ∧
    (∃ u, saveSlot 0 { host [] with vmtbl := 0xFFFFFFF7 } = .fatal .addressOutOfBounds u) ∧
    ∃ u, saveSlot 1 (host []) = .done u :=
  ⟨by decide, rfl, rfl, by decide, by decide, ⟨_, rfl⟩, ⟨_, rfl⟩⟩

theorem witness_LoadSlotRule : (host []).vmTable.length ≤ 2 ∧
    (host []).vmTable[1]? = some ⟨0, 0, 0, 0, 0, 0x100, 0x6000, 0, 3⟩ ∧
    regAddr 30 (host []) = .ok 0x201E ∧
    regAddr 30 { segmented [] with rs := 0 } = .error ⟨.register, 30⟩ :=
  ⟨by decide, rfl, rfl, rfl⟩

theorem witness_LoadSaveRoundTrip :
    ∃ t u, loadSlot 1 (host []) = .done t ∧ saveSlot 1 t = .done u := ⟨_, _, rfl, rfl⟩

/-- The words just below the saved row of slot 1, and the word above the frame at 0x3FFD; and the word
above row 0 after a VMRESUME. -/
theorem witness_ContextSwitchKeepsSharedState :
    (∃ t, vmExit 2 [65] (guest []) = .done t ∧ regAddr 30 t = .ok 0x201E ∧
      t.memRead 0x201E = 0x3FFD ∧ (0x5008 : Word).toNat < 0x5000 + 9 * 1 ∧
      ∀ j, j < 3 → translate .stack (0x3FFD + BitVec.ofNat 32 j) t ≠ .ok 0x4000) ∧
    ∃ t, exec (.vmresume 0 .imm) (host [(5, 1)]) = .next t ∧ (host [(5, 1)]).inVM = false ∧
      t.inVM = true ∧ regAddr 30 t = .ok 0x201E ∧ 0x5000 + 9 ≤ (0x5009 : Word).toNat :=
  ⟨⟨_, rfl, rfl, rfl, by decide, by decide⟩, _, rfl, rfl, rfl, rfl, by decide⟩

theorem witness_TimerServiceRule :
    ({ State.reset with tp := true, ie := true }.tp = true ∧
      { State.reset with tp := true, ie := true }.ie = true) ∧
    ¬(({ State.reset with int := 0x81, compare := 1 }).tp = true ∧
      ({ State.reset with int := 0x81, compare := 1 }).ie = true) ∧
    (0x81 : Word).getLsbD 0 = true ∧ State.reset.int.getLsbD 0 = false := by decide

theorem witness_TimerMatchesOnTick :
    ({ State.reset with int := 1, counter := 0xFFFFFFFE, compare := 1 }).int.getLsbD 0 = true ∧
    ({ State.reset with int := 1, counter := 0xFFFFFFFE, compare := 1 }).tp = false := by decide

theorem witness_GuestChangesOnlyItsOwnState :
    ∃ t, exec (.add 3 (.reg 0) (.reg 1)) (guest []) = .next t ∧ (guest []).inVM = true ∧
      t.inVM = true ∧ t.status = .running := ⟨_, rfl, rfl, rfl, rfl⟩

theorem witness_WritesStayInSegments :
    ∃ t, exec (.mov 0 (.single .ds none) .imm) (segmented [(1, 0xFF), (2, 7)]) = .next t ∧
      (segmented [(1, 0xFF), (2, 7)]).segInstalled = true ∧ t.status = .running ∧
      t.inVM = false ∧ t.memRead 0x30FF ≠ (segmented [(1, 0xFF), (2, 7)]).memRead 0x30FF :=
  ⟨_, rfl, rfl, rfl, rfl, by decide⟩

/-- A host VMRESUME enters, a guest HALT leaves, and stage 1 leaves with TP and IE set, or stays. -/
theorem witness_GuestModeEntryAndExit :
    (∃ t, exec (.vmresume 0 .imm) (host [(5, 1)]) = .next t ∧ t.inVM = true) ∧
    (∃ t, exec (.halt 3) (guest []) = .next t ∧ t.inVM = false) ∧
    (∃ t, timerService { guest [] with tp := true, ie := true } = .done t ∧ t.inVM = false) ∧
    timerService (host []) = .done (host []) ∧ (host []).inVM = false :=
  ⟨⟨_, rfl, rfl⟩, ⟨_, rfl, rfl⟩, ⟨_, rfl, rfl⟩, rfl, rfl⟩

theorem witness_CplChangesOnlyBySwitch :
    (∃ t, exec (.ret 3) (guest []) = .next t ∧ t.status = .running ∧
      t.inVM = (guest []).inVM) ∧ timerService (host []) = .done (host []) :=
  ⟨⟨_, rfl, rfl, rfl⟩, rfl⟩

theorem witness_IeChangesOnlyByCliSti :
    (∃ t, exec (.sti 0) State.reset = .next t ∧ t.ie ≠ State.reset.ie) ∧
    timerService (host []) = .done (host []) := ⟨⟨_, rfl, by decide⟩, rfl⟩

theorem witness_FlagsChangeOnlyByCmp :
    (∃ t, exec (.cmp 0 (.reg 0) (.reg 0)) State.reset = .next t ∧ t.status = .running ∧
      t.inVM = State.reset.inVM ∧ t.flags ≠ State.reset.flags) ∧
    ∃ t, timerService { host [] with tp := true, ie := true } = .done t ∧
      t.inVM = (host []).inVM := ⟨⟨_, rfl, rfl, rfl, by decide⟩, _, rfl, rfl⟩

theorem witness_ConsoleGrowsOnlyByPrint :
    (∃ t, exec (.print 0 .imm) (stateOf [(1, 0x48)]) = .next t ∧
      t.console ≠ (stateOf [(1, 0x48)]).console) ∧
    ∃ t, timerService { guest [] with tp := true, ie := true } = .done t :=
  ⟨⟨_, rfl, by decide⟩, _, rfl⟩

/-- A guest of a machine with both tables installed meets the invariant, and steps. -/
theorem witness_StepKeepsInvariant :
    { guest [] with segInstalled := true, segTable := (segmented []).segTable, vmTable :=
      (guest []).vmTable }.Inv ∧
    ∃ t, step { guest [] with segInstalled := true, segTable := (segmented []).segTable, vmTable :=
      (guest []).vmTable } = .next t := by
  refine ⟨⟨by decide, by decide, by decide, by decide, by decide, by decide, by decide,
    fun r => ⟨fun h => ?_, fun h => ?_⟩⟩, ⟨_, rfl⟩⟩
  · cases h
  · cases h

theorem witness_ResetMeetsInvariant : (stateOf [(0, 1), (0xFFFFFFFF, 2)]).mem.wf := by decide

end Sys2Proof.Machine.Slice0
end

section
/-! SUPPORT. The two parameters of the privilege check (00_scope.md R6): what the test compares at
each value of `PRIV_LITERAL`, and what a violation comes to at each value of `PRIV_POLICY`. -/

namespace Sys2Proof.Machine

/-! ## The test (R148, C1) -/

/-- The test compares whole words; a byte widened to a word keeps its number. -/
theorem toNat_zeroExtend_priv (p : Byte) : (p.zeroExtend 32).toNat = p.toNat :=
  BitVec.toNat_setWidth_of_le (by decide)

theorem privViolation_literal_iff (cpl : Word) (p : Byte) :
    privViolation true cpl p = true ↔ cpl.toNat < p.toNat := by
  simp only [privViolation, if_true, decide_eq_true_eq, BitVec.lt_def, toNat_zeroExtend_priv]

theorem privViolation_default_iff (cpl : Word) (p : Byte) :
    privViolation false cpl p = true ↔ p.toNat < cpl.toNat := by
  simp only [privViolation, Bool.false_eq_true, if_false, decide_eq_true_eq, BitVec.lt_def,
    toNat_zeroExtend_priv]

/-! ## The event (R149, C9) -/

theorem privEvent_interrupt (ip : Word) : privEvent .interrupt ip = .interrupt 3 ip [] := rfl

theorem privEvent_stop (ip : Word) : privEvent .stop ip = .fatal .privilegeViolation := rfl

theorem deliver_fatal (r : FatalReason) (s : State) : deliver (.fatal r) s = .fatal r s := rfl

/-- Settles O11: the test at both values of `PRIV_LITERAL` and the event at both values of
`PRIV_POLICY`, each by its own lemma. -/
theorem privilegeParameters : Obligations.PrivilegeParameters := by
  intro cpl ip p s
  have hstop : deliver (privEvent .stop ip) s = .fatal .privilegeViolation s := by
    rw [privEvent_stop, deliver_fatal]
  exact ⟨privViolation_literal_iff cpl p, privViolation_default_iff cpl p, hstop,
    privEvent_interrupt ip⟩

end Sys2Proof.Machine
end

section
/-! SUPPORT. The machine's invariant (10_state.md R28, R39 to R41): a state in the middle of a step
is `Live`, every shared operation leaves a live state, and however a step then ends, the next state
meets `Inv`. -/

namespace Sys2Proof.Machine

/-! ## One step, by its stages (R140) -/

theorem step_fatal {s : State} {r : FatalReason} (h : s.status = .fatal r) :
    step s = .fault (.notRunning r) := by simp only [step, h]

theorem step_of_timer_fatal {s u : State} {r : FatalReason} (hr : s.status = .running)
    (ht : timerService s = .fatal r u) : step s = .next (u.die r) := by simp only [step, hr, ht]

/-- In a running state the step ends in stage 1, in the event of stages 2 and 3, or in the
instruction it decoded. -/
theorem step_running_cases {s : State} (hr : s.status = .running) :
    (∃ r u, timerService s = .fatal r u ∧ step s = .next (u.die r)) ∨
    (∃ s1 ev, timerService s = .done s1 ∧ fetchInstr s1 = .error ev ∧
      step s = (deliver ev s1).toOutcome) ∨
    ∃ s1 i, timerService s = .done s1 ∧ fetchInstr s1 = .ok i ∧ step s = exec i s1 := by
  cases ht : timerService s with
  | fatal r u => exact .inl ⟨r, u, rfl, step_of_timer_fatal hr ht⟩
  | done s1 =>
    cases hf : fetchInstr s1 with
    | error ev => exact .inr (.inl ⟨s1, ev, rfl, hf, by simp only [step, hr, ht, hf]⟩)
    | ok i => exact .inr (.inr ⟨s1, i, rfl, hf, by simp only [step, hr, ht, hf]⟩)

/-! ## Live states -/

/-- A state in the middle of a step: it meets the invariant and no fatal error has been raised. -/
structure State.Live (s : State) : Prop extends s.Inv where
  running : s.status = .running

theorem State.Live.of_step {s t : State} (h : s.Inv) (hs : step s = .next t) : s.Live := by
  refine ⟨h, ?_⟩
  cases hst : s.status with
  | running => rfl
  | fatal r => rw [step_fatal hst] at hs; cases hs

theorem State.Live.continues {s : State} (h : s.Live) : s.continues.Inv :=
  { h.toInv with fatalOutcome := fun r => by simp [h.running] }

theorem State.Live.stops {s : State} (h : s.Live) : s.stops.Inv :=
  { h.toInv with fatalOutcome := fun r => by simp [h.running] }

theorem State.Inv.die {s : State} (h : s.Inv) (r : FatalReason) : (s.die r).Inv :=
  { h with fatalOutcome := fun r' => by simp [State.die] }

/-- However an effect that left a live state ends the step, the next state meets the invariant. -/
theorem Eff.inv_of_toOutcome {e : Eff} {t : State} (h : e.state.Live) (ht : e.toOutcome = .next t) :
    t.Inv := by
  cases e with
  | done s => cases ht; exact h.continues
  | fatal r s => cases ht; exact h.toInv.die r

theorem Eff.live_andThen {e : Eff} {f : State → Eff} (h : e.state.Live)
    (hf : ∀ s : State, s.Live → (f s).state.Live) : (e.andThen f).state.Live := by
  cases e with
  | done s => exact hf s h
  | fatal r s => exact h

/-! ## Updates of one field that the invariant does not speak of, or only as canonical memory -/

section
variable {s : State}

theorem State.Live.jump (h : s.Live) (target : Word) : (s.jump target).Live := { h with }
theorem State.Live.setIe (h : s.Live) (b : Bool) : (s.setIe b).Live := { h with }
theorem State.Live.consoleOut (h : s.Live) (b : Byte) : (s.consoleOut b).Live := { h with }
theorem State.Live.compareFlags (h : s.Live) (a b : Word) : (s.compareFlags a b).Live := { h with }
theorem State.Live.clearTp (h : s.Live) : ({ s with tp := false } : State).Live := { h with }

theorem State.Live.tick (h : s.Live) : s.tick.Live := by
  rw [State.tick_eq]
  exact { h with }

theorem State.Live.memWrite (h : s.Live) (pa v : Word) : (s.memWrite pa v).Live :=
  { h with memory := State.wf_memWrite pa v h.memory }

theorem State.Live.storeSpr (h : s.Live) (n : SpecialReg) (v : Word) : (s.storeSpr n v).Live := by
  cases n <;> exact { h with }

end

/-! ## Tables and special registers (R30 to R32, R80, R85) -/

/-- A special-register write parses the table it names, or it stores its word and no more. -/
theorem writeSpr_cases (n : SpecialReg) (v : Word) (s : State) :
    (n = .segtbl ∧ writeSpr n v s = installSegTable (s.storeSpr .segtbl v)) ∨
    (n = .vmtbl ∧ writeSpr n v s = installVmTable (s.storeSpr .vmtbl v)) ∨
    writeSpr n v s = .done (s.storeSpr n v) := by
  cases n with
  | segtbl => exact .inl ⟨rfl, rfl⟩
  | vmtbl => exact .inr (.inl ⟨rfl, rfl⟩)
  | _ => exact .inr (.inr rfl)

theorem State.Live.installSegTable {s : State} (h : s.Live) : (installSegTable s).state.Live := by
  cases hi : Machine.installSegTable s with
  | fatal r t => obtain ⟨rfl, -⟩ := installSegTable_fatal hi; exact h
  | done t =>
    obtain ⟨rows, hrows, rfl⟩ := installSegTable_done hi
    exact { h with
      registerSegments := parseSegRows_register hrows
      flatMode := fun hflat => by cases hflat }

theorem State.Live.installVmTable {s : State} (h : s.Live) : (installVmTable s).state.Live := by
  cases hi : Machine.installVmTable s with
  | fatal r t => obtain ⟨rfl, -⟩ := installVmTable_fatal hi; exact h
  | done t =>
    obtain ⟨rows, hrows, rfl⟩ := installVmTable_done hi
    exact { h with
      noVmTable := fun hnone => by cases hnone
      noSentinelRow := parseVmRows_noSentinel hrows
      guestSlot := fun hguest => ⟨rfl, (h.guestSlot hguest).2⟩ }

theorem State.Live.writeSpr {s : State} (h : s.Live) (n : SpecialReg) (v : Word) :
    (writeSpr n v s).state.Live := by
  rcases writeSpr_cases n v s with ⟨-, hw⟩ | ⟨-, hw⟩ | hw
  · rw [hw]; exact (h.storeSpr .segtbl v).installSegTable
  · rw [hw]; exact (h.storeSpr .vmtbl v).installVmTable
  · rw [hw]; exact h.storeSpr n v

theorem State.Live.writeback {s : State} (h : s.Live) (t : Target) (v : Word) :
    (writeback t v s).state.Live := by
  cases t with
  | none => exact h
  | reg pa => exact h.memWrite pa v
  | mem pa => exact h.memWrite pa v
  | spr n => exact h.writeSpr n v

/-! ## Context switches and deliveries (R265, R310, R320, R333) -/

/-- A change within a context switch's frame leaves a live state where it keeps memory canonical and
the sentinel out of the VM table, installs that table or leaves it alone, and ends in a mode with a
slot that belongs to it: the old one, the hypervisor's, or a guest's. -/
theorem State.Live.of_switchFrame {s t : State} (h : s.Live) (hf : SwitchFrame s t)
    (hmem : t.mem.wf) (hrow : VmDescriptor.sentinel ∉ t.vmTable)
    (htable : t.vmInstalled = s.vmInstalled ∧ t.vmTable = s.vmTable ∨ t.vmInstalled = true)
    (hmode : (t.inVM = s.inVM ∧ t.vmID = s.vmID) ∨ (t.inVM = false ∧ t.vmID = 0) ∨
      (t.inVM = true ∧ t.vmID ≠ 0 ∧ t.vmInstalled = true)) : t.Live where
  memory := hmem
  registerSegments := by rw [hf]; exact h.registerSegments
  flatMode := by rw [hf]; exact h.flatMode
  noVmTable hnone := by
    rcases htable with ⟨hin, hrows⟩ | hin
    · rw [hrows]; exact h.noVmTable (hin ▸ hnone)
    · rw [hin] at hnone; cases hnone
  noSentinelRow := hrow
  hostSlot hhost := by
    rcases hmode with ⟨hvm, hid⟩ | ⟨-, hid⟩ | ⟨hvm, -, -⟩
    · rw [hid]; exact h.hostSlot (hvm ▸ hhost)
    · exact hid
    · rw [hvm] at hhost; cases hhost
  guestSlot hguest := by
    rcases hmode with ⟨hvm, hid⟩ | ⟨hvm, -⟩ | ⟨-, hid, hin⟩
    · obtain ⟨hold, hne⟩ := h.guestSlot (hvm ▸ hguest)
      refine ⟨?_, hid ▸ hne⟩
      rcases htable with ⟨hin, -⟩ | hin
      · exact hin.trans hold
      · exact hin
    · rw [hvm] at hguest; cases hguest
    · exact ⟨hin, hid⟩
  fatalOutcome := by rw [hf]; exact h.fatalOutcome
  running := by rw [hf]; exact h.running

theorem State.Live.of_memory_ip {s t : State} (h : s.Live)
    (ht : t = { s with mem := t.mem, ip := t.ip }) (hmem : t.mem.wf) : t.Live := by
  rw [ht]
  exact { h with memory := hmem }

theorem State.Live.deliver {s : State} (h : s.Live) (ev : Event) : (deliver ev s).state.Live := by
  obtain ⟨t, rfl, hf, htable, hmode⟩ := deliver_frame ev s
  exact h.of_switchFrame hf (wf_deliver ev h.memory) (deliver_noSentinel ev h.noSentinelRow) htable
    (hmode.imp_right .inl)

theorem State.Live.timerService {s : State} (h : s.Live) : (timerService s).state.Live := by
  unfold Machine.timerService
  split
  · exact h.clearTp.deliver (.interrupt Config.INTR_TIMER s.ip [])
  · exact h.tick

/-- VMRESUME checks that its slot is not 0 before it commits (R265). -/
theorem State.Live.resumeGuest {s : State} (h : s.Live) (next : Word) {id : Word} (hid : id ≠ 0) :
    (resumeGuest next id s).state.Live := by
  obtain ⟨t, rfl, hf, htable, hmode⟩ := resumeGuest_frame next id s
  refine h.of_switchFrame hf (wf_resumeGuest next id h.memory)
    (resumeGuest_noSentinel next id h.noSentinelRow) htable ?_
  exact hmode.imp_right fun ⟨hvm, hslot, hin⟩ => .inr ⟨hvm, fun h0 => hid (hslot.symm.trans h0), hin⟩

/-! ## Instructions and steps -/

theorem State.Live.exec {s t : State} {i : Instr} (h : s.Live) (ht : exec i s = .next t) :
    t.Inv := by
  cases exec_cases i s with
  | raised ev hev hx => exact Eff.inv_of_toOutcome (h.deliver ev) (hx.symm.trans ht)
  | stored p target v next hp hc htarget hx =>
    have hlive : p.Live := h.of_memory_ip (by rw [hp]) (hc.2 h.memory)
    refine Eff.inv_of_toOutcome (Eff.live_andThen (hlive.writeback target v) ?_) (hx.symm.trans ht)
    exact fun u hu => hu.jump next
  | moved u hu hc hx =>
    cases hx.symm.trans ht
    exact (h.of_memory_ip hu (hc.2 h.memory)).continues
  | compared p o o' a b next hi hx =>
    cases hx.symm.trans ht
    exact ((h.compareFlags a b).jump next).continues
  | toggled p b next hi hv hx =>
    cases hx.symm.trans ht
    exact ((h.setIe b).jump next).continues
  | printed p o b next hi hv hx =>
    cases hx.symm.trans ht
    exact ((h.consoleOut b).jump next).continues
  | halted p hi hv hx =>
    cases hx.symm.trans ht
    exact h.stops
  | resumed p o next id hi hv hin hid hx =>
    exact Eff.inv_of_toOutcome (h.resumeGuest next hid) (hx.symm.trans ht)

/-- Settles O56: stage 1 leaves a live state, and so does each way the step can go on. -/
theorem stepKeepsInvariant : Obligations.StepKeepsInvariant := by
  intro s t hinv hs
  have h := State.Live.of_step hinv hs
  have htimer := h.timerService
  rcases step_running_cases h.running with
    ⟨r, u, hu, hx⟩ | ⟨s1, ev, h1, -, hx⟩ | ⟨s1, i, h1, -, hx⟩
  · rw [hu] at htimer
    cases hx.symm.trans hs
    exact htimer.toInv.die r
  · rw [h1] at htimer
    exact Eff.inv_of_toOutcome (State.Live.deliver htimer ev) (hx.symm.trans hs)
  · rw [h1] at htimer
    exact State.Live.exec htimer (hx.symm.trans hs)

end Sys2Proof.Machine
end

section
/-! SUPPORT. Where a step, and an instruction, answers a next state (10_state.md R41,
40_step_cycle.md R172). -/

namespace Sys2Proof.Machine

theorem Eff.toOutcome_next (e : Eff) : ∃ t, e.toOutcome = .next t := by
  cases e <;> exact ⟨_, rfl⟩

/-- Every instruction answers a next state: no meaning faults or is refused (R158). -/
theorem exec_next (i : Instr) (s : State) : ∃ t, exec i s = .next t := by
  cases exec_cases i s with
  | raised ev hev h => rw [h]; exact Eff.toOutcome_next _
  | stored p t v next hp hc ht h => rw [h]; exact Eff.toOutcome_next _
  | moved u hu hc h => exact ⟨_, h⟩
  | compared p o o' a b next hi h => exact ⟨_, h⟩
  | toggled p b next hi hv h => exact ⟨_, h⟩
  | printed p o b next hi hv h => exact ⟨_, h⟩
  | halted p hi hv h => exact ⟨_, h⟩
  | resumed p o next id hi hv hin hid h => rw [h]; exact Eff.toOutcome_next _

theorem step_next {s : State} (hr : s.status = .running) : ∃ t, step s = .next t := by
  rcases step_running_cases hr with ⟨r, u, -, h⟩ | ⟨s1, ev, -, -, h⟩ | ⟨s1, i, -, -, h⟩
  · exact ⟨_, h⟩
  · rw [h]; exact Eff.toOutcome_next _
  · rw [h]; exact exec_next i s1

/-- Settles O7: in a running state each way of the step is a next state, and in a fatal state the
step is a fault. -/
theorem stepRunsExactlyWhileRunning : Obligations.StepRunsExactlyWhileRunning :=
  ⟨fun _ hr => step_next hr, fun _ _ hf => step_fatal hf,
    fun _ u r hr ht => ⟨u.die r, step_of_timer_fatal hr ht, rfl, rfl⟩⟩

end Sys2Proof.Machine
end

section
/-! SUPPORT. Which operands an instruction resolves, and that the event of a resolution is the
instruction's (40_step_cycle.md R150, R151, R174). -/

namespace Sys2Proof.Machine

/-- How an instruction runs: its privilege byte and its operands, in the combinator of its arity. -/
inductive RunShape (i : Instr) (s : State) : Prop where
  | none (body : Word → Except Event Effect) (ho : i.operands = [])
      (h : exec i s = run0 i.requiredPriv s body)
  | one (o : Operand) (body : Word → Word → Except Event Effect) (ho : i.operands = [o])
      (h : exec i s = run1 i.requiredPriv o s body)
  | two (o o' : Operand) (body : Word → Word → Except Event Effect) (ho : i.operands = [o, o'])
      (h : exec i s = run2 i.requiredPriv o o' s body)

/-- A jump is one level above its combinator. -/
theorem RunShape.of_jump {i : Instr} {s : State} {c : Bool} {o : Operand} (ho : i.operands = [o])
    (h : exec i s = runJump c i.requiredPriv o s) : RunShape i s := .one o _ ho h

/-- So is a two-operand instruction whose result is a function of its operands. -/
theorem RunShape.of_binary {i : Instr} {s : State} {f : Word → Word → Word} {o o' : Operand}
    (ho : i.operands = [o, o']) (h : exec i s = runBinary f i.requiredPriv o o' s) :
    RunShape i s := .two o o' _ ho h

theorem exec_shape (i : Instr) (s : State) : RunShape i s := by
  cases i with
  | jmp p o | jz p o | jnz p o | jgt p o | jge p o => exact .of_jump rfl rfl
  | add p o o' | sub p o o' | mul p o o' | or p o o' | xor p o o' | and p o o' | not p o o'
  | shl p o o' | shr p o o' | mov p o o' => exact .of_binary rfl rfl
  | ret p | enter p | leave p | reti p | cli p | sti p | halt p =>
    exact .none _ rfl (by simp only [exec]; rfl)
  | call p o | retn p o | push p o | pop p o | int p o | vmresume p o | print p o =>
    exact .one o _ rfl (by simp only [exec]; rfl)
  | cmp p o o' | div p o o' | mod p o o' | getargument p o o' =>
    exact .two o o' _ rfl (by simp only [exec]; rfl)

/-- An event of operand 1's resolution is the instruction's, whatever the instruction (R150). -/
theorem raises_of_operand1 {i : Instr} {o : Operand} {rest : List Operand} {s : State} {ev : Event}
    (hp : Permitted i s) (ho : i.operands = o :: rest) (hr : resolve o 0 s = .error ev) :
    Raises i s ev := by
  cases exec_shape i s with
  | none body ho' h => rw [ho'] at ho; cases ho
  | one o' body ho' h =>
    rw [ho'] at ho
    cases ho
    exact h.trans (run1_resolve_raises hp hr)
  | two o' o'' body ho' h =>
    rw [ho'] at ho
    cases ho
    exact h.trans (run2_resolve1_raises hp hr)

/-- An event of operand 2's resolution is the instruction's, where operand 1 resolved (R151). -/
theorem raises_of_operand2 {i : Instr} {o o' : Operand} {s : State} {r : Word × Target} {ev : Event}
    (hp : Permitted i s) (ho : i.operands = [o, o']) (hr : resolve o 0 s = .ok r)
    (hr' : resolve o' o.extraWords s = .error ev) : Raises i s ev := by
  cases exec_shape i s with
  | none body ho' h => rw [ho'] at ho; cases ho
  | one o1 body ho' h => rw [ho'] at ho; cases ho
  | two o1 o2 body ho' h =>
    rw [ho'] at ho
    cases ho
    exact h.trans (run2_resolve2_raises hp hr hr')

/-- In guest mode a special register is not read: the access exits (R38, R156). -/
theorem resolve_special_guest (n : SpecialReg) (e : Nat) {s : State} (hv : s.inVM = true) :
    resolve (.special n) e s = .error (.vmExit 1 s.ip [BitVec.ofNat 32 n.number]) := by
  simp only [resolve, hv, if_true]
  rfl

theorem resolve_special_host (n : SpecialReg) (e : Nat) {s : State} (hv : s.inVM = false) :
    resolve (.special n) e s = .ok (s.readSpr n, .spr n) := by
  simp only [resolve, hv, Bool.false_eq_true, if_false]

/-- Settles O13: a special register's resolution in guest mode is an event, and the event of either
operand's resolution is the instruction's. -/
theorem guestSpecialRegisterExits : Obligations.GuestSpecialRegisterExits :=
  ⟨fun _ n _ _ hp hv ho => raises_of_operand1 hp ho (resolve_special_guest n 0 hv),
    fun _ o n _ _ hp hv ho hr =>
      raises_of_operand2 hp ho hr (resolve_special_guest n o.extraWords hv),
    fun n e _ hv => resolve_special_host n e hv, fun _ => rfl⟩

end Sys2Proof.Machine
end

section
/-! SUPPORT. What a step keeps while it stays in its mode (10_state.md R26, R27), and what it keeps
in any case (R29). -/

namespace Sys2Proof.Machine

/-! ## What each operation keeps -/

/-- A writeback keeps Flags, CPL and IE, also where it is fatal. -/
theorem writeback_keeps (t : Target) (v : Word) (s : State) :
    (writeback t v s).state.flags = s.flags ∧ (writeback t v s).state.cpl = s.cpl ∧
      (writeback t v s).state.ie = s.ie := by
  cases t with
  | none => exact ⟨rfl, rfl, rfl⟩
  | reg pa => exact ⟨rfl, rfl, rfl⟩
  | mem pa => exact ⟨rfl, rfl, rfl⟩
  | spr n =>
    obtain ⟨u, hu, hf⟩ := writeSpr_frame n v s
    rw [writeback, hu, hf]
    exact ⟨rfl, rfl, rfl⟩

theorem SwitchFrame.ie_eq {s t : State} (h : SwitchFrame s t) : t.ie = s.ie := by rw [h]

theorem deliver_ie (ev : Event) (s : State) : (deliver ev s).state.ie = s.ie := by
  obtain ⟨t, rfl, hf, -, -⟩ := deliver_frame ev s
  exact hf.ie_eq

theorem resumeGuest_ie (next id : Word) (s : State) : (resumeGuest next id s).state.ie = s.ie := by
  obtain ⟨t, rfl, hf, -, -⟩ := resumeGuest_frame next id s
  exact hf.ie_eq

theorem Eff.toOutcome_ie {e : Eff} {t : State} (h : e.toOutcome = .next t) :
    t.ie = e.state.ie := by
  cases e <;> cases h <;> rfl

/-- Going to `next` after a completed effect changes IP alone. -/
theorem Eff.ie_andThen_jump (e : Eff) (next : Word) :
    (e.andThen fun u => .done (u.jump next)).state.ie = e.state.ie := by
  cases e <;> rfl

/-- A delivery that stays in its mode changes memory and IP alone: in guest mode every completed
delivery exits. -/
theorem deliver_same_mode {ev : Event} {s t : State} (hev : EventOf s ev)
    (h : deliver ev s = .done t) (hm : t.inVM = s.inVM) :
    t = { s with mem := t.mem, ip := t.ip } := by
  by_cases hv : s.inVM = true
  · obtain ⟨hexit, -, -⟩ := deliver_guest h hv
    rw [hexit, hv] at hm
    cases hm
  · have hhost : s.inVM = false := Bool.eq_false_iff.2 hv
    obtain ⟨n, ret, extra, rfl⟩ := hev hhost
    exact (deliver_host_interrupt h hhost).1

theorem resumeGuest_enters {next id : Word} {s t : State} (h : resumeGuest next id s = .done t) :
    t.inVM = true := by
  obtain ⟨m, g, -, -, rfl⟩ := resumeGuest_done h
  rfl

/-! ## What an instruction, and stage 1, keeps -/

/-- An instruction that stays in its mode keeps CPL, and keeps Flags unless it is a CMP. -/
theorem exec_same_mode {i : Instr} {s t : State} (h : exec i s = .next t)
    (hr : t.status = .running) (hm : t.inVM = s.inVM) :
    t.cpl = s.cpl ∧ (t.flags = s.flags ∨ ∃ p o o', i = .cmp p o o') := by
  cases exec_cases i s with
  | raised ev hev hx =>
    obtain ⟨u, hu, rfl⟩ := Eff.toOutcome_running (hx.symm.trans h) hr
    have hf := deliver_same_mode hev hu hm
    exact ⟨by rw [hf]; rfl, .inl (by rw [hf]; rfl)⟩
  | stored p target v next hp hc htarget hx =>
    obtain ⟨u, hu, rfl⟩ := Eff.toOutcome_running (hx.symm.trans h) hr
    obtain ⟨w, hw, hj⟩ := Eff.andThen_eq_done hu
    obtain ⟨hflags, hcpl, -⟩ := writeback_keeps target v p
    rw [hw] at hflags hcpl
    cases hj
    exact ⟨hcpl.trans (by rw [hp]), .inl (hflags.trans (by rw [hp]))⟩
  | moved u hu hc hx =>
    cases hx.symm.trans h
    exact ⟨by rw [hu]; rfl, .inl (by rw [hu]; rfl)⟩
  | compared p o o' a b next hi hx =>
    cases hx.symm.trans h
    exact ⟨rfl, .inr ⟨p, o, o', hi⟩⟩
  | toggled p b next hi hv hx => cases hx.symm.trans h; exact ⟨rfl, .inl rfl⟩
  | printed p o b next hi hv hx => cases hx.symm.trans h; exact ⟨rfl, .inl rfl⟩
  | halted p hi hv hx => cases hx.symm.trans h; exact ⟨rfl, .inl rfl⟩
  | resumed p o next id hi hv hin hid hx =>
    obtain ⟨u, hu, rfl⟩ := Eff.toOutcome_running (hx.symm.trans h) hr
    have hguest : u.inVM = s.inVM := hm
    rw [resumeGuest_enters hu, hv] at hguest
    cases hguest

/-- Stage 1 that stays in its mode keeps CPL and Flags. -/
theorem timerService_same_mode {s t : State} (h : timerService s = .done t)
    (hm : t.inVM = s.inVM) : t.cpl = s.cpl ∧ t.flags = s.flags := by
  rcases timerService_done h with hd | rfl
  · rw [deliver_same_mode (EventOf.interrupt _ _ _ _) hd hm]
    exact ⟨rfl, rfl⟩
  · exact ⟨s.tick_cpl, s.tick_flags⟩

/-- An instruction keeps IE unless it is a CLI or an STI, whatever it delivers and also where it is
fatal. -/
theorem exec_ie {i : Instr} {s t : State} (h : exec i s = .next t) :
    t.ie = s.ie ∨ ∃ p, i = .cli p ∨ i = .sti p := by
  cases exec_cases i s with
  | raised ev hev hx =>
    exact .inl ((Eff.toOutcome_ie (hx.symm.trans h)).trans (deliver_ie ev s))
  | stored p target v next hp hc htarget hx =>
    obtain ⟨-, -, hie⟩ := writeback_keeps target v p
    refine .inl ?_
    calc t.ie = (writeback target v p).state.ie :=
          (Eff.toOutcome_ie (hx.symm.trans h)).trans (Eff.ie_andThen_jump _ next)
      _ = p.ie := hie
      _ = s.ie := by rw [hp]
  | moved u hu hc hx =>
    cases hx.symm.trans h
    exact .inl (by rw [hu]; rfl)
  | compared p o o' a b next hi hx => cases hx.symm.trans h; exact .inl rfl
  | toggled p b next hi hv hx => exact .inr ⟨p, hi⟩
  | printed p o b next hi hv hx => cases hx.symm.trans h; exact .inl rfl
  | halted p hi hv hx => cases hx.symm.trans h; exact .inl rfl
  | resumed p o next id hi hv hin hid hx =>
    exact .inl ((Eff.toOutcome_ie (hx.symm.trans h)).trans (resumeGuest_ie next id s))

theorem timerService_ie {s t : State} (h : timerService s = .done t) : t.ie = s.ie := by
  rcases timerService_done h with hd | rfl
  · have hie := deliver_ie (.interrupt 4 s.ip []) { s with tp := false }
    rw [hd] at hie
    exact hie
  · exact s.tick_ie

/-! ## The obligations -/

/-- Settles O52, by `exec_same_mode` and `timerService_same_mode`. -/
theorem cplChangesOnlyBySwitch : Obligations.CplChangesOnlyBySwitch :=
  ⟨fun _ _ _ h hr hm => (exec_same_mode h hr hm).1, fun _ _ h hm => (timerService_same_mode h hm).1⟩

/-- Settles O54, by the same two lemmas: within a mode CMP alone writes Flags. -/
theorem flagsChangeOnlyByCmp : Obligations.FlagsChangeOnlyByCmp :=
  ⟨fun _ _ _ h hr hm hne => (exec_same_mode h hr hm).2.resolve_left hne,
    fun _ _ h hm => (timerService_same_mode h hm).2⟩

/-- Settles O53, by `exec_ie` and `timerService_ie`. -/
theorem ieChangesOnlyByCliSti : Obligations.IeChangesOnlyByCliSti :=
  ⟨fun _ _ _ h hne => (exec_ie h).resolve_left hne, fun _ _ h => timerService_ie h⟩

end Sys2Proof.Machine
end

section
/-! SUPPORT. General registers as memory words (10_state.md R21, R23). -/

namespace Sys2Proof.Machine

theorem keepsWordsBut_memWrite (s : State) (pa v : Word) :
    KeepsWordsBut s (s.memWrite pa v) [pa] := fun _ hqa =>
  s.memRead_memWrite_other v (by simpa using hqa)

/-- Where a register has a physical word, writing it stores that word alone, and it reads back. -/
theorem writeReg_stores {i : RegIdx} {s : State} {pa : Word} (hpa : regAddr i s = .ok pa)
    (v : Word) : ∃ t, writeReg i v s = .ok t ∧ t = { s with mem := t.mem } ∧ t.memRead pa = v ∧
      readReg i t = .ok v ∧ KeepsWordsBut s t [pa] := by
  have hword := s.memRead_memWrite_same pa v
  have hread : readReg i (s.memWrite pa v) = .ok v := by
    rw [readReg_of_regAddr ((regAddr_memWrite i s pa v).trans hpa), hword]
  exact ⟨s.memWrite pa v, writeReg_of_regAddr v hpa, rfl, hword, hread,
    keepsWordsBut_memWrite s pa v⟩

theorem regAddr_flat (i : RegIdx) {s : State} (h : s.segInstalled = false) :
    regAddr i s = .ok (0x2000 + BitVec.ofNat 32 i.val) := translate_flat .register _ h

/-- Settles O59: `regAddr` is the translation through the Register role, and reads and writes go
through it. -/
theorem registersAreWordsOfTheirRole : Obligations.RegistersAreWordsOfTheirRole := fun _ _ =>
  ⟨rfl, fun _ hpa => ⟨readReg_of_regAddr hpa, writeReg_stores hpa⟩,
    fun _ he => ⟨regAddr_error he, readReg_of_error he, fun v => writeReg_of_error v he⟩⟩

/-- Settles O20: in flat mode the register role adds `0x2000`, and the data role adds nothing. -/
theorem flatRegistersAreMemoryWords : Obligations.FlatRegistersAreMemoryWords := by
  intro i v s hflat
  have haddr := regAddr_flat i hflat
  obtain ⟨t, hwrite, hframe, -, hback, hother⟩ := writeReg_stores haddr v
  have hdata : translate .data (0x2000 + BitVec.ofNat 32 i.val) s =
      .ok (0x2000 + BitVec.ofNat 32 i.val) := translate_flat .data _ hflat
  exact ⟨readReg_of_regAddr haddr, ⟨t, hwrite, hback, hframe, hother⟩, hdata.trans haddr.symm⟩

end Sys2Proof.Machine
end

section
/-! SUPPORT. Physical memory and the host's accesses to it (20_memory.md R60 to R62, R68): a
canonical memory is determined by what it reads as, and a blob is a row written by the host. -/

namespace Sys2Proof.Machine

/-! ## Canonical memories (R62) -/

/-- A canonical memory lists exactly the words it reads that differ from `unwritten`. -/
theorem Memory.mem_iff_read {m : Memory} (h : m.wf) {a : Nat} {v : Word} :
    (a, v) ∈ m ↔ v ≠ unwritten ∧ m.read a = v := by
  refine ⟨fun hm => ⟨(h.2 _ hm).2, ?_⟩, fun ⟨hv, hr⟩ => ?_⟩
  · obtain ⟨hsorted, -⟩ := h
    induction m with
    | nil => cases hm
    | cons c m ih =>
      obtain ⟨k, w⟩ := c
      obtain ⟨hlt, htail⟩ := List.pairwise_cons.1 hsorted
      rw [Memory.read_cons]
      rcases List.mem_cons.1 hm with he | hm
      · cases he; exact if_pos rfl
      · rw [if_neg (hlt _ hm).ne, ih hm htail]
  · subst hr
    exact Memory.mem_of_read_ne hv

theorem Memory.ne_of_read_unwritten {m : Memory} (h : m.wf) {a : Nat}
    (hr : m.read a = unwritten) : ∀ c ∈ m, c.1 ≠ a := by
  rintro ⟨k, v⟩ hc rfl
  obtain ⟨hv, hread⟩ := (Memory.mem_iff_read h).1 hc
  exact hv (hread.symm.trans hr)

/-- Writing `unwritten` where nothing is listed changes nothing. -/
theorem Memory.write_unwritten {m : Memory} (h : m.wf) {a : Nat} (hr : m.read a = unwritten) :
    m.write a unwritten = m := by
  rw [Memory.write, if_pos rfl, Memory.erase]
  exact List.filter_eq_self.2 fun c hc => decide_eq_true (Memory.ne_of_read_unwritten h hr c hc)

/-- Canonical memories that read alike list the same words, and sorted lists with the same members
are equal. -/
theorem Memory.eq_of_read {m n : Memory} (hm : m.wf) (hn : n.wf)
    (h : ∀ a, a ≤ wordMax → m.read a = n.read a) : m = n := by
  have : Std.Irrefl fun c d : Nat × Word => c.1 < d.1 := ⟨fun c => lt_irrefl c.1⟩
  have : Std.Antisymm fun c d : Nat × Word => c.1 < d.1 :=
    ⟨fun _ _ hcd hdc => absurd hcd hdc.asymm⟩
  refine List.Pairwise.eq_of_mem_iff hm.1 hn.1 fun ⟨a, v⟩ => ⟨fun hc => ?_, fun hc => ?_⟩
  · have hread := h a (hm.2 _ hc).1
    exact (Memory.mem_iff_read hn).2 (hread ▸ (Memory.mem_iff_read hm).1 hc)
  · have hread := h a (hn.2 _ hc).1
    exact (Memory.mem_iff_read hm).2 (hread ▸ (Memory.mem_iff_read hn).1 hc)

/-! ## The host's accesses (R60, R61, R68) -/

theorem readPhys_ok (s : State) {a : Nat} (h : a ≤ wordMax) : s.readPhys a = .ok (s.mem.read a) :=
  if_pos h

theorem readPhys_beyond (s : State) {a : Nat} (h : wordMax < a) :
    s.readPhys a = .error .addressOutOfBounds := if_neg (Nat.not_le.2 h)

theorem writePhys_eq (s : State) {a v : Nat} (ha : a ≤ wordMax) (hv : v ≤ wordMax) :
    s.writePhys a v = .ok { s with mem := s.mem.write a (BitVec.ofNat 32 v) } := by
  rw [State.writePhys, if_pos ha, if_pos hv]

theorem writePhys_beyond (s : State) {a : Nat} (v : Nat) (h : wordMax < a) :
    s.writePhys a v = .error .addressOutOfBounds := if_neg (Nat.not_le.2 h)

theorem writePhys_wide (s : State) {a v : Nat} (ha : a ≤ wordMax) (hv : wordMax < v) :
    s.writePhys a v = .error .dataOutOfBounds := by
  rw [State.writePhys, if_pos ha, if_neg (Nat.not_le.2 hv)]

/-- Memories that agree at an address answer the host the same there, out of range as well. -/
theorem readPhys_congr {s t : State} {a : Nat} (h : t.mem.read a = s.mem.read a) :
    t.readPhys a = s.readPhys a := by simp only [State.readPhys, h]

/-- `writeBlob` is the row write of the context switcher, as a host operation. -/
theorem writeBlob_of_writeRow {s t : State} {a : Nat} {ws : List Word}
    (h : s.writeRow a ws = .done t) : writeBlob a ws s = .ok t := by
  induction ws generalizing s a with
  | nil => cases h; rfl
  | cons w ws ih =>
    simp only [State.writeRow] at h
    simp only [writeBlob, hostWriteWord]
    split at h
    next s' hs => rw [hs]; exact ih h
    next => cases h

/-! ## The obligations -/

/-- Settles O16: the two range tests in their order, and `Memory.write_unwritten`. -/
theorem memoryBounds : Obligations.MemoryBounds :=
  ⟨fun _ v s ha => ⟨readPhys_beyond s ha, writePhys_beyond s v ha⟩,
    fun _ _ s ha hv => writePhys_wide s ha hv, fun _ _ hwf hr => Memory.write_unwritten hwf hr⟩

/-- Settles O17, by `Memory.eq_of_read`. -/
theorem canonicalMemoriesAgree : Obligations.CanonicalMemoriesAgree :=
  fun _ _ hm hn h => Memory.eq_of_read hm hn h

/-- Settles O18: a row inside the address space is written whole, and a blob is such a row. -/
theorem writeBlobWritesInOrder : Obligations.WriteBlobWritesInOrder := by
  intro start ws s hfit
  obtain ⟨t, ht⟩ := writeRow_total s start ws hfit
  obtain ⟨-, hframe, hwords, hother⟩ := writeRow_done ht
  exact ⟨t, writeBlob_of_writeRow ht, hframe, hwords, hother⟩

/-- Settles O15: the host's write is one write to memory, and an empty memory reads `unwritten`. -/
theorem memoryLaw : Obligations.MemoryLaw := by
  refine ⟨fun a v s ha hv => ⟨_, writePhys_eq s ha hv, ?_, rfl, fun b hb => ?_⟩, fun a ha => ?_⟩
  · exact (readPhys_ok _ ha).trans (congrArg _ (Memory.read_write_same _ _ _))
  · exact readPhys_congr (Memory.read_write_other _ _ hb)
  · exact readPhys_ok State.reset ha

end Sys2Proof.Machine
end

section
/-! SUPPORT. The segmentation translator in unwrapped numbers, and that it reads no memory
(20_memory.md R70 to R73, R83, R88). -/

namespace Sys2Proof.Machine

/-- The two checks of R70 on words are one inequality of numbers: the sum does not wrap. -/
theorem segment_offset_iff {start limit off : Word} :
    (start ≤ limit ∧ off ≤ limit - start) ↔ start.toNat + off.toNat ≤ limit.toNat := by
  simp only [BitVec.le_def]
  constructor
  · rintro ⟨hl, ho⟩
    rw [BitVec.toNat_sub_of_le hl] at ho
    omega
  · intro h
    have hl : start ≤ limit := BitVec.le_def.2 (by omega)
    rw [BitVec.toNat_sub_of_le hl]
    omega

theorem segment_word_iff {start limit off pa : Word}
    (h : start.toNat + off.toNat ≤ limit.toNat) :
    pa = start + off ↔ pa.toNat = start.toNat + off.toNat := by
  rw [← BitVec.toNat_inj, BitVec.toNat_add_of_lt (h.trans_lt limit.isLt)]

/-- With a table installed, a translation succeeds exactly where the role's selector names a row of
the role's kind whose limit the sum does not pass. -/
theorem translate_seg_iff {role : Role} {off pa : Word} {s : State} (hi : s.segInstalled = true) :
    translate role off s = .ok pa ↔ ∃ d, s.segTable[(s.selector role).toNat]? = some d ∧
      d.kind = role.kind ∧ d.start.toNat + off.toNat ≤ d.limit.toNat ∧
      pa.toNat = d.start.toNat + off.toNat := by
  constructor
  · intro h
    rcases translate_ok h with ⟨hflat, -⟩ | ⟨-, d, hd, hk, hl, ho, hpa⟩
    · rw [hi] at hflat; cases hflat
    · have hle := segment_offset_iff.1 ⟨hl, ho⟩
      exact ⟨d, hd, hk, hle, (segment_word_iff hle).1 hpa⟩
  · rintro ⟨d, hd, hk, hle, hpa⟩
    obtain ⟨hl, ho⟩ := segment_offset_iff.2 hle
    rw [translate_seg hi hd hk hl ho, (segment_word_iff hle).2 hpa]

/-- In flat mode a translation always succeeds. -/
theorem translate_flat_iff {role : Role} {off pa : Word} {s : State} (hi : s.segInstalled = false) :
    translate role off s = .ok pa ↔ pa = if role = .register then 0x2000 + off else off := by
  rw [translate_flat role off hi, Except.ok.injEq]
  exact eq_comm

/-- Settles O19: flat mode and installed mode each by its own `↔`. -/
theorem translationRule : Obligations.TranslationRule := by
  refine ⟨fun s => ⟨rfl, rfl, rfl, rfl, rfl⟩, ⟨rfl, rfl, rfl, rfl, rfl⟩, fun role off s =>
    ⟨fun pa => ?_, fun v hv => (translate_error hv).2⟩⟩
  cases hi : s.segInstalled with
  | false => simp [translate_flat_iff hi]
  | true => simp [translate_seg_iff hi]

/-- Settles O23: `writeAll` changes memory alone, and a translation reads none. -/
theorem tablesAreSnapshots : Obligations.TablesAreSnapshots := fun s ws role off =>
  ⟨s.writeAll_segTable ws, s.writeAll_vmTable ws, translate_writeAll role off s ws⟩

end Sys2Proof.Machine
end

section
/-! SUPPORT. The two descriptor-table parses, one equation per kind of row (20_memory.md R80 to
R87), each at the fuel that the parse starts with. -/

namespace Sys2Proof.Machine

/-! ## A segment row as a descriptor (R81, R82) -/

theorem SegKind.number_toNat_le (k : SegKind) : k.number.toNat ≤ 3 := by
  cases k <;> decide

/-- A known kind code is the code of the kind it names. -/
theorem SegKind.number_of_ofNumber {c : Word} {k : SegKind} (h : SegKind.ofNumber c = some k) :
    k.number = c := by
  unfold SegKind.ofNumber at h
  split_ifs at h with h0 h1 h2 h3 <;> cases h <;> exact Eq.symm ‹_›

/-- The unknown codes are those above 3. -/
theorem SegKind.ofNumber_eq_none {c : Word} : SegKind.ofNumber c = none ↔ 3 < c.toNat := by
  constructor
  · intro h
    unfold SegKind.ofNumber at h
    split_ifs at h with h0 h1 h2 h3
    bv_omega
  · intro h
    cases hk : SegKind.ofNumber c with
    | none => rfl
    | some k =>
      have hle := k.number_toNat_le
      rw [SegKind.number_of_ofNumber hk] at hle
      omega

/-- The size of a segment wraps only for the whole address space, and then to 0, so the test for 31
words is the one on numbers. -/
theorem segment_size_iff {start limit : Word} (h : start ≤ limit) :
    limit - start + 1 = 31 ↔ limit.toNat - start.toNat + 1 = 31 := by
  rw [← BitVec.toNat_sub_of_le h]
  bv_omega

/-- What R82 calls malformed, in unwrapped numbers. -/
def SegRowMalformed (start limit kind : Word) : Prop :=
  3 < kind.toNat ∨ (kind = 2 ∧ (limit < start ∨ limit.toNat - start.toNat + 1 ≠ 31))

theorem segment_missized_iff {start limit : Word} :
    (limit < start ∨ limit - start + 1 ≠ 31) ↔
      (limit < start ∨ limit.toNat - start.toNat + 1 ≠ 31) :=
  or_congr_right' fun h => not_congr (segment_size_iff (BitVec.not_lt.1 h))

theorem segDescriptorOf_malformed {start limit kind : Word} (priv : Word)
    (h : SegRowMalformed start limit kind) : segDescriptorOf start limit kind priv = none := by
  rcases h with hkind | ⟨rfl, hsize⟩
  · rw [segDescriptorOf, SegKind.ofNumber_eq_none.2 hkind]
  · exact if_pos ⟨rfl, segment_missized_iff.2 hsize⟩

theorem segDescriptorOf_wellFormed {start limit kind : Word} (priv : Word)
    (h : ¬SegRowMalformed start limit kind) : ∃ k : SegKind, k.number = kind ∧
      segDescriptorOf start limit kind priv = some ⟨start, limit, k, priv⟩ := by
  obtain ⟨hkind, hsize⟩ := not_or.1 h
  cases hk : SegKind.ofNumber kind with
  | none => exact absurd (SegKind.ofNumber_eq_none.1 hk) hkind
  | some k =>
    have hnum := SegKind.number_of_ofNumber hk
    refine ⟨k, hnum, ?_⟩
    simp only [segDescriptorOf, hk]
    exact if_neg fun ⟨hreg, hbad⟩ =>
      hsize ⟨hnum.symm.trans (congrArg _ hreg), segment_missized_iff.1 hbad⟩

/-! ## The rows of a segment table (R80) -/

/-- The four-word sentinel at an address (R80). -/
def SegSentinelAt (m : Memory) (a : Nat) : Prop :=
  m.read a = unwritten ∧ m.read (a + 1) = unwritten ∧ m.read (a + 2) = unwritten ∧
    m.read (a + 3) = unwritten

section
variable {m : Memory} {a : Nat}

theorem parseSegRows_beyond (f : Nat) (h : wordMax < a + 3) :
    parseSegRows m (f + 1) a = .error .addressOutOfBounds := by
  rw [parseSegRows, if_pos h]

theorem parseSegRows_sentinel (f : Nat) (h : a + 3 ≤ wordMax) (hs : SegSentinelAt m a) :
    parseSegRows m (f + 1) a = .ok [] := by
  rw [parseSegRows, if_neg (Nat.not_lt.2 h)]
  exact if_pos hs

theorem parseSegRows_malformed (f : Nat) (h : a + 3 ≤ wordMax) (hs : ¬SegSentinelAt m a)
    (hd : segDescriptorOf (m.read a) (m.read (a + 1)) (m.read (a + 2)) (m.read (a + 3)) = none) :
    parseSegRows m (f + 1) a = .error .malformedDescriptorTable := by
  rw [SegSentinelAt] at hs
  rw [parseSegRows, if_neg (Nat.not_lt.2 h), if_neg hs, hd]

/-- A row is put before the rest of the table, or the rest's error is the table's. -/
theorem parseSegRows_row {d : SegDescriptor} (h : a + 3 ≤ wordMax) (hs : ¬SegSentinelAt m a)
    (hd : segDescriptorOf (m.read a) (m.read (a + 1)) (m.read (a + 2)) (m.read (a + 3)) = some d) :
    parseSegRows m (m.length + 1) a = (parseSegRows m (m.length + 1) (a + 4)).map (d :: ·) := by
  rw [SegSentinelAt] at hs
  rw [parseSegRows, if_neg (Nat.not_lt.2 h), if_neg hs, hd, parseSegRows_rest m a hs]
  cases parseSegRows m (m.length + 1) (a + 4) <;> rfl

end

/-! ## The rows of a VM table (R85) -/

section
variable {m : Memory} {a : Nat}

theorem parseVmRows_beyond (f : Nat) (h : wordMax < a + 8) :
    parseVmRows m (f + 1) a = .error .addressOutOfBounds := by
  rw [parseVmRows, if_pos h]

theorem parseVmRows_sentinel (f : Nat) (h : a + 8 ≤ wordMax)
    (hs : vmRowAt m a = VmDescriptor.sentinel) : parseVmRows m (f + 1) a = .ok [] := by
  rw [parseVmRows, if_neg (Nat.not_lt.2 h), if_pos hs]

theorem parseVmRows_row (h : a + 8 ≤ wordMax) (hs : vmRowAt m a ≠ VmDescriptor.sentinel) :
    parseVmRows m (m.length + 1) a =
      (parseVmRows m (m.length + 1) (a + 9)).map (vmRowAt m a :: ·) := by
  rw [parseVmRows, if_neg (Nat.not_lt.2 h), if_neg hs, parseVmRows_rest m a hs]
  cases parseVmRows m (m.length + 1) (a + 9) <;> rfl

end

/-! ## The obligations -/

/-- Settles O21: one lemma per kind of row. -/
theorem segTableParseRule : Obligations.SegTableParseRule := by
  intro m a
  refine ⟨fun _ => rfl, fun h => parseSegRows_beyond _ h, fun h hs => parseSegRows_sentinel _ h hs,
    fun h hs hbad => parseSegRows_malformed _ h hs (segDescriptorOf_malformed _ hbad),
    fun h hs hgood => ?_⟩
  obtain ⟨k, hk, hd⟩ := segDescriptorOf_wellFormed (m.read (a + 3)) hgood
  have hrow := parseSegRows_row h hs hd
  exact ⟨k, hk, fun _ hrest => hrow.trans (congrArg _ hrest),
    fun _ herr => hrow.trans (congrArg _ herr)⟩

/-- Settles O22: one lemma per kind of row; the row kept is `vmRowAt`. -/
theorem vmTableParseRule : Obligations.VmTableParseRule := by
  intro m a
  refine ⟨fun _ => rfl, fun h => parseVmRows_beyond _ h,
    fun h hs => parseVmRows_sentinel _ h (vmRowAt_sentinel.2 hs), fun h hs => ?_⟩
  have hrow := parseVmRows_row h (mt vmRowAt_sentinel.1 hs)
  exact ⟨vmRowAt m a, rfl, fun _ hrest => hrow.trans (congrArg _ hrest),
    fun _ herr => hrow.trans (congrArg _ herr)⟩

end Sys2Proof.Machine
end

section
/-! SUPPORT. Where an instruction that stays in its mode writes (20_memory.md R70, R71): its change
of memory is `Confined`, so with a segment table installed it lies in the selected segments. -/

namespace Sys2Proof.Machine

theorem Confined.of_mem_eq {s p u : State} (h : Confined s p) (hm : u.mem = p.mem) :
    Confined s u := by
  simpa only [Confined, State.memRead, hm] using h

theorem writeSpr_mem (n : SpecialReg) (v : Word) (s : State) :
    (writeSpr n v s).state.mem = s.mem := by
  obtain ⟨t, rfl, ht⟩ := writeSpr_frame n v s
  rw [ht]

/-- A completed writeback stores one translated word, or no word of memory. -/
theorem Confined.writeback {s p u : State} (h : Confined s p) {t : Target} (ht : TargetOf s t)
    {v : Word} (hw : writeback t v p = .done u) : Confined s u := by
  rcases writeback_cases ht v p with ⟨-, hx⟩ | ⟨role, off, pa, hr, htr, hx⟩ | ⟨n, -, -, hx⟩
  · cases hx.symm.trans hw
  · cases hx.symm.trans hw
    exact h.memWrite v hr htr
  · have hm := writeSpr_mem n v p
    rw [hx.symm.trans hw] at hm
    exact h.of_mem_eq hm

/-- In guest mode every completed delivery exits; in host mode it pushes a frame. -/
theorem deliver_confined {ev : Event} {s t : State} (hev : EventOf s ev)
    (h : deliver ev s = .done t) (hm : t.inVM = s.inVM) : Confined s t := by
  cases hv : s.inVM with
  | true =>
    obtain ⟨hexit, -, -⟩ := deliver_guest h hv
    rw [hexit, hv] at hm
    cases hm
  | false =>
    obtain ⟨n, ret, extra, rfl⟩ := hev hv
    exact (deliver_host_interrupt h hv).2

/-- An instruction that stays in its mode and does not end the run changes only words that some role
but Code translates to; even where it faults. -/
theorem exec_confined {i : Instr} {s t : State} (h : exec i s = .next t)
    (hr : t.status = .running) (hm : t.inVM = s.inVM) : Confined s t := by
  cases exec_cases i s with
  | raised ev hev hx =>
    obtain ⟨u, hu, rfl⟩ := Eff.toOutcome_running (hx.symm.trans h) hr
    exact (deliver_confined hev hu hm).of_mem_eq rfl
  | stored p target v next hp hc htarget hx =>
    obtain ⟨u, hu, rfl⟩ := Eff.toOutcome_running (hx.symm.trans h) hr
    obtain ⟨w, hw, hj⟩ := Eff.andThen_eq_done hu
    cases hj
    exact (hc.writeback htarget hw).of_mem_eq rfl
  | moved u hu hc hx => cases hx.symm.trans h; exact hc.of_mem_eq rfl
  | compared p o o' a b next hi hx => cases hx.symm.trans h; exact (Confined.refl s).of_mem_eq rfl
  | toggled p b next hi hv hx => cases hx.symm.trans h; exact (Confined.refl s).of_mem_eq rfl
  | printed p o b next hi hv hx => cases hx.symm.trans h; exact (Confined.refl s).of_mem_eq rfl
  | halted p hi hv hx => cases hx.symm.trans h; exact (Confined.refl s).of_mem_eq rfl
  | resumed p o next id hi hv hin hid hx =>
    obtain ⟨u, hu, rfl⟩ := Eff.toOutcome_running (hx.symm.trans h) hr
    have hguest : u.inVM = s.inVM := hm
    rw [resumeGuest_enters hu, hv] at hguest
    cases hguest

/-- Settles O51: a word the instruction changes is one it may translate to, and so in a segment. -/
theorem writesStayInSegments : Obligations.WritesStayInSegments := by
  intro i s t pa h hi hr hmode hne
  have hm : t.inVM = s.inVM := by
    rcases hmode with ⟨hs, ht⟩ | ⟨hs, ht⟩ <;> exact ht.trans hs.symm
  obtain ⟨hwords, -⟩ := exec_confined h hr hm
  obtain ⟨role, off, hrole, htr⟩ := hwords pa hne
  exact reachable_of_translate htr hi hrole

end Sys2Proof.Machine
end

section
/-! SUPPORT. The encoder and the decoder against each other (30_encoding.md R100 to R103, R110,
R111): each row of the opcode map gives back the instruction whose word it is given. -/

namespace Sys2Proof

/-! ## An encoded operand in its place of the word -/

section
variable (op p d : Byte) (o : Operand)

theorem decodeOperand_packWord_first :
    decodeOperand (tag1Field (packWord op p (encodeOperand o) d))
      (reg1Field (packWord op p (encodeOperand o) d)) = .ok o := by
  rw [encodeOperand_eq, tag1Field_packWord, reg1Field_packWord, decodeOperand_encoded]

theorem decodeOperand_packWord_second :
    decodeOperand (tag2Field (packWord op p d (encodeOperand o)))
      (reg2Field (packWord op p d (encodeOperand o))) = .ok o := by
  rw [encodeOperand_eq, tag2Field_packWord, reg2Field_packWord, decodeOperand_encoded]

theorem decodeWritten_packWord_first {o : Operand} (h : o.writable = true) :
    decodeWritten (tag1Field (packWord op p (encodeOperand o) d))
      (reg1Field (packWord op p (encodeOperand o) d)) = .ok o := by
  rw [encodeOperand_eq, tag1Field_packWord, reg1Field_packWord, decodeWritten_encoded h]

end

/-! ## One lemma per shape of R110's table -/

section
variable (op p d1 d2 : Byte) (o o' : Operand)

theorem row0_packWord (c : Byte → Instr) : row0 c (packWord op p d1 d2) = .ok (c p) := by
  rw [row0, privField_packWord]

theorem rowR_packWord (c : Byte → Operand → Instr) :
    rowR c (packWord op p (encodeOperand o) d2) = .ok (c p o) := by
  simp only [rowR, decodeOperand_packWord_first, privField_packWord]

theorem rowW_packWord (c : Byte → Operand → Instr) {o : Operand} (h : o.writable = true) :
    rowW c (packWord op p (encodeOperand o) d2) = .ok (c p o) := by
  simp only [rowW, decodeWritten_packWord_first op p d2 h, privField_packWord]

theorem rowRR_packWord (c : Byte → Operand → Operand → Instr) :
    rowRR c (packWord op p (encodeOperand o) (encodeOperand o')) = .ok (c p o o') := by
  simp only [rowRR, decodeOperand_packWord_first, decodeOperand_packWord_second,
    privField_packWord]

theorem rowWR_packWord (c : Byte → Operand → Operand → Instr) {o : Operand}
    (h : o.writable = true) :
    rowWR c (packWord op p (encodeOperand o) (encodeOperand o')) = .ok (c p o o') := by
  simp only [rowWR, decodeWritten_packWord_first op p _ h, decodeOperand_packWord_second,
    privField_packWord]

end

/-- Settles O1: each instruction's word decodes by its own row, whose shape gives the operands
back. -/
theorem decodeEncodeRoundTrip : Obligations.DecodeEncodeRoundTrip := by
  intro i hwf
  cases i with
  | ret p | enter p | leave p | reti p | cli p | sti p | halt p =>
    exact (decode_packWord rfl).trans (row0_packWord _ p _ _ _)
  | jmp p o | jz p o | jnz p o | jgt p o | jge p o | call p o | retn p o | push p o | int p o
  | vmresume p o | print p o =>
    exact (decode_packWord rfl).trans (rowR_packWord _ p _ o _)
  | pop p o => exact (decode_packWord rfl).trans (rowW_packWord _ p _ _ hwf)
  | cmp p o o' => exact (decode_packWord rfl).trans (rowRR_packWord _ p o o' _)
  | add p o o' | sub p o o' | mul p o o' | div p o o' | mod p o o' | or p o o' | xor p o o'
  | and p o o' | not p o o' | shl p o o' | shr p o o' | mov p o o' | getargument p o o' =>
    exact (decode_packWord rfl).trans (rowWR_packWord _ p o' _ hwf)

end Sys2Proof
end

section
/-! SUPPORT. The rows of the opcode map (30_encoding.md R110), each in the shape of its operands'
number and roles: what a row that answers keeps of its word (R111), and which words a row refuses
(R121). -/

namespace Sys2Proof

/-! ## The shape of a row -/

/-- Whether an opcode's instructions use operand 1, use operand 2, and write operand 1. -/
structure Roles where
  usesOne : Bool
  usesTwo : Bool
  writesOne : Bool

/-- The columns of R110's table; a word of an unknown opcode has no operands. -/
def rolesOf (op : Byte) : Roles where
  usesOne := op.toNat ∈ [0x01, 0x02, 0x03, 0x04, 0x05, 0x06, 0x07, 0x08, 0x09, 0x0A, 0x0B, 0x0C,
    0x0D, 0x0E, 0x0F, 0x10, 0x11, 0x12, 0x13, 0x15, 0x18, 0x19, 0x1A, 0x1B, 0x1D, 0x20]
  usesTwo := op.toNat ∈ [0x01, 0x02, 0x03, 0x04, 0x05, 0x06, 0x07, 0x08, 0x09, 0x0A, 0x0B, 0x0C,
    0x0D, 0x18]
  writesOne := op.toNat ∈ [0x01, 0x02, 0x03, 0x04, 0x05, 0x06, 0x07, 0x08, 0x09, 0x0A, 0x0B, 0x0C,
    0x18, 0x1A]

/-- A descriptor byte: the operand's where there is one, else the unused one (R111, R125). -/
def descriptorOf : Option Operand → Byte
  | none => unusedDescriptor
  | some o => encodeOperand o

/-- `i` is the instruction of opcode `op`, privilege byte `p` and used operands `ops`, and is well
formed exactly where `wf` says. -/
structure InstrOf (op p : Byte) (ops : List Operand) (wf : Bool) (i : Instr) : Prop where
  priv : i.requiredPriv = p
  operands : i.operands = ops
  wellFormed : i.wellFormed = wf
  word : encode i = packWord op p (descriptorOf ops[0]?) (descriptorOf ops[1]?)

/-- A row of R110's table: the decoder of its shape, for a constructor of that shape's operands. -/
inductive RowShape (op : Byte) : (Word → Except Illegal Instr) → Prop where
  | none {c : Byte → Instr} (roles : rolesOf op = ⟨false, false, false⟩ := by rfl)
      (instr : ∀ p, InstrOf op p [] true (c p) := by
        exact fun _ => ⟨rfl, rfl, rfl, rfl⟩) :
      RowShape op (row0 c)
  | read {c : Byte → Operand → Instr} (roles : rolesOf op = ⟨true, false, false⟩ := by rfl)
      (instr : ∀ p o, InstrOf op p [o] true (c p o) := by
        exact fun _ _ => ⟨rfl, rfl, rfl, rfl⟩) :
      RowShape op (rowR c)
  | written {c : Byte → Operand → Instr} (roles : rolesOf op = ⟨true, false, true⟩ := by rfl)
      (instr : ∀ p o, InstrOf op p [o] o.writable (c p o) := by
        exact fun _ _ => ⟨rfl, rfl, rfl, rfl⟩) :
      RowShape op (rowW c)
  | readRead {c : Byte → Operand → Operand → Instr}
      (roles : rolesOf op = ⟨true, true, false⟩ := by rfl)
      (instr : ∀ p o o', InstrOf op p [o, o'] true (c p o o') := by
        exact fun _ _ _ => ⟨rfl, rfl, rfl, rfl⟩) :
      RowShape op (rowRR c)
  | writtenRead {c : Byte → Operand → Operand → Instr}
      (roles : rolesOf op = ⟨true, true, true⟩ := by rfl)
      (instr : ∀ p o o', InstrOf op p [o, o'] o.writable (c p o o') := by
        exact fun _ _ _ => ⟨rfl, rfl, rfl, rfl⟩) :
      RowShape op (rowWR c)

/-- Each row of R110's table, in the table's order. -/
theorem rowShape_of_mem : ∀ r ∈ decodeRows, RowShape r.1 r.2 := by
  simp only [decodeRows, List.forall_mem_cons]
  exact ⟨.writtenRead, .writtenRead, .writtenRead, .writtenRead, .writtenRead, .writtenRead,
    .writtenRead, .writtenRead, .writtenRead, .writtenRead, .writtenRead, .writtenRead,
    .readRead, .read, .read, .read, .read, .read, .read, .none, .read, .none, .none,
    .writtenRead, .read, .written, .read, .none, .read, .none, .none, .read, .none,
    fun _ h => nomatch h⟩

theorem rowShape_of_lookup {op : Byte} {row : Word → Except Illegal Instr}
    (h : decodeRows.lookup op = some row) : RowShape op row := rowShape_of_mem _ (lookup_mem h)

/-! ## What a row that answers keeps of its word -/

/-- A descriptor's fields are those of the word, but for an Immediate's ignored `reg` field. -/
theorem packWord_keeps_first {w : Word} {o : Operand} (op p d : Byte)
    (h : decodeOperand (tag1Field w) (reg1Field w) = .ok o) :
    tag1Field (packWord op p (encodeOperand o) d) = tag1Field w ∧
      (tag1Field w ≠ 0 → reg1Field (packWord op p (encodeOperand o) d) = reg1Field w) := by
  rw [encodeOperand_eq, tag1Field_packWord, reg1Field_packWord]
  exact decodeOperand_ok h

theorem packWord_keeps_second {w : Word} {o : Operand} (op p d : Byte)
    (h : decodeOperand (tag2Field w) (reg2Field w) = .ok o) :
    tag2Field (packWord op p d (encodeOperand o)) = tag2Field w ∧
      (tag2Field w ≠ 0 → reg2Field (packWord op p d (encodeOperand o)) = reg2Field w) := by
  rw [encodeOperand_eq, tag2Field_packWord, reg2Field_packWord]
  exact decodeOperand_ok h

theorem decodeOperand_of_decodeWritten {t : BitVec 3} {r : BitVec 5} {o : Operand}
    (h : decodeWritten t r = .ok o) : decodeOperand t r = .ok o := by
  unfold decodeWritten at h
  split at h
  next => cases h
  next => exact h

/-- `i` is well formed and its encoding has every bit of `w` that means something. -/
def KeepsFields (w : Word) (i : Instr) : Prop :=
  i.wellFormed = true ∧
  opcodeField (encode i) = opcodeField w ∧
  privField (encode i) = privField w ∧ i.requiredPriv = privField w ∧
  (1 ≤ i.operands.length → tag1Field (encode i) = tag1Field w ∧
    (tag1Field w ≠ 0 → reg1Field (encode i) = reg1Field w)) ∧
  (2 ≤ i.operands.length → tag2Field (encode i) = tag2Field w ∧
    (tag2Field w ≠ 0 → reg2Field (encode i) = reg2Field w))

/-- An instruction of the word's opcode and privilege byte whose operands are the decoded ones. -/
theorem InstrOf.keepsFields {w : Word} {i : Instr} {ops : List Operand} {wf : Bool}
    (h : InstrOf (opcodeField w) (privField w) ops wf i) (hwf : wf = true)
    (first : ∀ o, ops[0]? = some o → decodeOperand (tag1Field w) (reg1Field w) = .ok o)
    (second : ∀ o, ops[1]? = some o → decodeOperand (tag2Field w) (reg2Field w) = .ok o) :
    KeepsFields w i := by
  obtain ⟨hpriv, hops, hwell, hword⟩ := h
  unfold KeepsFields
  rw [hword, hops, opcodeField_packWord, privField_packWord]
  refine ⟨hwell.trans hwf, rfl, rfl, hpriv, fun hlen => ?_, fun hlen => ?_⟩
  · have ho := List.getElem?_eq_getElem (l := ops) (i := 0) hlen
    rw [ho]
    exact packWord_keeps_first _ _ _ (first _ ho)
  · have ho := List.getElem?_eq_getElem (l := ops) (i := 1) hlen
    rw [ho]
    exact packWord_keeps_second _ _ _ (second _ ho)

theorem RowShape.keepsFields {w : Word} {row : Word → Except Illegal Instr} {i : Instr}
    (h : RowShape (opcodeField w) row) (hi : row w = .ok i) : KeepsFields w i := by
  cases h with
  | none roles instr => cases hi; exact (instr _).keepsFields rfl (by simp) (by simp)
  | read roles instr =>
    obtain ⟨o, ho, rfl⟩ := rowR_ok hi
    exact (instr _ o).keepsFields rfl (by simpa using ho) (by simp)
  | written roles instr =>
    obtain ⟨o, ho, rfl⟩ := rowW_ok hi
    exact (instr _ o).keepsFields (decodeWritten_ok ho).1
      (by simpa using decodeOperand_of_decodeWritten ho) (by simp)
  | readRead roles instr =>
    obtain ⟨o, o', ho, ho', rfl⟩ := rowRR_ok hi
    exact (instr _ o o').keepsFields rfl (by simpa using ho) (by simpa using ho')
  | writtenRead roles instr =>
    obtain ⟨o, o', ho, ho', rfl⟩ := rowWR_ok hi
    exact (instr _ o o').keepsFields (decodeWritten_ok ho).1
      (by simpa using decodeOperand_of_decodeWritten ho) (by simpa using ho')

theorem lookup_of_decode_ok {w : Word} {i : Instr} (h : decode w = .ok i) :
    ∃ row, decodeRows.lookup (opcodeField w) = some row ∧ row w = .ok i := by
  unfold decode at h
  split at h
  next => cases h
  next row hrow => exact ⟨row, hrow, h⟩

/-- Settles O2: whatever the row's shape, its operands are decoded from their own fields. -/
theorem encodeDecodeKeepsFields : Obligations.EncodeDecodeKeepsFields := by
  intro w i h
  obtain ⟨row, hrow, hi⟩ := lookup_of_decode_ok h
  exact (rowShape_of_lookup hrow).keepsFields hi

/-! ## Which words a row refuses -/

/-- A descriptor that names no operand in a read role: conditions 2 to 4 of R121. -/
def BadDescriptor (tag : BitVec 3) (reg : BitVec 5) : Prop :=
  tag = 7 ∨ (tag = 1 ∧ reg = 31) ∨ (tag = 6 ∧ 10 ≤ reg.toNat)

section
variable (w : Word)

theorem rowR_refuses_iff (c : Byte → Operand → Instr) :
    (∃ e, rowR c w = .error e) ↔ BadDescriptor (tag1Field w) (reg1Field w) := by
  rw [BadDescriptor, ← decodeOperand_refuses_iff, rowR]
  cases decodeOperand (tag1Field w) (reg1Field w) <;> simp

theorem rowW_refuses_iff (c : Byte → Operand → Instr) :
    (∃ e, rowW c w = .error e) ↔
      tag1Field w = 0 ∨ BadDescriptor (tag1Field w) (reg1Field w) := by
  rw [BadDescriptor, ← decodeWritten_refuses_iff, rowW]
  cases decodeWritten (tag1Field w) (reg1Field w) <;> simp

/-- Two operands are refused where either is: operand 1's refusal only comes first. -/
theorem rowRR_refuses_iff (c : Byte → Operand → Operand → Instr) :
    (∃ e, rowRR c w = .error e) ↔ BadDescriptor (tag1Field w) (reg1Field w) ∨
      BadDescriptor (tag2Field w) (reg2Field w) := by
  rw [BadDescriptor, BadDescriptor, ← decodeOperand_refuses_iff, ← decodeOperand_refuses_iff, rowRR]
  cases decodeOperand (tag1Field w) (reg1Field w) <;>
    cases decodeOperand (tag2Field w) (reg2Field w) <;> simp

theorem rowWR_refuses_iff (c : Byte → Operand → Operand → Instr) :
    (∃ e, rowWR c w = .error e) ↔
      (tag1Field w = 0 ∨ BadDescriptor (tag1Field w) (reg1Field w)) ∨
        BadDescriptor (tag2Field w) (reg2Field w) := by
  rw [BadDescriptor, BadDescriptor, ← decodeWritten_refuses_iff, ← decodeOperand_refuses_iff, rowWR]
  cases decodeWritten (tag1Field w) (reg1Field w) <;>
    cases decodeOperand (tag2Field w) (reg2Field w) <;> simp

end

/-- Conditions 2 to 5 of R121, by the roles of the row's opcode. -/
theorem RowShape.refuses_iff {op : Byte} {row : Word → Except Illegal Instr}
    (h : RowShape op row) (w : Word) :
    (∃ e, row w = .error e) ↔
      ((rolesOf op).usesOne = true ∧ BadDescriptor (tag1Field w) (reg1Field w)) ∨
      ((rolesOf op).usesTwo = true ∧ BadDescriptor (tag2Field w) (reg2Field w)) ∨
      ((rolesOf op).writesOne = true ∧ tag1Field w = 0) := by
  cases h with
  | none roles => simp [roles, row0]
  | read roles => simp [roles, rowR_refuses_iff]
  | written roles => simp [roles, rowW_refuses_iff, or_comm]
  | readRead roles => simp [roles, rowRR_refuses_iff]
  | writtenRead roles => simp [roles, rowWR_refuses_iff, or_comm, or_left_comm, or_assoc]

/-- The rows are those of opcodes 1 to 0x21 (condition 1 of R121). -/
theorem lookup_eq_none_iff (op : Byte) :
    decodeRows.lookup op = none ↔ op.toNat = 0 ∨ 0x22 ≤ op.toNat := by
  have key : ∀ op : Byte,
      (decodeRows.lookup op).isNone = decide (op.toNat = 0 ∨ 0x22 ≤ op.toNat) := by decide
  rw [← Option.isNone_iff_eq_none, key, decide_eq_true_iff]

theorem decode_refuses_iff (w : Word) :
    (∃ e, decode w = .error e) ↔
      (opcodeField w).toNat = 0 ∨ 0x22 ≤ (opcodeField w).toNat ∨
      ((rolesOf (opcodeField w)).usesOne = true ∧ BadDescriptor (tag1Field w) (reg1Field w)) ∨
      ((rolesOf (opcodeField w)).usesTwo = true ∧ BadDescriptor (tag2Field w) (reg2Field w)) ∨
      ((rolesOf (opcodeField w)).writesOne = true ∧ tag1Field w = 0) := by
  rw [← or_assoc, ← lookup_eq_none_iff]
  cases h : decodeRows.lookup (opcodeField w) with
  | none => simp [decode, h]
  | some row =>
    have hdecode : decode w = row w := by simp only [decode, h]
    rw [hdecode, (rowShape_of_lookup h).refuses_iff]
    simp

end Sys2Proof

namespace Sys2Proof.Machine

/-- R146: a fetched word that decodes to no instruction raises interrupt 1. -/
theorem fetchInstr_illegal {s : State} {w : Word} {e : Illegal} (hf : fetch s.ip s = .ok w)
    (hd : decode w = .error e) : fetchInstr s = .error (.interrupt 1 s.ip []) := by
  simp only [fetchInstr, hf, hd]
  rfl

theorem step_of_fetchInstr_error {s s1 : State} {ev : Event} (hr : s.status = .running)
    (ht : timerService s = .done s1) (hf : fetchInstr s1 = .error ev) :
    step s = (deliver ev s1).toOutcome := by
  simp only [step, hr, ht, hf]

/-- Settles O3: the lookup refuses the unknown opcodes, and a row what its shape's operands
refuse. -/
theorem illegalWordsAreExactlyThose : Obligations.IllegalWordsAreExactlyThose := by
  intro w
  refine ⟨?_, fun s s1 e hd hr ht hf =>
    step_of_fetchInstr_error hr ht (fetchInstr_illegal hf hd)⟩
  simpa only [rolesOf, BadDescriptor, decide_eq_true_eq] using decode_refuses_iff w

end Sys2Proof.Machine
end

section
/-! SUPPORT. What each operand form's resolution gives, access by access (30_encoding.md R102 to
R108, 40_step_cycle.md R150 to R152): each lemma is one access that succeeds or fails, and the
resolution of a memory operand is put together from them. -/

namespace Sys2Proof.Machine

/-! ## Fetches and bases (R103, R105, R143) -/

section
variable {s : State}

theorem fetch_of_translate {off pa : Word} (h : translate .code off s = .ok pa) :
    fetch off s = .ok (s.memRead pa) := by simp only [fetch, h]

theorem fetch_of_error {off : Word} {v : SegViol} (h : translate .code off s = .error v) :
    fetch off s = .error v := by simp only [fetch, h]

theorem fetch_error {off : Word} {v : SegViol} (h : fetch off s = .error v) :
    v = ⟨.code, off⟩ := by
  unfold fetch at h
  split at h
  next v' hv => cases h; exact (translate_error hv).2
  next => cases h

/-! ## Locations (R105 to R107) -/

variable {seg : DataSeg} {base : Option RegIdx} {e : Nat}

theorem effectiveAddress_of_ok {disp b : Word} (hx : fetchExtra e s = .ok disp)
    (hb : readBase base s = .ok b) : effectiveAddress base e s = .ok (disp + b) := by
  simp only [effectiveAddress, hx, hb]

theorem singleLocation_of_ea {ea : Word} (h : effectiveAddress base e s = .ok ea) :
    singleLocation seg base e s = translate (dataRole seg) ea s := by
  simp only [singleLocation, h]

theorem singleLocation_of_extra_error {v : SegViol} (h : fetchExtra e s = .error v) :
    singleLocation seg base e s = .error v := by
  simp only [singleLocation, effectiveAddress, h]

theorem singleLocation_of_base_error {disp : Word} {v : SegViol} (hx : fetchExtra e s = .ok disp)
    (hb : readBase base s = .error v) : singleLocation seg base e s = .error v := by
  simp only [singleLocation, effectiveAddress, hx, hb]

theorem doubleLocation_of_single {p : Word} (h : singleLocation seg base e s = .ok p) :
    doubleLocation seg base e s = translate (dataRole seg) (s.memRead p) s := by
  simp only [doubleLocation, h]

theorem doubleLocation_of_single_error {v : SegViol} (h : singleLocation seg base e s = .error v) :
    doubleLocation seg base e s = .error v := by simp only [doubleLocation, h]

/-- A data role's violation has kind code 1, Extra's too (R71, R81). -/
theorem dataRole_error_event {off : Word} {v : SegViol}
    (h : translate (dataRole seg) off s = .error v) (ip : Word) :
    v.event ip = .interrupt 2 ip [1, off] := by
  rw [(translate_error h).2]
  cases seg <;> rfl

theorem register_error_event {i : RegIdx} {v : SegViol} (h : regAddr i s = .error v) (ip : Word) :
    v.event ip = .interrupt 2 ip [2, BitVec.ofNat 32 i.val] := by
  rw [regAddr_error h]
  rfl

/-! ## Resolution (R150 to R152) -/

theorem resolve_imm_of_ok {x : Word} (h : fetchExtra e s = .ok x) :
    resolve .imm e s = .ok (x, .none) := by simp only [resolve, h, orSegViol_of_ok]

theorem resolve_reg_of_ok {i : RegIdx} {pa : Word} (h : regAddr i s = .ok pa) :
    resolve (.reg i) e s = .ok (s.memRead pa, .reg pa) := by
  simp only [resolve, h, orSegViol_of_ok]

theorem resolve_reg_of_error {i : RegIdx} {v : SegViol} (h : regAddr i s = .error v) :
    resolve (.reg i) e s = .error (v.event s.ip) := by
  simp only [resolve, h, orSegViol_of_error]

theorem resolve_single_of_ok {pa : Word} (h : singleLocation seg base e s = .ok pa) :
    resolve (.single seg base) e s = .ok (s.memRead pa, .mem pa) := by
  simp only [resolve, h, orSegViol_of_ok]

theorem resolve_double_of_ok {pa : Word} (h : doubleLocation seg base e s = .ok pa) :
    resolve (.double seg base) e s = .ok (s.memRead pa, .mem pa) := by
  simp only [resolve, h, orSegViol_of_ok]

theorem resolve_double_of_error {v : SegViol} (h : doubleLocation seg base e s = .error v) :
    resolve (.double seg base) e s = .error (v.event s.ip) := by
  simp only [resolve, h, orSegViol_of_error]

/-- Both memory forms raise a failure of the accesses they share: the extra word, the base and the
first level. -/
theorem resolve_memory_of_error {v : SegViol} (h : singleLocation seg base e s = .error v) :
    resolve (.single seg base) e s = .error (v.event s.ip) ∧
      resolve (.double seg base) e s = .error (v.event s.ip) :=
  ⟨by simp only [resolve, h, orSegViol_of_error],
    resolve_double_of_error (doubleLocation_of_single_error h)⟩

/-- The extra word is the first access of every form that has one (R150). -/
theorem resolve_of_extra_error {o : Operand} {v : SegViol} (h : fetchExtra e s = .error v)
    (ho : o.extraWords = 1) :
    resolve o e s = .error (.interrupt 2 s.ip [0, s.ip + BitVec.ofNat 32 (e + 1)]) := by
  obtain rfl := fetch_error h
  cases o with
  | imm => simp only [resolve, h, orSegViol_of_error]; rfl
  | reg i => cases ho
  | single seg base => exact (resolve_memory_of_error (singleLocation_of_extra_error h)).1
  | double seg base => exact (resolve_memory_of_error (singleLocation_of_extra_error h)).2
  | special n => cases ho

end

/-- A base register that cannot be read fails both memory forms. -/
theorem resolve_memory_of_base_error {s : State} {e : Nat} {i : RegIdx} {disp : Word} {v : SegViol}
    (seg : DataSeg) (hx : fetchExtra e s = .ok disp) (hb : readReg i s = .error v) :
    resolve (.single seg (some i)) e s = .error (.interrupt 2 s.ip [2, BitVec.ofNat 32 i.val]) ∧
      resolve (.double seg (some i)) e s =
        .error (.interrupt 2 s.ip [2, BitVec.ofNat 32 i.val]) := by
  rw [← register_error_event (readReg_error hb)]
  exact resolve_memory_of_error (singleLocation_of_base_error hx hb)

/-- Settles O14: the accesses of each form in their order; both memory forms share all but the
double form's second level. -/
theorem operandFormsResolve : Obligations.OperandFormsResolve := by
  refine ⟨⟨rfl, fun _ _ => rfl, fun _ _ => rfl, fun _ => rfl, fun _ => rfl, rfl, rfl⟩,
    fun s e => ⟨fun _ => ⟨fun _ => fetch_of_translate, fun _ => fetch_of_error⟩, rfl, rfl,
      fun _ => rfl, fun _ => resolve_imm_of_ok, fun _ h _ => resolve_of_extra_error h,
      fun _ _ => resolve_reg_of_ok, fun i v h => ?_, fun seg base disp b hx => ⟨?_, fun hb => ?_⟩⟩⟩
  · rw [resolve_reg_of_error h, register_error_event h]
  · rintro i v rfl hv
    exact resolve_memory_of_base_error seg hx hv
  · have hsingle : singleLocation seg base e s = translate (dataRole seg) (disp + b) s :=
      singleLocation_of_ea (effectiveAddress_of_ok hx hb)
    refine ⟨fun v hv => ?_, fun p hp => ⟨resolve_single_of_ok (hsingle.trans hp), ?_⟩⟩
    · rw [← dataRole_error_event hv]
      exact resolve_memory_of_error (hsingle.trans hv)
    · have hdouble := doubleLocation_of_single (hsingle.trans hp)
      exact ⟨fun pa hpa => resolve_double_of_ok (hdouble.trans hpa), fun v hv => by
        rw [← dataRole_error_event hv]
        exact resolve_double_of_error (hdouble.trans hv)⟩

end Sys2Proof.Machine
end

section
/-! SUPPORT. The words of the spec's own examples (30_encoding.md R126, 95_test_vectors.md). -/

namespace Sys2Proof

/-- Settles O4: the decoder evaluates each word. -/
theorem specWordsDecode : Obligations.SpecWordsDecode :=
  ⟨rfl, rfl, rfl, rfl, rfl, rfl, rfl, rfl, rfl, rfl, rfl⟩

end Sys2Proof
end

section
/-! SUPPORT. Stage 1 of the step (40_step_cycle.md R141, 60_exceptions.md R350): one equation per way
a tick can go, and what clearing TE leaves of INT. -/

namespace Sys2Proof.Machine

/-! ## Clearing TE (R36) -/

/-- The mask a match applies to INT is every bit but TE. -/
theorem teMask_eq : (0xFFFFFFFE : Word) = ~~~1#32 := by decide

theorem getLsbD_clearTe_zero (w : Word) : (w &&& 0xFFFFFFFE).getLsbD 0 = false := by
  simp

theorem getLsbD_clearTe_of_pos (w : Word) {k : Nat} (hk : 1 ≤ k) :
    (w &&& 0xFFFFFFFE).getLsbD k = w.getLsbD k := by
  have hlt : w.getLsbD k = true → k < 32 := BitVec.lt_of_getLsbD
  have hne : k ≠ 0 := Nat.ne_of_gt hk
  rw [teMask_eq, BitVec.getLsbD_and, BitVec.getLsbD_not, BitVec.getLsbD_one]
  simpa [hne] using hlt

/-! ## One tick (R350) -/

section
variable {s : State}

theorem State.tick_of_disabled (h : s.te = false) : s.tick = s := by
  simp [State.tick, h]

theorem State.tick_of_match (h : s.te = true) (hm : s.counter + 1 = s.compare) :
    s.tick = { s with counter := s.counter + 1, tp := true, int := s.int &&& 0xFFFFFFFE } := by
  rw [State.tick, if_pos h, if_pos hm]

theorem State.tick_of_no_match (h : s.te = true) (hm : s.counter + 1 ≠ s.compare) :
    s.tick = { s with counter := s.counter + 1 } := by
  rw [State.tick, if_pos h, if_neg hm]

theorem State.tick_counter (h : s.te = true) : s.tick.counter = s.counter + 1 := by
  by_cases hm : s.counter + 1 = s.compare
  · rw [State.tick_of_match h hm]
  · rw [State.tick_of_no_match h hm]

/-! ## Delivery or tick (R141) -/

theorem timerService_of_pending (h : s.tp = true ∧ s.ie = true) :
    timerService s = deliver (.interrupt 4 s.ip []) { s with tp := false } := by
  rw [timerService, if_pos h]
  rfl

theorem timerService_of_not_pending (h : ¬(s.tp = true ∧ s.ie = true)) :
    timerService s = .done s.tick := by
  rw [timerService, if_neg h]

end

/-- Settles O48: stage 1 is the delivery or the tick, and the tick goes by TE and by whether the
stepped COUNTER reaches COMPARE. -/
theorem timerServiceRule : Obligations.TimerServiceRule := by
  intro s
  refine ⟨timerService_of_pending, fun hn =>
    ⟨s.tick, timerService_of_not_pending hn, s.tick_eq, State.tick_of_disabled, fun hte => ?_⟩⟩
  have hcounter := State.tick_counter hte
  rw [hcounter]
  refine ⟨?_, fun hm => ?_, fun hm => ?_⟩
  · rw [BitVec.ofNat_add, BitVec.ofNat_toNat, BitVec.setWidth_eq]
    rfl
  · rw [State.tick_of_no_match hte hm]
    exact ⟨rfl, rfl⟩
  · rw [State.tick_of_match hte hm]
    exact ⟨rfl, getLsbD_clearTe_zero _, fun k hk => getLsbD_clearTe_of_pos _ hk⟩

end Sys2Proof.Machine
end

section
/-! SUPPORT. Stages 2 to 6 of the step (40_step_cycle.md R140 to R151): what fetch and decode lead
to, the privilege check and the operand events of every instruction, and which instruction can end a
step with `Stop` (R172). -/

namespace Sys2Proof.Machine

/-! ## Fetch and decode (R143, R145) -/

section
variable {s : State}

theorem fetchInstr_of_decode {w : Word} {i : Instr} (hf : fetch s.ip s = .ok w)
    (hd : decode w = .ok i) : fetchInstr s = .ok i := by
  simp only [fetchInstr, hf, hd]

/-- A fetch violates the Code segment, whose kind code is 0 (R81), at the fetched offset. -/
theorem fetchInstr_of_violation {v : SegViol} (hf : fetch s.ip s = .error v) :
    fetchInstr s = .error (.interrupt 2 s.ip [0, s.ip]) := by
  obtain rfl := fetch_error hf
  simp only [fetchInstr, hf]
  rfl

theorem step_of_fetchInstr_ok {s1 : State} {i : Instr} (hr : s.status = .running)
    (ht : timerService s = .done s1) (hf : fetchInstr s1 = .ok i) : step s = exec i s1 := by
  simp only [step, hr, ht, hf]

end

/-- Settles O5: fetch and decode give the instruction, and the step runs it. -/
theorem stepRunsDecodedInstruction : Obligations.StepRunsDecodedInstruction :=
  fun _ _ _ _ hr ht hf hd => step_of_fetchInstr_ok hr ht (fetchInstr_of_decode hf hd)

/-- Settles O6: the fetch's violation is the event of stages 2 and 3. -/
theorem fetchViolationIsDelivered : Obligations.FetchViolationIsDelivered :=
  fun _ _ _ hr ht hf =>
    ⟨fetch_error hf, step_of_fetchInstr_error hr ht (fetchInstr_of_violation hf)⟩

/-- Settles O8: by the cases of what an instruction can do. -/
theorem everyInstructionAnswersNext : Obligations.EveryInstructionAnswersNext := exec_next

/-! ## Privilege (R148, R149) -/

section
variable {priv : Byte} {o o' : Operand} {s : State}

theorem run0_violation {body : Word → Except Event Effect} (h : priv.zeroExtend 32 < s.cpl) :
    run0 priv s body = (deliver (.interrupt 3 s.ip []) s).toOutcome := by
  simp only [run0, checkPriv_violation h]

theorem run1_violation {body : Word → Word → Except Event Effect}
    (h : priv.zeroExtend 32 < s.cpl) :
    run1 priv o s body = (deliver (.interrupt 3 s.ip []) s).toOutcome := by
  simp only [run1, checkPriv_violation h]

theorem run2_violation {body : Word → Word → Except Event Effect}
    (h : priv.zeroExtend 32 < s.cpl) :
    run2 priv o o' s body = (deliver (.interrupt 3 s.ip []) s).toOutcome := by
  simp only [run2, checkPriv_violation h]

/-- Every combinator checks `priv` first, so no operand is looked at. -/
theorem raises_of_violation {i : Instr} (h : i.requiredPriv.zeroExtend 32 < s.cpl) :
    Raises i s (.interrupt 3 s.ip []) := by
  cases exec_shape i s with
  | none body _ hx => exact hx.trans (run0_violation h)
  | one o body _ hx => exact hx.trans (run1_violation h)
  | two o o' body _ hx => exact hx.trans (run2_violation h)

end

/-- Settles O10: the violation by the combinator the instruction runs in, and the check's law. -/
theorem privilegeViolationIsDelivered : Obligations.PrivilegeViolationIsDelivered :=
  fun i s => ⟨raises_of_violation, checkPriv_ok_iff i.requiredPriv s⟩

/-! ## Operand events (R150, R151) -/

/-- Settles O12: operand 1's event whatever follows it, then operand 2's. -/
theorem operandEventsAreDelivered : Obligations.OperandEventsAreDelivered :=
  ⟨fun _ _ _ _ _ hp ho hr => raises_of_operand1 hp ho hr,
    fun _ _ _ _ _ _ hp ho hr hr' => raises_of_operand2 hp ho hr hr'⟩

/-! ## Stop (R172, R275) -/

/-- An effect ends the step with `Continue` or in its fatal error. -/
theorem Eff.outcome_ne_stop_of_toOutcome {e : Eff} {t : State} (h : e.toOutcome = .next t) :
    t.outcome ≠ .stop := by
  cases e with
  | done u => cases h; simp
  | fatal r u => cases h; simp

theorem outcome_ne_stop_of_continues {o : Host.Outcome State Fault Refusal} {u t : State}
    (hu : o = .next u.continues) (ht : o = .next t) : t.outcome ≠ .stop := by
  cases hu.symm.trans ht
  simp

/-- Every case of an instruction but host-mode HALT's ends by an effect or with `Continue`. -/
theorem exec_stop {i : Instr} {s t : State} (h : exec i s = .next t) (ho : t.outcome = .stop) :
    ∃ p, i = .halt p ∧ s.inVM = false ∧ t = s.stops := by
  cases exec_cases i s with
  | halted p hi hv hx =>
    cases hx.symm.trans h
    exact ⟨p, hi, hv, rfl⟩
  | raised _ _ hx => exact absurd ho (Eff.outcome_ne_stop_of_toOutcome (hx.symm.trans h))
  | stored _ _ _ _ _ _ _ hx => exact absurd ho (Eff.outcome_ne_stop_of_toOutcome (hx.symm.trans h))
  | resumed _ _ _ _ _ _ _ _ hx =>
    exact absurd ho (Eff.outcome_ne_stop_of_toOutcome (hx.symm.trans h))
  | moved _ _ _ hx => exact absurd ho (outcome_ne_stop_of_continues hx h)
  | compared _ _ _ _ _ _ _ hx => exact absurd ho (outcome_ne_stop_of_continues hx h)
  | toggled _ _ _ _ _ hx => exact absurd ho (outcome_ne_stop_of_continues hx h)
  | printed _ _ _ _ _ _ hx => exact absurd ho (outcome_ne_stop_of_continues hx h)

theorem running_of_step_next {s t : State} (h : step s = .next t) : s.status = .running := by
  cases hr : s.status with
  | running => rfl
  | fatal r => cases (step_fatal hr).symm.trans h

/-- Settles O9: a step that ends in stage 1 or in an event does not say `Stop`, and of the
instructions only a host-mode HALT does. -/
theorem stopOnlyOnHostHalt : Obligations.StopOnlyOnHostHalt := by
  intro s t h ho
  rcases step_running_cases (running_of_step_next h) with
    ⟨r, u, -, hx⟩ | ⟨s1, ev, -, -, hx⟩ | ⟨s1, i, ht, hf, hx⟩
  · cases hx.symm.trans h
    simp at ho
  · exact absurd ho (Eff.outcome_ne_stop_of_toOutcome (hx.symm.trans h))
  · obtain ⟨p, rfl, hv, rfl⟩ := exec_stop (hx.symm.trans h) ho
    exact ⟨s1, p, ht, hf, hv, rfl⟩

end Sys2Proof.Machine
end

section
/-! SUPPORT. Arithmetic, bitwise, move and compare (41_arithmetic_logic.md R179 to R196): each
operation on words as a function of the numbers they hold, what CMP leaves in Flags, and how an
instruction completes whose result is a function of its operand values. -/

namespace Sys2Proof.Machine

/-! ## Words as numbers (R7, R181, R184) -/

/-- Word subtraction wraps where the exact difference is negative. -/
theorem sub_eq_ofInt (a b : Word) : a - b = BitVec.ofInt 32 ((a.toNat : Int) - b.toNat) := by
  simp only [Int.sub_eq_add_neg, BitVec.ofInt_add, BitVec.ofInt_neg, BitVec.ofInt_natCast,
    BitVec.ofNat_toNat, BitVec.setWidth_eq, BitVec.sub_eq_add_neg]

theorem mul_eq_ofNat (a b : Word) : a * b = BitVec.ofNat 32 (a.toNat * b.toNat) := by
  simp only [BitVec.ofNat_mul, BitVec.ofNat_toNat, BitVec.setWidth_eq]

/-- A word is its divisor times its quotient plus its remainder, with no wrap-around. -/
theorem mul_udiv_add_umod (a b : Word) : b * (a / b) + a % b = a := by
  apply BitVec.eq_of_toNat_eq
  have hle : b.toNat * (a.toNat / b.toNat) ≤ a.toNat := Nat.mul_div_le _ _
  rw [BitVec.toNat_add, BitVec.toNat_mul, BitVec.toNat_udiv, BitVec.toNat_umod,
    Nat.mod_eq_of_lt (hle.trans_lt a.isLt), Nat.div_add_mod, Nat.mod_eq_of_lt a.isLt]

/-- MOD's formula of R184 is the unsigned remainder. -/
theorem sub_mul_udiv (a b : Word) : a - b * (a / b) = BitVec.ofNat 32 (a.toNat % b.toNat) :=
  calc a - b * (a / b) = a % b := sub_eq_of_eq_add' (mul_udiv_add_umod a b).symm
    _ = BitVec.ofNat 32 (a.toNat % b.toNat) := BitVec.umod_def

/-! ## Words bit by bit (R185 to R188) -/

section
variable {a b v : Word}

theorem or_eq_of_bits (h : ∀ k, k < 32 → v.getLsbD k = (a.getLsbD k || b.getLsbD k)) :
    a ||| b = v :=
  BitVec.eq_of_getLsbD_eq fun k hk => by rw [BitVec.getLsbD_or, h k hk]

theorem xor_eq_of_bits (h : ∀ k, k < 32 → v.getLsbD k = (a.getLsbD k != b.getLsbD k)) :
    a ^^^ b = v :=
  BitVec.eq_of_getLsbD_eq fun k hk => by rw [BitVec.getLsbD_xor, h k hk]

theorem and_eq_of_bits (h : ∀ k, k < 32 → v.getLsbD k = (a.getLsbD k && b.getLsbD k)) :
    a &&& b = v :=
  BitVec.eq_of_getLsbD_eq fun k hk => by rw [BitVec.getLsbD_and, h k hk]

/-! ## Shifts (R190, R191) -/

theorem le_count_iff : (32 : Word) ≤ b ↔ 32 ≤ b.toNat := BitVec.le_def

theorem shiftLeft_of_lt (h : b.toNat < 32) :
    shiftLeft a b = BitVec.ofNat 32 (a.toNat * 2 ^ b.toNat) := by
  have hb : ¬(32 : Word) ≤ b := fun hc => absurd (le_count_iff.1 hc) (Nat.not_le.2 h)
  rw [shiftLeft, if_neg hb]
  apply BitVec.eq_of_toNat_eq
  rw [BitVec.toNat_shiftLeft, Nat.shiftLeft_eq, BitVec.toNat_ofNat]

theorem shiftRight_of_lt (h : b.toNat < 32) :
    shiftRight a b = BitVec.ofNat 32 (a.toNat / 2 ^ b.toNat) := by
  have hb : ¬(32 : Word) ≤ b := fun hc => absurd (le_count_iff.1 hc) (Nat.not_le.2 h)
  have hle : a.toNat / 2 ^ b.toNat ≤ a.toNat := Nat.div_le_self _ _
  rw [shiftRight, if_neg hb]
  apply BitVec.eq_of_toNat_eq
  rw [BitVec.toNat_ushiftRight, Nat.shiftRight_eq_div_pow, BitVec.toNat_ofNat,
    Nat.mod_eq_of_lt (hle.trans_lt a.isLt)]

theorem shiftLeft_of_le (h : 32 ≤ b.toNat) : shiftLeft a b = 0 := if_pos (le_count_iff.2 h)

theorem shiftRight_of_le (h : 32 ≤ b.toNat) : shiftRight a b = 0 := if_pos (le_count_iff.2 h)

end

/-! ## What CMP leaves in Flags (R26, R196) -/

section
variable (a b flags : Word)

theorem getLsbD_cmpFlags_zero : (cmpFlags a b flags).getLsbD 0 = true ↔ a = b := by
  have hge : (if b ≤ a then (2 : Word) else 0).getLsbD 0 = false := by split <;> rfl
  rw [cmpFlags, BitVec.getLsbD_or, hge]
  split <;> simp [*]

theorem getLsbD_cmpFlags_one :
    (cmpFlags a b flags).getLsbD 1 = true ↔ b.toNat ≤ a.toNat := by
  have hz : (if a = b then (1 : Word) else 0).getLsbD 1 = false := by split <;> rfl
  rw [cmpFlags, BitVec.getLsbD_or, BitVec.getLsbD_or, hz, ← BitVec.le_def]
  split <;> simp [*]

/-- CMP's mask is every bit but Z and GE. -/
theorem cmpMask_eq : (0xFFFFFFFC : Word) = ~~~3#32 := by decide

theorem getLsbD_of_toNat_lt_four {w : Word} (hw : w.toNat < 4) {k : Nat} (hk : 2 ≤ k) :
    w.getLsbD k = false :=
  Nat.testBit_lt_two_pow (hw.trans_le (Nat.pow_le_pow_right (n := 2) (by decide) hk))

theorem getLsbD_cmpFlags_of_two_le {k : Nat} (hk : 2 ≤ k) :
    (cmpFlags a b flags).getLsbD k = flags.getLsbD k := by
  have hz : (if a = b then (1 : Word) else 0).getLsbD k = false :=
    getLsbD_of_toNat_lt_four (by split <;> decide) hk
  have hge : (if b ≤ a then (2 : Word) else 0).getLsbD k = false :=
    getLsbD_of_toNat_lt_four (by split <;> decide) hk
  have hmask : (3#32).getLsbD k = false := getLsbD_of_toNat_lt_four (by decide) hk
  have hlt : flags.getLsbD k = true → k < 32 := BitVec.lt_of_getLsbD
  rw [cmpFlags, cmpMask_eq, BitVec.getLsbD_or, BitVec.getLsbD_or, BitVec.getLsbD_and,
    BitVec.getLsbD_not, hz, hge, hmask]
  simpa using hlt

end

/-! ## Two operands that resolve (R158, R160, R170) -/

section
variable {i : Instr} {f : Word → Word → Word} {priv : Byte} {dst src : Operand} {s : State}
  {a b v : Word} {t t' : Target}
  (hp : s.cpl ≤ priv.zeroExtend 32) (hr : resolve dst 0 s = .ok (a, t))
  (hr' : resolve src dst.extraWords s = .ok (b, t'))
include hp hr hr'

/-- An execute stage that only gives a result stores it in the state it started from. -/
theorem completesWith_of_run2 {body : Word → Word → Except Event Effect}
    (h : exec i s = run2 priv dst src s body) (hb : body a b = .ok (.result v s)) :
    CompletesWith i s t v (nextIp (dst.extraWords + src.extraWords) s) :=
  completesFrom_of_result (h.trans (run2_ok hp hr hr' hb))

theorem completesWith_of_runBinary (h : exec i s = runBinary f priv dst src s) (hv : f a b = v) :
    CompletesWith i s t v (nextIp (dst.extraWords + src.extraWords) s) :=
  completesWith_of_run2 hp hr hr' h (by rw [hv])

theorem completesWith_of_runDivision (h : exec i s = runDivision f priv dst src s) (hb : b ≠ 0)
    (hv : f a b = v) : CompletesWith i s t v (nextIp (dst.extraWords + src.extraWords) s) :=
  completesWith_of_run2 hp hr hr' h (by rw [if_neg hb, hv])

theorem raises_of_runDivision (h : exec i s = runDivision f priv dst src s) (hb : b = 0) :
    Raises i s (.interrupt 0 s.ip []) :=
  h.trans (run2_raises hp hr hr' (if_pos hb))

theorem exec_cmp : exec (.cmp priv dst src) s =
    .next ((s.compareFlags a b).jump (nextIp (dst.extraWords + src.extraWords) s)).continues :=
  run2_ok (body := fun a b => .ok (.advance (s.compareFlags a b))) hp hr hr' rfl

end

/-! ## The obligations -/

/-- Settles O24: each is a function of its operand values, and word arithmetic is the exact integer
arithmetic reduced. -/
theorem arithmeticResults : Obligations.ArithmeticResults := by
  intro priv dst src s a b t t' hp hr hr' next
  exact ⟨completesWith_of_runBinary hp hr hr' rfl (BitVec.add_def a b),
    completesWith_of_runBinary hp hr hr' rfl (sub_eq_ofInt a b),
    completesWith_of_runBinary hp hr hr' rfl (mul_eq_ofNat a b),
    opcodeField_packWord _ _ _ _, opcodeField_packWord _ _ _ _, opcodeField_packWord _ _ _ _⟩

/-- Settles O25: by whether the divisor is 0, which both test before they compute. -/
theorem divisionResults : Obligations.DivisionResults := by
  intro priv dst src s a b t t' hp hr hr' next
  refine ⟨fun hb => ⟨?_, ?_⟩, fun hb => ⟨?_, ?_⟩,
    opcodeField_packWord _ _ _ _, opcodeField_packWord _ _ _ _⟩
  · exact completesWith_of_runDivision hp hr hr' rfl hb BitVec.udiv_def
  · exact completesWith_of_runDivision hp hr hr' rfl hb (sub_mul_udiv a b)
  · exact raises_of_runDivision hp hr hr' rfl hb
  · exact raises_of_runDivision hp hr hr' rfl hb

/-- Settles O26: a word is its 32 bits, and NOT runs XOR's function. -/
theorem bitwiseResults : Obligations.BitwiseResults := by
  intro priv dst src s a b v t t' hp hr hr' next
  refine ⟨fun h => ?_, fun h => ⟨?_, ?_⟩, fun h => ?_, opcodeField_packWord _ _ _ _,
    opcodeField_packWord _ _ _ _, opcodeField_packWord _ _ _ _, opcodeField_packWord _ _ _ _⟩
  · exact completesWith_of_runBinary hp hr hr' rfl (or_eq_of_bits h)
  · exact completesWith_of_runBinary hp hr hr' rfl (xor_eq_of_bits h)
  · exact completesWith_of_runBinary hp hr hr' rfl (xor_eq_of_bits h)
  · exact completesWith_of_runBinary hp hr hr' rfl (and_eq_of_bits h)

/-- Settles O27: by whether the whole count is below 32. -/
theorem shiftResults : Obligations.ShiftResults := by
  intro priv dst src s a b t t' hp hr hr' next
  refine ⟨fun h => ⟨?_, ?_⟩, fun h => ⟨?_, ?_⟩,
    opcodeField_packWord _ _ _ _, opcodeField_packWord _ _ _ _⟩
  · exact completesWith_of_runBinary hp hr hr' rfl (shiftLeft_of_lt h)
  · exact completesWith_of_runBinary hp hr hr' rfl (shiftRight_of_lt h)
  · exact completesWith_of_runBinary hp hr hr' rfl (shiftLeft_of_le h)
  · exact completesWith_of_runBinary hp hr hr' rfl (shiftRight_of_le h)

/-- Settles O28: the result is operand 2's value itself; what its store does to each target,
SEGTBL and VMTBL with their parses among them, is `completesFrom_of_result`. -/
theorem moveResult : Obligations.MoveResult :=
  fun _ _ _ _ _ _ _ _ hp hr hr' =>
    ⟨completesWith_of_runBinary hp hr hr' rfl rfl, opcodeField_packWord _ _ _ _⟩

/-- Settles O29: the next state is `exec_cmp`'s, which differs in Flags, IP and the outcome, and its
Flags are read bit by bit. -/
theorem compareSetsFlags : Obligations.CompareSetsFlags :=
  fun _ _ _ s a b _ _ hp hr hr' =>
    ⟨⟨_, exec_cmp hp hr hr', rfl, getLsbD_cmpFlags_zero a b s.flags,
      getLsbD_cmpFlags_one a b s.flags, fun _ => getLsbD_cmpFlags_of_two_le a b s.flags⟩,
      opcodeField_packWord _ _ _ _⟩

end Sys2Proof.Machine
end

section
/-! SUPPORT. Jumps, calls, returns, frames and the stack (42_control_and_stack.md R220 to R246,
R261): what each execute stage gives where its checks pass, and what it fails with where one does
not; then how the instruction ends in either case. -/

namespace Sys2Proof.Machine

/-! ## Execute stages whose checks pass (R220, R236 to R242) -/

section
variable {s : State} {spAddr fpAddr pa : Word}

theorem popIp_eq (hsp : regAddr Config.SP_INDEX s = .ok spAddr)
    (hpa : translate .stack (s.memRead spAddr) s = .ok pa) :
    popIp s = .ok ((s.memWrite spAddr (s.memRead spAddr + 1)).jump (s.memRead pa)) := by
  simp only [popIp, pop_eq hsp hpa]

/-- RETN's second read of SP finds the popped SP (R237). -/
theorem popIpDiscard_eq (n : Word) (hsp : regAddr Config.SP_INDEX s = .ok spAddr)
    (hpa : translate .stack (s.memRead spAddr) s = .ok pa) :
    popIpDiscard n s = .ok (((s.memWrite spAddr (s.memRead spAddr + 1)).memWrite spAddr
      (s.memRead spAddr + 1 + n)).jump (s.memRead pa)) := by
  have hsp' : regAddr Config.SP_INDEX (s.memWrite spAddr (s.memRead spAddr + 1)) = .ok spAddr :=
    (regAddr_memWrite _ _ _ _).trans hsp
  simp only [popIpDiscard, pop_eq hsp hpa, readReg_of_regAddr hsp', writeReg_of_regAddr _ hsp',
    State.memRead_memWrite_same]

theorem enterFrame_eq (hsp : regAddr Config.SP_INDEX s = .ok spAddr)
    (hfp : regAddr Config.FP_INDEX s = .ok fpAddr)
    (hpa : translate .stack (s.memRead spAddr - 1) s = .ok pa) :
    enterFrame s = .ok (((s.memWrite pa (s.memRead fpAddr)).memWrite spAddr
      (s.memRead spAddr - 1)).memWrite fpAddr (s.memRead spAddr - 1)) := by
  simp only [enterFrame, hsp, hfp, hpa]

theorem leaveFrame_eq (hsp : regAddr Config.SP_INDEX s = .ok spAddr)
    (hfp : regAddr Config.FP_INDEX s = .ok fpAddr)
    (hpa : translate .stack (s.memRead fpAddr) s = .ok pa) :
    leaveFrame s =
      .ok ((s.memWrite spAddr (s.memRead fpAddr + 1)).memWrite fpAddr (s.memRead pa)) := by
  simp only [leaveFrame, hsp, hfp, hpa]

theorem argument_eq {n : Word} (hfp : regAddr Config.FP_INDEX s = .ok fpAddr)
    (hpa : translate .stack (s.memRead fpAddr + 2 + n) s = .ok pa) :
    argument n s = .ok (s.memRead pa) := by
  simp only [argument, readReg_of_regAddr hfp, hpa]

end

/-! ## Execute stages with a failing check (R220, R240 to R242) -/

section
variable {s : State} {spAddr fpAddr : Word} {v : SegViol}

theorem push_of_sp_error (vs : List Word) (h : regAddr Config.SP_INDEX s = .error v) :
    push vs s = .error v := by simp only [push, h]

theorem push_one_of_slot_error (w : Word) (hsp : regAddr Config.SP_INDEX s = .ok spAddr)
    (h : translate .stack (s.memRead spAddr - 1) s = .error v) : push [w] s = .error v := by
  simp only [push, hsp, pushSlots, h]

theorem pop_of_sp_error (h : regAddr Config.SP_INDEX s = .error v) : pop s = .error v := by
  simp only [pop, h]

theorem pop_of_slot_error (hsp : regAddr Config.SP_INDEX s = .ok spAddr)
    (h : translate .stack (s.memRead spAddr) s = .error v) : pop s = .error v := by
  simp only [pop, hsp, h]

theorem popIp_of_pop_error (h : pop s = .error v) : popIp s = .error v := by
  simp only [popIp, h]

theorem popIpDiscard_of_pop_error (n : Word) (h : pop s = .error v) :
    popIpDiscard n s = .error v := by simp only [popIpDiscard, h]

theorem enterFrame_of_sp_error (h : regAddr Config.SP_INDEX s = .error v) :
    enterFrame s = .error v := by simp only [enterFrame, h]

theorem enterFrame_of_slot_error (hsp : regAddr Config.SP_INDEX s = .ok spAddr)
    (hfp : regAddr Config.FP_INDEX s = .ok fpAddr)
    (h : translate .stack (s.memRead spAddr - 1) s = .error v) : enterFrame s = .error v := by
  simp only [enterFrame, hsp, hfp, h]

theorem leaveFrame_of_fp_error (h : regAddr Config.FP_INDEX s = .error v) :
    leaveFrame s = .error v := by simp only [leaveFrame, h]

theorem leaveFrame_of_slot_error (hfp : regAddr Config.FP_INDEX s = .ok fpAddr)
    (h : translate .stack (s.memRead fpAddr) s = .error v) : leaveFrame s = .error v := by
  simp only [leaveFrame, hfp, h]

theorem argument_of_fp_error (n : Word) (h : regAddr Config.FP_INDEX s = .error v) :
    argument n s = .error v := by simp only [argument, readReg_of_error h]

theorem argument_of_slot_error {n : Word} (hfp : regAddr Config.FP_INDEX s = .ok fpAddr)
    (h : translate .stack (s.memRead fpAddr + 2 + n) s = .error v) : argument n s = .error v := by
  simp only [argument, readReg_of_regAddr hfp, h]

end

/-! ## How an instruction ends: by its execute stage (R158, R170, R171, R173) -/

section
variable {priv : Byte} {s u : State} {v : SegViol} (hp : s.cpl ≤ priv.zeroExtend 32)
include hp

theorem exec_ret (h : popIp s = .ok u) : exec (.ret priv) s = .next u.continues :=
  show execRet priv s = _ from run0_ok (x := .redirect u) hp (by simp only [h, orSegViol_of_ok])

theorem raises_ret (h : pop s = .error v) : Raises (.ret priv) s (v.event s.ip) :=
  show execRet priv s = _ from
    run0_raises hp (by simp only [popIp_of_pop_error h, orSegViol_of_error])

/-- RETI runs RET's execute stage (R261). -/
theorem exec_reti (h : popIp s = .ok u) : exec (.reti priv) s = .next u.continues := exec_ret hp h

theorem raises_reti (h : pop s = .error v) : Raises (.reti priv) s (v.event s.ip) :=
  raises_ret hp h

theorem exec_enter (h : enterFrame s = .ok u) :
    exec (.enter priv) s = .next (u.jump (nextIp 0 s)).continues :=
  show execEnter priv s = _ from run0_ok (x := .advance u) hp (by simp only [h, orSegViol_of_ok])

theorem raises_enter (h : enterFrame s = .error v) : Raises (.enter priv) s (v.event s.ip) :=
  show execEnter priv s = _ from run0_raises hp (by simp only [h, orSegViol_of_error])

theorem exec_leave (h : leaveFrame s = .ok u) :
    exec (.leave priv) s = .next (u.jump (nextIp 0 s)).continues :=
  show execLeave priv s = _ from run0_ok (x := .advance u) hp (by simp only [h, orSegViol_of_ok])

theorem raises_leave (h : leaveFrame s = .error v) : Raises (.leave priv) s (v.event s.ip) :=
  show execLeave priv s = _ from run0_raises hp (by simp only [h, orSegViol_of_error])

section
variable {o : Operand} {a : Word} {t : Target} (hr : resolve o 0 s = .ok (a, t))
include hr

/-- A jump taken where `c` holds, `P` saying when that is (R225 to R229). -/
theorem exec_of_runJump {i : Instr} {c : Bool} {P : Prop} (h : exec i s = runJump c priv o s)
    (hc : c = true ↔ P) :
    (P → exec i s = .next (s.jump a).continues) ∧
      (¬P → exec i s = .next (s.jump (nextIp o.extraWords s)).continues) := by
  have hx : exec i s = complete (nextIp o.extraWords s) t
      (if c then .redirect (s.jump a) else .advance s) := h.trans (run1_ok hp hr rfl)
  refine ⟨fun hP => ?_, fun hP => ?_⟩
  · rw [hx, if_pos (hc.2 hP)]; rfl
  · rw [hx, if_neg (mt hc.1 hP)]; rfl

theorem exec_call (h : push [nextIp o.extraWords s] s = .ok u) :
    exec (.call priv o) s = .next (u.jump a).continues :=
  show execCall priv o s = _ from
    run1_ok (x := .redirect (u.jump a)) hp hr (by simp only [h, orSegViol_of_ok])

theorem raises_call (h : push [nextIp o.extraWords s] s = .error v) :
    Raises (.call priv o) s (v.event s.ip) :=
  show execCall priv o s = _ from run1_raises hp hr (by simp only [h, orSegViol_of_error])

theorem exec_push (h : push [a] s = .ok u) :
    exec (.push priv o) s = .next (u.jump (nextIp o.extraWords s)).continues :=
  show execPush priv o s = _ from
    run1_ok (x := .advance u) hp hr (by simp only [h, orSegViol_of_ok])

theorem raises_push (h : push [a] s = .error v) : Raises (.push priv o) s (v.event s.ip) :=
  show execPush priv o s = _ from run1_raises hp hr (by simp only [h, orSegViol_of_error])

theorem exec_retn (h : popIpDiscard a s = .ok u) : exec (.retn priv o) s = .next u.continues :=
  show execRetn priv o s = _ from
    run1_ok (x := .redirect u) hp hr (by simp only [h, orSegViol_of_ok])

theorem raises_retn (h : pop s = .error v) : Raises (.retn priv o) s (v.event s.ip) :=
  show execRetn priv o s = _ from
    run1_raises hp hr (by simp only [popIpDiscard_of_pop_error a h, orSegViol_of_error])

/-- POP's result is stored in the state with SP moved (R162, R246). -/
theorem exec_pop {w : Word} (h : pop s = .ok (w, u)) :
    exec (.pop priv o) s = complete (nextIp o.extraWords s) t (.result w u) :=
  show execPop priv o s = _ from run1_ok hp hr (by simp only [h, orSegViol_of_ok])

theorem raises_pop (h : pop s = .error v) : Raises (.pop priv o) s (v.event s.ip) :=
  show execPop priv o s = _ from run1_raises hp hr (by simp only [h, orSegViol_of_error])

variable {o' : Operand} {b : Word} {t' : Target}
  (hr' : resolve o' o.extraWords s = .ok (b, t'))
include hr'

theorem completesWith_getargument {w : Word} (h : argument b s = .ok w) :
    CompletesWith (.getargument priv o o') s t w (nextIp (o.extraWords + o'.extraWords) s) :=
  completesWith_of_run2 hp hr hr' rfl (by simp only [h, orSegViol_of_ok])

theorem raises_getargument (h : argument b s = .error v) :
    Raises (.getargument priv o o') s (v.event s.ip) :=
  run2_raises hp hr hr' (by simp only [h, orSegViol_of_error])

end

end

/-! ## What memory holds after them -/

/-- SP written twice, as RETN does: the second value stays. -/
theorem storesOnly_memWrite_memWrite (s : State) (pa w v next : Word) :
    StoresOnly s (((s.memWrite pa w).memWrite pa v).jump next).continues pa v next :=
  ⟨rfl, (s.memWrite pa w).memRead_memWrite_same pa v, fun _ hq =>
    ((s.memWrite pa w).memRead_memWrite_other v hq).trans (s.memRead_memWrite_other w hq)⟩

/-- r29 and r30 are two words: a role translates no two offsets to one word. -/
theorem spAddr_ne_fpAddr {s : State} {spAddr fpAddr : Word}
    (hsp : regAddr Config.SP_INDEX s = .ok spAddr)
    (hfp : regAddr Config.FP_INDEX s = .ok fpAddr) : spAddr ≠ fpAddr := by
  rintro rfl
  exact absurd (translate_inj hsp hfp) (by decide)

/-- What ENTER's three writes leave, whichever of the words are one. -/
theorem enterFrame_words (s : State) (pa qa ra w v : Word) :
    let u := ((s.memWrite pa w).memWrite qa v).memWrite ra v
    u.memRead qa = v ∧ u.memRead ra = v ∧ (pa ≠ qa → pa ≠ ra → u.memRead pa = w) ∧
      KeepsWordsBut s u [qa, ra, pa] := by
  refine ⟨?_, State.memRead_memWrite_same _ _ _, fun hq hr => ?_, fun xa hx => ?_⟩
  · rw [State.memRead_memWrite, State.memRead_memWrite_same, ite_self]
  · rw [State.memRead_memWrite_other _ _ hr, State.memRead_memWrite_other _ _ hq,
      State.memRead_memWrite_same]
  · simp only [List.mem_cons, List.not_mem_nil, or_false, not_or] at hx
    obtain ⟨hq, hr, hpa⟩ := hx
    rw [State.memRead_memWrite_other _ _ hr, State.memRead_memWrite_other _ _ hq,
      State.memRead_memWrite_other _ _ hpa]

/-- What LEAVE's two writes leave. -/
theorem leaveFrame_words (s : State) {qa ra : Word} (w v : Word) (hne : qa ≠ ra) :
    let u := (s.memWrite qa w).memWrite ra v
    u.memRead qa = w ∧ u.memRead ra = v ∧ KeepsWordsBut s u [qa, ra] := by
  refine ⟨?_, State.memRead_memWrite_same _ _ _, fun xa hx => ?_⟩
  · rw [State.memRead_memWrite_other _ _ hne, State.memRead_memWrite_same]
  · simp only [List.mem_cons, List.not_mem_nil, or_false, not_or] at hx
    obtain ⟨hq, hr⟩ := hx
    rw [State.memRead_memWrite_other _ _ hr, State.memRead_memWrite_other _ _ hq]

/-! ## A violation as the interrupt it is (R72, R313) -/

section
variable {i : Instr} {s : State} {v : SegViol}

theorem raisesSegViol_register {r : RegIdx} (hv : regAddr r s = .error v)
    (h : Raises i s (v.event s.ip)) : RaisesSegViol i s 2 (BitVec.ofNat 32 r.val) := by
  rwa [register_error_event hv] at h

/-- The Stack role's kind code is 3 (R81). -/
theorem raisesSegViol_stack {off : Word} (hv : translate .stack off s = .error v)
    (h : Raises i s (v.event s.ip)) : RaisesSegViol i s 3 off := by
  rw [(translate_error hv).2] at h
  exact h

end

/-! ## The obligations -/

/-- Settles O30: each jump is taken exactly where its own condition on Z and GE holds. -/
theorem jumpsFollowFlags : Obligations.JumpsFollowFlags := by
  intro priv op1 s a t hp hr taken fallsThrough z ge
  have hjmp := exec_of_runJump (i := .jmp priv op1) hp hr rfl (iff_true_intro rfl)
  have hjz := exec_of_runJump (i := .jz priv op1) (P := z) hp hr rfl Iff.rfl
  have hjnz := exec_of_runJump (i := .jnz priv op1) (P := ¬z) hp hr rfl
    (by simp [z, State.zero])
  have hjgt := exec_of_runJump (i := .jgt priv op1) (P := ge ∧ ¬z) hp hr rfl
    (by simp [z, ge, State.zero, State.greaterEqual])
  have hjge := exec_of_runJump (i := .jge priv op1) (P := ge) hp hr rfl Iff.rfl
  exact ⟨hjmp.1 trivial, hjz.1, hjz.2, hjnz.1, fun hz => hjnz.2 (not_not_intro hz),
    hjgt.1, hjgt.2, hjge.1, hjge.2, opcodeField_packWord _ _ _ _, opcodeField_packWord _ _ _ _,
    opcodeField_packWord _ _ _ _, opcodeField_packWord _ _ _ _, opcodeField_packWord _ _ _ _⟩

/-- Settles O31: both push one word (`push_one`), and `push_one_words` says what that leaves. -/
theorem pushAndCallStoreOneWord : Obligations.PushAndCallStoreOneWord := by
  intro priv op1 s a spAddr pa t hp hr hsp hpa next
  exact ⟨⟨_, exec_push hp hr (push_one a hsp hpa), rfl, push_one_words s spAddr pa a⟩,
    ⟨_, exec_call hp hr (push_one _ hsp hpa), rfl, push_one_words s spAddr pa next⟩,
    opcodeField_packWord _ _ _ _, opcodeField_packWord _ _ _ _⟩

/-- Settles O32: RET and RETI store SP once, RETN twice at the same word. -/
theorem returnsPopIp : Obligations.ReturnsPopIp := by
  intro priv op1 s a spAddr pa t hp hsp hpa
  have hpop := popIp_eq hsp hpa
  exact ⟨⟨_, exec_ret hp hpop, storesOnly_memWrite s _ _ _⟩,
    ⟨_, exec_reti hp hpop, storesOnly_memWrite s _ _ _⟩,
    fun hr => ⟨_, exec_retn hp hr (popIpDiscard_eq a hsp hpa),
      storesOnly_memWrite_memWrite s _ _ _ _⟩,
    opcodeField_packWord _ _ _ _, opcodeField_packWord _ _ _ _, opcodeField_packWord _ _ _ _⟩

/-- Settles O33: SP's and FP's words get one value, over the pushed FP. -/
theorem enterBuildsFrame : Obligations.EnterBuildsFrame :=
  fun _ s spAddr fpAddr pa hp hsp hfp hpa =>
    ⟨⟨_, exec_enter hp (enterFrame_eq hsp hfp hpa), rfl,
      enterFrame_words s pa spAddr fpAddr _ _⟩,
      opcodeField_packWord _ _ _ _⟩

/-- Settles O34: SP's word and FP's are two, so both values stay. -/
theorem leaveRestoresFrame : Obligations.LeaveRestoresFrame :=
  fun _ s _ _ _ hp hsp hfp hpa =>
    ⟨⟨_, exec_leave hp (leaveFrame_eq hsp hfp hpa), rfl,
      leaveFrame_words s _ _ (spAddr_ne_fpAddr hsp hfp)⟩, opcodeField_packWord _ _ _ _⟩

/-- Settles O35: the result is the argument's word. -/
theorem getArgumentReadsFrame : Obligations.GetArgumentReadsFrame :=
  fun _ _ _ _ _ _ _ _ _ _ hp hr hr' hfp hpa =>
    ⟨completesWith_getargument hp hr hr' (argument_eq hfp hpa), opcodeField_packWord _ _ _ _⟩

/-- Settles O36: the pop moves SP, and the popped word is then stored from that state. -/
theorem popStoresAfterSp : Obligations.PopStoresAfterSp := by
  intro priv dst s a spAddr pa t hp hr hsp hpa next
  exact ⟨⟨s.memWrite spAddr (s.memRead spAddr + 1), rfl, s.memRead_memWrite_same _ _,
    keepsWordsBut_memWrite s _ _, completesFrom_of_result (exec_pop hp hr (pop_eq hsp hpa))⟩,
    opcodeField_packWord _ _ _ _⟩

/-- Settles O37: by which check fails, r30's, r29's or the slot's; each fails the execute stages
that make it, and the instruction raises that failure. -/
theorem stackViolationsAreDelivered : Obligations.StackViolationsAreDelivered := by
  intro priv op1 dst src s a b t t' v hp hr hr'
  refine ⟨fun hv => ?_, fun hv => ?_, fun spAddr fpAddr hsp hfp =>
    ⟨fun hv => ?_, fun hv => ?_, fun hv => ?_, fun c t'' hc hv => ?_⟩⟩
  · have hreg {i : Instr} : Raises i s (v.event s.ip) → RaisesSegViol i s 2 30 :=
      raisesSegViol_register hv
    have hpop := pop_of_sp_error hv
    exact ⟨hreg (raises_push hp hr (push_of_sp_error _ hv)),
      hreg (raises_call hp hr (push_of_sp_error _ hv)),
      hreg (raises_pop hp hr' hpop), hreg (raises_ret hp hpop), hreg (raises_reti hp hpop),
      hreg (raises_retn hp hr hpop), hreg (raises_enter hp (enterFrame_of_sp_error hv))⟩
  · have hreg {i : Instr} : Raises i s (v.event s.ip) → RaisesSegViol i s 2 29 :=
      raisesSegViol_register hv
    exact ⟨hreg (raises_leave hp (leaveFrame_of_fp_error hv)),
      fun c t'' hc => hreg (raises_getargument hp hr' hc (argument_of_fp_error c hv))⟩
  · have hslot {i : Instr} := raisesSegViol_stack (i := i) hv
    exact ⟨hslot (raises_push hp hr (push_one_of_slot_error _ hsp hv)),
      hslot (raises_call hp hr (push_one_of_slot_error _ hsp hv)),
      hslot (raises_enter hp (enterFrame_of_slot_error hsp hfp hv))⟩
  · have hslot {i : Instr} := raisesSegViol_stack (i := i) hv
    have hpop := pop_of_slot_error hsp hv
    exact ⟨hslot (raises_pop hp hr' hpop), hslot (raises_ret hp hpop),
      hslot (raises_reti hp hpop), hslot (raises_retn hp hr hpop)⟩
  · exact raisesSegViol_stack hv (raises_leave hp (leaveFrame_of_slot_error hfp hv))
  · exact raisesSegViol_stack hv
      (raises_getargument hp hr' hc (argument_of_slot_error hfp hv))

end Sys2Proof.Machine
end

section
/-! SUPPORT. INT, VMRESUME, CLI, STI, PRINT and HALT (43_system.md R260 to R275): the delivery INT
asks for, forwards; how an instruction runs that a guest may not; and VMRESUME by its slot's check
and by the two halves of its commit. -/

namespace Sys2Proof.Machine

/-- The branch of a test of the mode that host mode takes. -/
theorem ite_inVM_host {α : Type} {s : State} (hv : s.inVM = false) (x y : α) :
    (if s.inVM then x else y) = y := if_neg (Bool.eq_false_iff.1 hv)

/-! ## Delivering an interrupt in host mode (R310, R311) -/

section
variable {n ret : Word} {extra : List Word} {s : State}

theorem maxInterrupt_lt_iff : Config.maxInterrupt < n ↔ 32 < n.toNat := BitVec.lt_def

/-- The number is checked before the mode, so this is fatal in any mode. -/
theorem deliverInterrupt_beyond (h : 32 < n.toNat) :
    deliverInterrupt n ret extra s = .fatal .interruptNumberOutOfRange s :=
  if_pos (maxInterrupt_lt_iff.2 h)

theorem pushFrame_of_push {ws : List Word} {u : State} (h : push ws s = .ok u) :
    pushFrame ws s = .done u := by simp only [pushFrame, h]

theorem deliverInterrupt_host {u : State} (hn : n.toNat ≤ 32) (hv : s.inVM = false)
    (h : push (extra ++ [ret]) s = .ok u) :
    deliverInterrupt n ret extra s = .done (u.jump (vectorEntry n)) := by
  have hmax : ¬Config.maxInterrupt < n := fun hc => Nat.not_lt.2 hn (maxInterrupt_lt_iff.1 hc)
  rw [deliverInterrupt, if_neg hmax, ite_inVM_host hv, pushFrame_of_push h, Eff.andThen_done]

end

/-! ## VMRESUME's commit, by its two halves (R265, R330, R331) -/

section
variable {next id : Word} {s h g : State} {r : FatalReason}

theorem resumeGuest_of_done (hs : saveSlot 0 (s.jump next) = .done h)
    (hl : loadSlot id.toNat h = .done g) : resumeGuest next id s = .done (g.enterGuest id) := by
  rw [resumeGuest, hs, Eff.andThen_done, hl, Eff.andThen_done]

theorem resumeGuest_of_save_fatal (hs : saveSlot 0 (s.jump next) = .fatal r h) :
    resumeGuest next id s = .fatal r h := by
  rw [resumeGuest, hs, Eff.andThen_fatal, Eff.andThen_fatal]

theorem resumeGuest_of_load_fatal (hs : saveSlot 0 (s.jump next) = .done h)
    (hl : loadSlot id.toNat h = .fatal r g) : resumeGuest next id s = .fatal r g := by
  rw [resumeGuest, hs, Eff.andThen_done, hl, Eff.andThen_fatal]

end

/-- VMRESUME's test is the negation of what R265 asks of slot `id`: a table, with a row for it, and
that it is not the hypervisor's. -/
theorem slot_refused_iff {s : State} {id : Word} :
    (s.vmInstalled = false ∨ id = 0 ∨ s.vmTable.length ≤ id.toNat) ↔
      ¬(s.vmInstalled = true ∧ id ≠ 0 ∧ id.toNat < s.vmTable.length) := by
  rw [not_and_or, not_and_or, Bool.not_eq_true, not_ne_iff, not_lt]

/-- An effect that redirects IP itself ends the step as it is, whatever target was resolved. -/
theorem complete_asRedirect (next : Word) (t : Target) (e : Eff) :
    complete next t e.asRedirect = e.toOutcome := by
  cases e <;> rfl

theorem dies_of_fatal {i : Instr} {s u : State} {e : Eff} {r : FatalReason}
    (h : exec i s = e.toOutcome) (he : e = .fatal r u) : Dies i s r := by
  subst he
  exact ⟨_, h, rfl, rfl⟩

/-! ## How an instruction ends: by its mode, and by VMRESUME's checks (R260 to R275) -/

section
variable {i : Instr} {priv : Byte} {s : State} (hp : s.cpl ≤ priv.zeroExtend 32)
include hp

/-- An instruction that exits in guest mode and has its effect in host mode. -/
theorem run0_by_mode {ev : Word → Event} {x : Effect}
    (h : exec i s = run0 priv s fun next => if s.inVM then .error (ev next) else .ok x) :
    (s.inVM = false → exec i s = complete (nextIp 0 s) .none x) ∧
      (s.inVM = true → Raises i s (ev (nextIp 0 s))) :=
  ⟨fun hv => h.trans (run0_ok hp (ite_inVM_host hv _ _)),
    fun hv => h.trans (run0_raises hp (if_pos hv))⟩

variable {o : Operand} {a : Word} {t : Target} (hr : resolve o 0 s = .ok (a, t))
include hr

theorem run1_by_mode {ev : Word → Word → Event} {x : Word → Effect}
    (h : exec i s = run1 priv o s fun next a =>
      if s.inVM then .error (ev next a) else .ok (x a)) :
    (s.inVM = false → exec i s = complete (nextIp o.extraWords s) t (x a)) ∧
      (s.inVM = true → Raises i s (ev (nextIp o.extraWords s) a)) :=
  ⟨fun hv => h.trans (run1_ok hp hr (ite_inVM_host hv _ _)),
    fun hv => h.trans (run1_raises hp hr (if_pos hv))⟩

/-- INT raises its number and nothing else, whatever the number (R260). -/
theorem raises_int : Raises (.int priv o) s (.interrupt a (nextIp o.extraWords s) []) :=
  run1_raises (body := fun next a => .error (.interrupt a next [])) hp hr rfl

theorem raises_vmresume_guest (hv : s.inVM = true) :
    Raises (.vmresume priv o) s (privilegedExit Config.OPC_VMRESUME s) :=
  show execVmresume priv o s = _ from run1_raises hp hr (if_pos hv)

theorem raises_vmresume_host (hv : s.inVM = false)
    (hbad : ¬(s.vmInstalled = true ∧ a ≠ 0 ∧ a.toNat < s.vmTable.length)) :
    Raises (.vmresume priv o) s (.interrupt Config.INTR_INVALID_INSTR s.ip []) :=
  show execVmresume priv o s = _ from
    run1_raises hp hr ((ite_inVM_host hv _ _).trans (if_pos (slot_refused_iff.2 hbad)))

theorem exec_vmresume (hv : s.inVM = false)
    (hok : s.vmInstalled = true ∧ a ≠ 0 ∧ a.toNat < s.vmTable.length) :
    exec (.vmresume priv o) s = (resumeGuest (nextIp o.extraWords s) a s).toOutcome :=
  calc exec (.vmresume priv o) s
    _ = complete (nextIp o.extraWords s) t (resumeGuest (nextIp o.extraWords s) a s).asRedirect :=
      show execVmresume priv o s = _ from
        run1_ok hp hr
          ((ite_inVM_host hv _ _).trans (if_neg (mt slot_refused_iff.1 (not_not.2 hok))))
    _ = (resumeGuest (nextIp o.extraWords s) a s).toOutcome := complete_asRedirect _ _ _

end

/-- PRINT's byte is its operand modulo 256 (R272, R355). -/
theorem setWidth_eq_ofNat_mod (a : Word) : a.setWidth 8 = BitVec.ofNat 8 (a.toNat % 256) := by
  apply BitVec.eq_of_toNat_eq
  rw [BitVec.toNat_setWidth, BitVec.toNat_ofNat, Nat.mod_mod]

/-! ## The obligations -/

/-- Settles O38: INT is the delivery of its number, which checks the number first and in host mode
pushes one word (`push_one`, `push_one_words`). -/
theorem intDeliversItsNumber : Obligations.IntDeliversItsNumber := by
  intro priv op1 s a t hp hr next
  have hraises : Raises (.int priv op1) s (.interrupt a next []) := raises_int hp hr
  refine ⟨fun hn => dies_of_fatal hraises (deliverInterrupt_beyond hn), fun _ => hraises,
    fun hn hv spAddr pa hsp hpa => ?_, opcodeField_packWord _ _ _ _⟩
  have hdeliver : deliver (.interrupt a next []) s = .done
      (((s.memWrite pa next).memWrite spAddr (s.memRead spAddr - 1)).jump (vectorEntry a)) :=
    deliverInterrupt_host hn hv (push_one next hsp hpa)
  exact ⟨_, hraises.trans (congrArg Eff.toOutcome hdeliver), rfl, push_one_words s spAddr pa next⟩

/-- Settles O39: by mode, then by the slot's check, then by which half of the commit is fatal. -/
theorem vmresumeEntersGuest : Obligations.VmresumeEntersGuest := by
  intro priv op1 s a t hp hr i ready atNext
  have hexec : ready → exec i s = (resumeGuest (nextIp op1.extraWords s) a s).toOutcome :=
    fun ⟨hv, hok⟩ => exec_vmresume hp hr hv hok
  refine ⟨fun hv => raises_vmresume_guest hp hr hv,
    fun hv hnot => raises_vmresume_host hp hr hv fun hok => hnot ⟨hv, hok⟩,
    fun hok h g hs hl => ?_, fun hok r h hs => ?_, fun hok r h g hs hl => ?_,
    opcodeField_packWord _ _ _ _⟩
  · exact (hexec hok).trans (congrArg Eff.toOutcome (resumeGuest_of_done hs hl))
  · exact dies_of_fatal (hexec hok) (resumeGuest_of_save_fatal hs)
  · exact dies_of_fatal (hexec hok) (resumeGuest_of_load_fatal hs hl)

/-- Settles O40: both set one bit of state in host mode and exit in guest mode. -/
theorem cliStiSetIe : Obligations.CliStiSetIe := by
  intro priv s hp
  have hcli := run0_by_mode (i := .cli priv) (ev := fun _ => .vmExit 4 s.ip [0x1E])
    (x := .advance (s.setIe false)) hp rfl
  have hsti := run0_by_mode (i := .sti priv) (ev := fun _ => .vmExit 4 s.ip [0x1F])
    (x := .advance (s.setIe true)) hp rfl
  exact ⟨fun hv => ⟨hcli.1 hv, hsti.1 hv⟩, fun hv => ⟨hcli.2 hv, hsti.2 hv⟩,
    opcodeField_packWord _ _ _ _, opcodeField_packWord _ _ _ _⟩

/-- Settles O41: PRINT appends its byte or exits with its operand, HALT stops or exits. -/
theorem printAndHalt : Obligations.PrintAndHalt := by
  intro priv op1 s a t hp hr next
  have hprint := run1_by_mode (i := .print priv op1) (ev := fun next a => .vmExit 2 next [a])
    (x := fun a => .advance (s.consoleOut (a.setWidth 8))) hp hr rfl
  have hhalt := run0_by_mode (i := .halt priv) (ev := fun next => .vmExit 3 next []) (x := .stop s)
    hp rfl
  refine ⟨fun hv => ⟨?_, hhalt.1 hv⟩, fun hv => ⟨hprint.2 hv, hhalt.2 hv⟩,
    opcodeField_packWord _ _ _ _, opcodeField_packWord _ _ _ _⟩
  rw [← setWidth_eq_ofNat_mod]
  exact hprint.1 hv

end Sys2Proof.Machine
end

section
/-! SUPPORT. Delivering an interrupt and a VM-exit (60_exceptions.md R310 to R322): each delivery by
what ends it, and the frame of either by the one law of a whole push. -/

namespace Sys2Proof.Machine

/-! ## Pushing a frame (R314) -/

section
variable {s : State} {ws : List Word} {v : SegViol}

theorem push_of_slot_error {spAddr : Word} {j : Nat} (hsp : regAddr Config.SP_INDEX s = .ok spAddr)
    (hj : j < ws.length)
    (h : translate .stack (s.memRead spAddr - BitVec.ofNat 32 (j + 1)) s = .error v) :
    ∃ e, push ws s = .error e := by
  obtain ⟨e, he⟩ := pushSlots_fails hj h
  exact ⟨e, by simp only [push, hsp, he]⟩

theorem pushFrame_of_error (h : push ws s = .error v) : pushFrame ws s = .fatal .doubleFault s := by
  simp only [pushFrame, h]

end

/-! ## The delivery of an interrupt, by number and mode (R310) -/

section
variable {n ret : Word} {extra : List Word} {s : State} (hn : n.toNat ≤ 32)
include hn

theorem not_maxInterrupt_lt : ¬Config.maxInterrupt < n := fun h =>
  Nat.not_lt.2 hn (maxInterrupt_lt_iff.1 h)

theorem deliverInterrupt_guest (hv : s.inVM = true) :
    deliverInterrupt n ret extra s = vmExit Config.VMEXIT_INTERRUPT (extra ++ [n]) (s.jump ret) := by
  rw [deliverInterrupt, if_neg (not_maxInterrupt_lt hn), if_pos hv]

theorem deliverInterrupt_host_of_error {v : SegViol} (hv : s.inVM = false)
    (h : push (extra ++ [ret]) s = .error v) :
    deliverInterrupt n ret extra s = .fatal .doubleFault s := by
  rw [deliverInterrupt, if_neg (not_maxInterrupt_lt hn), ite_inVM_host hv, pushFrame_of_error h,
    Eff.andThen_fatal]

end

/-! ## A VM-exit, by its two halves and its frame (R320) -/

section
variable {reason : Word} {extra : List Word} {s saved h : State} {r : FatalReason}

theorem vmExit_of_save_fatal (hs : saveSlot s.vmID.toNat s = .fatal r saved) :
    vmExit reason extra s = .fatal r saved := by
  rw [vmExit, hs, Eff.andThen_fatal, Eff.andThen_fatal]

theorem vmExit_of_load_fatal (hs : saveSlot s.vmID.toNat s = .done saved)
    (hl : loadSlot 0 saved = .fatal r h) : vmExit reason extra s = .fatal r h := by
  rw [vmExit, hs, Eff.andThen_done, hl, Eff.andThen_fatal]

theorem vmExit_of_loaded (hs : saveSlot s.vmID.toNat s = .done saved)
    (hl : loadSlot 0 saved = .done h) :
    vmExit reason extra s = pushFrame (extra ++ [reason, s.vmID]) h.leaveGuest := by
  rw [vmExit, hs, Eff.andThen_done, hl, Eff.andThen_done]

end

/-! ## The obligations -/

/-- Settles O42: the number is checked before the mode, and in host mode the frame is pushed whole
(`push_total`) or not at all. -/
theorem interruptDelivery : Obligations.InterruptDelivery := by
  intro n ret extra s frame event
  refine ⟨deliverInterrupt_beyond, deliverInterrupt_guest, fun hn hv hextra => ?_⟩
  have hfault : ∀ v, push frame s = .error v → deliver event s = .fatal .doubleFault s :=
    fun _ => deliverInterrupt_host_of_error hn hv
  refine ⟨fun v hsp => hfault v (push_of_sp_error frame hsp),
    fun spAddr hsp => ⟨fun j v hj hslot => ?_, fun slot hslot => ?_⟩⟩
  · obtain ⟨e, he⟩ := push_of_slot_error hsp hj hslot
    exact hfault e he
  · have hlen : frame.length < 2 ^ 32 := by
      have : frame.length = extra.length + 1 := List.length_append
      omega
    obtain ⟨p, hp, hframe, hpushed⟩ := push_total slot hlen hsp hslot
    refine ⟨p.jump (vectorEntry n), deliverInterrupt_host hn hv hp, ?_, hpushed⟩
    rw [hframe]
    rfl

/-- Settles O43: by which half of the switch is fatal, then by the frame, which is pushed in the
hypervisor's context. -/
theorem vmExitDelivery : Obligations.VmExitDelivery := by
  intro reason guestIp extra s frame event save
  refine ⟨fun r u hs => ⟨u, vmExit_of_save_fatal (s := s.jump guestIp) hs⟩,
    fun saved hs => ⟨fun r u hl => ⟨u, vmExit_of_load_fatal (s := s.jump guestIp) hs hl⟩,
      fun h spAddr hl hextra hsp => ?_⟩⟩
  have hdeliver : deliver event s = pushFrame frame h.leaveGuest :=
    vmExit_of_loaded (s := s.jump guestIp) hs hl
  have hsp' : regAddr 30 h.leaveGuest = .ok spAddr := (regAddr_leaveGuest 30 h).trans hsp
  rw [hdeliver]
  refine ⟨fun j v hj hslot => ?_, fun slot hslot => ?_⟩
  · obtain ⟨e, he⟩ :=
      push_of_slot_error hsp' hj ((translate_leaveGuest .stack _ h).trans hslot)
    exact ⟨_, pushFrame_of_error he⟩
  · have hlen : frame.length < 2 ^ 32 := by
      have : frame.length = extra.length + 2 := List.length_append
      omega
    obtain ⟨u, hu, hframe, hpushed⟩ := push_total slot hlen hsp' fun j hj =>
      (translate_leaveGuest .stack _ h).trans (hslot j hj)
    exact ⟨u, pushFrame_of_push hu, hframe, hpushed⟩

end Sys2Proof.Machine
end

section
/-! SUPPORT. The context switcher (60_exceptions.md R330 to R333): SaveSlot and LoadSlot by what ends
them, and what a whole switch keeps. -/

namespace Sys2Proof.Machine

/-! ## SaveSlot (R330) -/

section
variable {k : Nat} {s : State}

theorem saveSlot_beyond (h : wordMax < s.vmtbl.toNat + 9 * k) :
    saveSlot k s = .fatal .addressOutOfBounds s := if_pos h

variable (hbase : s.vmtbl.toNat + 9 * k ≤ wordMax)
include hbase

theorem saveSlot_of_sp_error {v : SegViol} (h : readReg Config.SP_INDEX s = .error v) :
    saveSlot k s = .fatal .contextSwitch s := by
  rw [saveSlot, if_neg (Nat.not_lt.2 hbase), h]

theorem saveSlot_of_sp {sp : Word} (h : readReg Config.SP_INDEX s = .ok sp) :
    saveSlot k s =
      (s.writeRow (s.vmtbl.toNat + 9 * k) (s.context sp).words).andThen installVmTable := by
  rw [saveSlot, if_neg (Nat.not_lt.2 hbase), h]

end

theorem installVmTable_of_ok {s : State} {rows : List VmDescriptor}
    (h : parseVmTable s.mem s.vmtbl = .ok rows) :
    installVmTable s = .done { s with vmTable := rows, vmInstalled := true } := by
  simp only [installVmTable, h]

theorem installVmTable_of_error {s : State} {r : FatalReason}
    (h : parseVmTable s.mem s.vmtbl = .error r) : installVmTable s = .fatal r s := by
  simp only [installVmTable, h]

/-! ## LoadSlot (R331) -/

section
variable {k : Nat} {s : State}

theorem loadSlot_missing (h : s.vmTable.length ≤ k) : loadSlot k s = .fatal .contextSwitch s := by
  simp only [loadSlot, List.getElem?_eq_none h]

variable {d : VmDescriptor} (hd : s.vmTable[k]? = some d)
include hd

theorem loadSlot_of_sp_error {v : SegViol}
    (h : regAddr Config.SP_INDEX (s.loadContext d) = .error v) :
    loadSlot k s = .fatal .contextSwitch (s.loadContext d) := by
  simp only [loadSlot, hd, writeReg_of_error _ h]

theorem loadSlot_of_sp {spAddr : Word}
    (h : regAddr Config.SP_INDEX (s.loadContext d) = .ok spAddr) :
    loadSlot k s = .done ((s.loadContext d).memWrite spAddr d.sp) := by
  simp only [loadSlot, hd, writeReg_of_regAddr _ h]

end

/-- A load leaves the loaded row as the live context, SP included. -/
theorem loadSlot_context {k : Nat} {s t : State} (h : loadSlot k s = .done t) :
    ∃ d, s.vmTable[k]? = some d ∧ readReg 30 t = .ok d.sp ∧ t.context d.sp = d ∧
      t.vmtbl = s.vmtbl := by
  obtain ⟨d, spAddr, hd, hsp, rfl⟩ := loadSlot_done h
  have hread := readReg_of_regAddr ((regAddr_memWrite 30 _ spAddr d.sp).trans hsp)
  rw [State.memRead_memWrite_same] at hread
  exact ⟨d, hd, hread, rfl, rfl⟩

/-! ## The obligations -/

/-- Settles O44: by where the row lies, then by SP, then by the parse of what was written. -/
theorem saveSlotRule : Obligations.SaveSlotRule := by
  intro k s base
  refine ⟨fun h => ⟨s, saveSlot_beyond h⟩, fun h v hsp => ⟨s, saveSlot_of_sp_error h hsp⟩,
    fun sp hsp => ⟨fun hbase hend => ?_, fun hend => ?_⟩⟩
  · obtain ⟨u, hu⟩ := writeRow_beyond s base (s.context sp).words
      (show wordMax + 1 < base + 9 from Nat.succ_lt_succ hend) (List.cons_ne_nil _ _)
    exact ⟨u, by rw [saveSlot_of_sp hbase hsp, hu, Eff.andThen_fatal]⟩
  · have hbase : base ≤ wordMax := (Nat.le_add_right base 8).trans hend
    obtain ⟨w, hw⟩ := writeRow_total s base (s.context sp).words
      (show base + 9 ≤ wordMax + 1 from Nat.succ_le_succ hend)
    obtain ⟨-, hframe, hwords, hother⟩ := writeRow_done hw
    have hsave : saveSlot k s = installVmTable w := by
      rw [saveSlot_of_sp hbase hsp, hw, Eff.andThen_done]
    rw [hsave, hframe]
    exact ⟨w.mem, hwords, hother, fun _ hrows => installVmTable_of_ok hrows,
      fun _ hbad => ⟨_, installVmTable_of_error hbad⟩⟩

/-- Settles O45: by whether the row is there, then by SP in the loaded context. -/
theorem loadSlotRule : Obligations.LoadSlotRule := fun _ s =>
  ⟨loadSlot_missing, fun d hd => ⟨fun _ he => ⟨_, loadSlot_of_sp_error hd he⟩,
    fun spAddr hsp => ⟨(s.loadContext d).memWrite spAddr d.sp, loadSlot_of_sp hd hsp, rfl,
      State.memRead_memWrite_same _ _ _, keepsWordsBut_memWrite (s.loadContext d) spAddr d.sp⟩⟩⟩

/-- Settles O46: the row saved is the live context, which the load made the loaded row. -/
theorem loadSaveRoundTrip : Obligations.LoadSaveRoundTrip := by
  intro k s t u hload hsave
  obtain ⟨d, hd, hsp, hcontext, hvmtbl⟩ := loadSlot_context hload
  obtain ⟨sp, w, hsp', hw, -, hu⟩ := saveSlot_done hsave
  obtain rfl : d.sp = sp := Except.ok.inj (hsp.symm.trans hsp')
  obtain ⟨-, -, hwords, -⟩ := writeRow_done hw
  rw [hcontext, hvmtbl] at hwords
  rw [hu]
  exact ⟨d, hd, hwords⟩

end Sys2Proof.Machine
end

section
/-! SUPPORT. The mode, the console, and what a guest can change, across an instruction and stage 1
(60_exceptions.md R333, R345, R352, R355). -/

namespace Sys2Proof.Machine

/-! ## What a writeback and an effect keep -/

/-- A writeback keeps the mode and the console, also where it is fatal. -/
theorem writeback_keeps_mode_console (t : Target) (v : Word) (s : State) :
    (writeback t v s).state.inVM = s.inVM ∧ (writeback t v s).state.console = s.console := by
  cases t with
  | none => exact ⟨rfl, rfl⟩
  | reg pa => exact ⟨rfl, rfl⟩
  | mem pa => exact ⟨rfl, rfl⟩
  | spr n =>
    obtain ⟨u, hu, hf⟩ := writeSpr_frame n v s
    rw [writeback, hu, hf]
    exact ⟨rfl, rfl⟩

/-- Going to `next` after a completed effect keeps the mode and the console. -/
theorem Eff.andThen_jump_keeps_mode_console (e : Eff) (next : Word) :
    (e.andThen fun u => .done (u.jump next)).state.inVM = e.state.inVM ∧
      (e.andThen fun u => .done (u.jump next)).state.console = e.state.console := by
  cases e <;> exact ⟨rfl, rfl⟩

theorem Eff.toOutcome_console {e : Eff} {t : State} (h : e.toOutcome = .next t) :
    t.console = e.state.console := by
  cases e <;> cases h <;> rfl

/-! ## The mode (R345) -/

/-- VMRESUME's commit enters guest mode last, so a fatal error of either half leaves host mode. -/
theorem resumeGuest_fatal_inVM {next id : Word} {r : FatalReason} {s u : State}
    (h : resumeGuest next id s = .fatal r u) : u.inVM = s.inVM := by
  have hsave : (saveSlot 0 (s.jump next)).state.inVM = s.inVM := by
    obtain ⟨m, hm, hf, -⟩ := saveSlot_frame 0 (s.jump next)
    rw [hm, hf]
    rfl
  rcases Eff.andThen_eq_fatal h with h | ⟨g, -, hg⟩
  · rcases Eff.andThen_eq_fatal h with h | ⟨m, hm, hl⟩
    · rw [h] at hsave
      exact hsave
    · obtain ⟨g, hg, hf⟩ := loadSlot_frame id.toNat m
      rw [hm] at hsave
      rw [hl] at hg
      change u = g at hg
      rw [hg, hf]
      exact hsave
  · cases hg

/-- An instruction keeps the mode unless it delivers an event, or it is a VMRESUME in host mode and
its step is the commit. -/
theorem exec_mode {i : Instr} {s t : State} (h : exec i s = .next t) :
    t.inVM = s.inVM ∨
    (∃ ev, EventOf s ev ∧ Raises i s ev ∧ t.inVM = (deliver ev s).state.inVM) ∨
    (s.inVM = false ∧ (∃ p o, i = .vmresume p o) ∧
      ∃ next id, (resumeGuest next id s).toOutcome = .next t) := by
  cases exec_cases i s with
  | raised ev hev hx => exact .inr (.inl ⟨ev, hev, hx, Eff.toOutcome_inVM (hx.symm.trans h)⟩)
  | stored p target v next hp hc htarget hx =>
    refine .inl ?_
    calc t.inVM
      _ = (writeback target v p).state.inVM :=
        (Eff.toOutcome_inVM (hx.symm.trans h)).trans (Eff.andThen_jump_keeps_mode_console _ next).1
      _ = p.inVM := (writeback_keeps_mode_console target v p).1
      _ = s.inVM := by rw [hp]
  | moved u hu hc hx => cases hx.symm.trans h; exact .inl (by rw [hu]; rfl)
  | compared p o o' a b next hi hx => cases hx.symm.trans h; exact .inl rfl
  | toggled p b next hi hv hx => cases hx.symm.trans h; exact .inl rfl
  | printed p o b next hi hv hx => cases hx.symm.trans h; exact .inl rfl
  | halted p hi hv hx => cases hx.symm.trans h; exact .inl rfl
  | resumed p o next id hi hv hin hid hx =>
    exact .inr (.inr ⟨hv, ⟨p, o, hi⟩, next, id, hx.symm.trans h⟩)

/-- An instruction that enters guest mode is a VMRESUME whose commit completed. -/
theorem exec_enters_guest {i : Instr} {s t : State} (h : exec i s = .next t)
    (hs : s.inVM = false) (ht : t.inVM = true) :
    (∃ p o, i = .vmresume p o) ∧
      ∃ next id u, resumeGuest next id s = .done u ∧ t = u.continues := by
  rcases exec_mode h with hm | ⟨ev, hev, -, hm⟩ | ⟨-, hi, next, id, hx⟩
  · rw [hm, hs] at ht; cases ht
  · obtain ⟨n, ret, extra, rfl⟩ := hev hs
    rw [hm, deliver_host_inVM hs] at ht
    cases ht
  · refine ⟨hi, next, id, ?_⟩
    cases hr : resumeGuest next id s with
    | done u => rw [hr] at hx; cases hx; exact ⟨u, rfl, rfl⟩
    | fatal r u =>
      rw [hr] at hx
      cases hx
      rw [State.die_inVM, resumeGuest_fatal_inVM hr, hs] at ht
      cases ht

theorem exec_leaves_guest {i : Instr} {s t : State} (h : exec i s = .next t)
    (hs : s.inVM = true) (ht : t.inVM = false) :
    ∃ reason guestIp extra, Raises i s (.vmExit reason guestIp extra) := by
  rcases exec_mode h with hm | ⟨ev, -, hraises, hm⟩ | ⟨hv, -⟩
  · rw [hm, hs] at ht; cases ht
  · obtain ⟨reason, guestIp, extra, heq⟩ := deliver_leaves_guest hs (hm.symm.trans ht)
    exact ⟨reason, guestIp, extra, hraises.trans (congrArg Eff.toOutcome heq)⟩
  · rw [hs] at hv; cases hv

/-- The timer's number is in range, so in guest mode its interrupt is a VM-exit with reason 0. -/
theorem deliver_timer_guest {ip : Word} {s : State} (hv : s.inVM = true) :
    deliver (.interrupt 4 ip []) s = deliver (.vmExit 0 ip [4]) s :=
  deliverInterrupt_guest (n := 4) (by decide) hv

theorem timerService_host {s t : State} (h : timerService s = .done t) (hs : s.inVM = false) :
    t.inVM = false := by
  rcases timerService_done h with hd | rfl
  · have hm := deliver_host_inVM (n := 4) (ret := s.ip) (extra := [])
      (s := { s with tp := false }) hs
    rw [hd] at hm
    exact hm
  · exact s.tick_inVM.trans hs

theorem timerService_leaves_guest {s t : State} (h : timerService s = .done t)
    (hs : s.inVM = true) (ht : t.inVM = false) :
    s.tp = true ∧ s.ie = true ∧ deliver (.vmExit 0 s.ip [4]) { s with tp := false } = .done t := by
  by_cases hpend : s.tp = true ∧ s.ie = true
  · obtain ⟨htp, hie⟩ := hpend
    rw [timerService_of_pending ⟨htp, hie⟩,
      deliver_timer_guest (s := { s with tp := false }) hs] at h
    exact ⟨htp, hie, h⟩
  · rw [timerService_of_not_pending hpend] at h
    cases h
    rw [State.tick_inVM, hs] at ht
    cases ht

/-- Settles O60: an instruction by the ways of `exec_mode`, stage 1 by whether the timer is
pending. -/
theorem guestModeEntryAndExit : Obligations.GuestModeEntryAndExit :=
  ⟨fun _ _ _ h => ⟨fun hs ht => (exec_enters_guest h hs ht).1, exec_leaves_guest h⟩,
    fun _ _ h => ⟨timerService_host h, timerService_leaves_guest h⟩⟩

/-! ## What a whole switch leaves in memory (R320, R265, R333) -/

/-- A VM-exit writes the guest's row, r30's word in the hypervisor's context and the frame. -/
theorem vmExit_other {reason : Word} {extra : List Word} {s t : State}
    (h : vmExit reason extra s = .done t) :
    ∃ spAddr, regAddr 30 t = .ok spAddr ∧ ∀ pa : Word,
      pa.toNat < s.vmtbl.toNat + 9 * s.vmID.toNat ∨
        s.vmtbl.toNat + 9 * s.vmID.toNat + 9 ≤ pa.toNat →
      pa ≠ spAddr →
      (∀ j, j < extra.length + 2 →
        translate .stack (t.memRead spAddr + BitVec.ofNat 32 j) t ≠ .ok pa) →
      t.memRead pa = s.memRead pa := by
  obtain ⟨m, g, hsave, hload, hpush⟩ := vmExit_done h
  obtain ⟨spAddr, hsp, hloaded⟩ := loadSlot_other hload
  have hsp' : regAddr 30 g.leaveGuest = .ok spAddr := (regAddr_leaveGuest 30 g).trans hsp
  refine ⟨spAddr, ?_, fun pa hrow hne hframe => ?_⟩
  · rw [(push_frame hpush).1, regAddr_withMem, hsp']
  · have hlen : (extra ++ [reason, s.vmID]).length = extra.length + 2 := List.length_append
    calc t.memRead pa
      _ = g.memRead pa := push_other hpush hsp' hne (hlen ▸ hframe)
      _ = m.memRead pa := hloaded pa hne
      _ = s.memRead pa := saveSlot_other hsave hrow

/-- A VMRESUME writes slot 0's row and r30's word in the guest's context. -/
theorem resumeGuest_other {next id : Word} {s t : State} (h : resumeGuest next id s = .done t) :
    ∃ spAddr, regAddr 30 t = .ok spAddr ∧ ∀ pa : Word,
      pa.toNat < s.vmtbl.toNat ∨ s.vmtbl.toNat + 9 ≤ pa.toNat → pa ≠ spAddr →
      t.memRead pa = s.memRead pa := by
  obtain ⟨m, g, hsave, hload, rfl⟩ := resumeGuest_done h
  obtain ⟨spAddr, hsp, hloaded⟩ := loadSlot_other hload
  exact ⟨spAddr, hsp, fun pa hrow hne => (hloaded pa hne).trans (saveSlot_other hsave hrow)⟩

theorem vmExit_switch {reason : Word} {extra : List Word} {s t : State}
    (h : vmExit reason extra s = .done t) : SwitchFrame s t := by
  obtain ⟨u, hu, hf, -⟩ := vmExit_frame reason extra s
  rw [h] at hu
  cases hu
  exact hf

theorem resumeGuest_switch {next id : Word} {s t : State} (h : resumeGuest next id s = .done t) :
    SwitchFrame s t ∧ t.inVM = true ∧ t.vmInstalled = true := by
  obtain ⟨u, hu, hf, -⟩ := resumeGuest_frame next id s
  rw [h] at hu
  cases hu
  obtain ⟨m, g, hsave, hload, rfl⟩ := resumeGuest_done h
  obtain ⟨sp, w, -, -, -, hm⟩ := saveSlot_done hsave
  obtain ⟨d, spAddr, -, -, rfl⟩ := loadSlot_done hload
  exact ⟨hf, rfl, by rw [hm]; rfl⟩

/-- Settles O47: either switch is a `SwitchFrame` that fixes the mode, and writes memory as
`vmExit_other` and `resumeGuest_other` say. -/
theorem contextSwitchKeepsSharedState : Obligations.ContextSwitchKeepsSharedState := by
  refine ⟨fun reason extra s t h => ⟨?_, vmExit_other h⟩, fun p o s t h hs ht => ?_⟩
  · have hf := vmExit_switch h
    obtain ⟨hmode, hid, hin⟩ := vmExit_leaves h
    rwa [SwitchFrame, hmode, hid, hin] at hf
  · obtain ⟨-, next, id, u, hu, rfl⟩ := exec_enters_guest h hs ht
    obtain ⟨hf, hmode, hin⟩ := resumeGuest_switch hu
    have hother := resumeGuest_other hu
    rw [SwitchFrame, hmode, hin] at hf
    exact ⟨congrArg State.continues hf, hother⟩

/-! ## What a guest instruction changes (R333, R345, R38) -/

/-- Settles O50: in guest mode a delivery exits, no target is a special register, and the
instructions that write another field run in host mode. -/
theorem guestChangesOnlyItsOwnState : Obligations.GuestChangesOnlyItsOwnState := by
  intro i s t h hs ht hr
  have hguest : s.inVM ≠ false := fun hv => by rw [hs] at hv; cases hv
  cases exec_cases i s with
  | raised ev hev hx =>
    obtain ⟨u, hu, rfl⟩ := Eff.toOutcome_running (hx.symm.trans h) hr
    obtain ⟨hexit, -⟩ := deliver_guest hu hs
    exact absurd (hexit.symm.trans ht) (by decide)
  | stored p target v next hp hc htarget hx =>
    obtain ⟨u, hu, rfl⟩ := Eff.toOutcome_running (hx.symm.trans h) hr
    obtain ⟨w, hw, hj⟩ := Eff.andThen_eq_done hu
    cases hj
    rcases writeback_cases htarget v p with ⟨-, hf⟩ | ⟨role, off, pa, -, -, hd⟩ | ⟨n, -, hv, -⟩
    · cases hf.symm.trans hw
    · cases hd.symm.trans hw
      rw [hp]
      rfl
    · exact absurd hv hguest
  | moved u hu hc hx => cases hx.symm.trans h; rw [hu]; rfl
  | compared p o o' a b next hi hx => cases hx.symm.trans h; rfl
  | toggled p b next hi hv hx => exact absurd hv hguest
  | printed p o b next hi hv hx => exact absurd hv hguest
  | halted p hi hv hx => exact absurd hv hguest
  | resumed p o next id hi hv hin hid hx => exact absurd hv hguest

/-! ## The console (R355) -/

theorem SwitchFrame.console_eq {s t : State} (h : SwitchFrame s t) : t.console = s.console := by
  rw [h]

theorem deliver_console (ev : Event) (s : State) :
    (deliver ev s).state.console = s.console := by
  obtain ⟨t, rfl, hf, -⟩ := deliver_frame ev s
  exact hf.console_eq

theorem resumeGuest_console (next id : Word) (s : State) :
    (resumeGuest next id s).state.console = s.console := by
  obtain ⟨t, rfl, hf, -⟩ := resumeGuest_frame next id s
  exact hf.console_eq

/-- An instruction keeps the console unless it is a host-mode PRINT, which appends one byte. -/
theorem exec_console {i : Instr} {s t : State} (h : exec i s = .next t) :
    t.console = s.console ∨
      (s.inVM = false ∧ ∃ p o b, i = .print p o ∧ t.console = s.console ++ [b]) := by
  cases exec_cases i s with
  | raised ev hev hx =>
    exact .inl ((Eff.toOutcome_console (hx.symm.trans h)).trans (deliver_console ev s))
  | stored p target v next hp hc htarget hx =>
    refine .inl ?_
    calc t.console
      _ = (writeback target v p).state.console :=
        (Eff.toOutcome_console (hx.symm.trans h)).trans
          (Eff.andThen_jump_keeps_mode_console _ next).2
      _ = p.console := (writeback_keeps_mode_console target v p).2
      _ = s.console := by rw [hp]
  | moved u hu hc hx => cases hx.symm.trans h; exact .inl (by rw [hu]; rfl)
  | compared p o o' a b next hi hx => cases hx.symm.trans h; exact .inl rfl
  | toggled p b next hi hv hx => cases hx.symm.trans h; exact .inl rfl
  | printed p o b next hi hv hx => cases hx.symm.trans h; exact .inr ⟨hv, p, o, b, hi, rfl⟩
  | halted p hi hv hx => cases hx.symm.trans h; exact .inl rfl
  | resumed p o next id hi hv hin hid hx =>
    exact .inl ((Eff.toOutcome_console (hx.symm.trans h)).trans (resumeGuest_console next id s))

theorem timerService_console {s t : State} (h : timerService s = .done t) :
    t.console = s.console := by
  rcases timerService_done h with hd | rfl
  · have hc := deliver_console (.interrupt 4 s.ip []) { s with tp := false }
    rw [hd] at hc
    exact hc
  · exact s.tick_console

/-- Settles O55, by `exec_console` and `timerService_console`. -/
theorem consoleGrowsOnlyByPrint : Obligations.ConsoleGrowsOnlyByPrint :=
  ⟨fun _ _ _ h hne => (exec_console h).resolve_left hne, fun _ _ h => timerService_console h⟩

end Sys2Proof.Machine
end

section
/-! SUPPORT. When the timer matches (60_exceptions.md R350, R351): COUNTER runs through the words
after its own and meets COMPARE once in 2^32 ticks. -/

namespace Sys2Proof.Machine

/-! ## The distance to the match (R351) -/

/-- The tick on which a counter at `c` matches `m`: a whole turn where they are equal. -/
def ticksToMatch (c m : Word) : Nat := if m = c then 0x100000000 else (m - c).toNat

section
variable {c m : Word}

theorem add_ofNat_eq_iff {k : Nat} :
    c + BitVec.ofNat 32 k = m ↔ k % 0x100000000 = (m - c).toNat := by
  rw [← eq_sub_iff_add_eq', ← BitVec.toNat_inj, BitVec.toNat_ofNat]

theorem ticksToMatch_pos : 0 < ticksToMatch c m := by
  unfold ticksToMatch
  split
  · decide
  next h =>
    refine Nat.pos_of_ne_zero fun h0 => h ?_
    exact sub_eq_zero.1 (BitVec.eq_of_toNat_eq h0)

theorem add_ticksToMatch : c + BitVec.ofNat 32 (ticksToMatch c m) = m := by
  rw [add_ofNat_eq_iff, ticksToMatch]
  split
  next h => simp [h]
  next => exact Nat.mod_eq_of_lt (m - c).isLt

theorem add_ne_of_lt_ticksToMatch {k : Nat} (h0 : 0 < k) (hk : k < ticksToMatch c m) :
    c + BitVec.ofNat 32 k ≠ m := by
  rw [Ne, add_ofNat_eq_iff]
  unfold ticksToMatch at hk
  split at hk
  next h =>
    rw [Nat.mod_eq_of_lt hk, h, BitVec.sub_self]
    exact h0.ne'
  next =>
    rw [Nat.mod_eq_of_lt (hk.trans (m - c).isLt)]
    exact hk.ne

end

/-! ## Ticks before the match, and at it (R350) -/

theorem add_ofNat_add_one (c : Word) (k : Nat) :
    c + BitVec.ofNat 32 k + 1 = c + BitVec.ofNat 32 (k + 1) := by
  rw [BitVec.ofNat_add, ← add_assoc]
  rfl

section
variable {s : State} (hte : s.te = true)
include hte

theorem iterate_tick_of_no_match {k : Nat}
    (h : ∀ j, 0 < j → j ≤ k → s.counter + BitVec.ofNat 32 j ≠ s.compare) :
    State.tick^[k] s = { s with counter := s.counter + BitVec.ofNat 32 k } := by
  induction k with
  | zero => simp
  | succ k ih =>
    have hne : s.counter + BitVec.ofNat 32 k + 1 ≠ s.compare := by
      rw [add_ofNat_add_one]
      exact h (k + 1) k.succ_pos le_rfl
    rw [Function.iterate_succ_apply', ih fun j h0 hj => h j h0 (Nat.le_succ_of_le hj),
      State.tick_of_no_match (s := { s with counter := s.counter + BitVec.ofNat 32 k }) hte hne,
      add_ofNat_add_one]

theorem iterate_tick_of_match {k : Nat}
    (h : ∀ j, 0 < j → j ≤ k → s.counter + BitVec.ofNat 32 j ≠ s.compare)
    (hm : s.counter + BitVec.ofNat 32 (k + 1) = s.compare) :
    (State.tick^[k + 1] s).tp = true ∧
      (State.tick^[k + 1] s).int = s.int &&& 0xFFFFFFFE := by
  rw [Function.iterate_succ_apply', iterate_tick_of_no_match hte h,
    State.tick_of_match (s := { s with counter := s.counter + BitVec.ofNat 32 k }) hte
      ((add_ofNat_add_one _ k).trans hm)]
  exact ⟨rfl, rfl⟩

end

/-- Settles O49: before tick `ticksToMatch` no tick matches, and that one does. -/
theorem timerMatchesOnTick : Obligations.TimerMatchesOnTick := by
  intro s hte htp k
  have hbefore : ∀ j, 0 < j → j < k → s.counter + BitVec.ofNat 32 j ≠ s.compare :=
    fun _ => add_ne_of_lt_ticksToMatch
  obtain ⟨l, hl⟩ : ∃ l, k = l + 1 := Nat.exists_eq_succ_of_ne_zero ticksToMatch_pos.ne'
  have hmatch : s.counter + BitVec.ofNat 32 (l + 1) = s.compare := hl ▸ add_ticksToMatch
  obtain ⟨hpending, hint⟩ := iterate_tick_of_match hte
    (fun j h0 hj => hbefore j h0 (by omega)) hmatch
  rw [hl, hint]
  refine ⟨hpending, getLsbD_clearTe_zero _, fun j hj => ?_⟩
  rw [iterate_tick_of_no_match hte fun i h0 hi => hbefore i h0 (by omega)]
  exact ⟨htp, hte⟩

end Sys2Proof.Machine
end

section
/-! SUPPORT. The reset state (70_reset_and_hazards.md R360, R361): what the host's `reset()` gives the
fields that the invariant speaks of, and that power-on is a reset over the empty memory. -/

namespace Sys2Proof.Machine

section
variable (s : State)

@[simp] theorem State.hostReset_mem : s.hostReset.mem = s.mem := rfl

@[simp] theorem State.hostReset_console : s.hostReset.console = s.console := rfl

@[simp] theorem State.hostReset_segTable : s.hostReset.segTable = [] := rfl

@[simp] theorem State.hostReset_vmTable : s.hostReset.vmTable = [] := rfl

@[simp] theorem State.hostReset_inVM : s.hostReset.inVM = false := rfl

@[simp] theorem State.hostReset_vmID : s.hostReset.vmID = 0 := rfl

@[simp] theorem State.hostReset_status : s.hostReset.status = .running := rfl

@[simp] theorem State.hostReset_outcome : s.hostReset.outcome = .continue := rfl

end

theorem State.hostReset_reset : State.reset.hostReset = State.reset := rfl

/-- After a reset both parsed tables are empty, the machine is in host mode with slot 0 live, and no
fatal error is recorded; only the clause on memory rests on the state before. -/
theorem State.inv_hostReset {s : State} (h : s.mem.wf) : s.hostReset.Inv where
  memory := s.hostReset_mem ▸ h
  registerSegments d hd := by simp at hd
  flatMode _ := s.hostReset_segTable
  noVmTable _ := s.hostReset_vmTable
  noSentinelRow := by simp
  hostSlot _ := s.hostReset_vmID
  guestSlot hguest := by simp at hguest
  fatalOutcome r := by simp

/-- Settles O57: power-on is a reset that finds the empty memory, which is canonical. -/
theorem resetMeetsInvariant : Obligations.ResetMeetsInvariant := by
  refine ⟨?_, fun s h => State.inv_hostReset h⟩
  rw [← State.hostReset_reset]
  exact State.inv_hostReset Memory.wf_nil

/-- Settles O58: the fields that the invariant speaks of, memory and the console by their lemmas; the
others are power-on's, which reset copies. -/
theorem resetValues : Obligations.ResetValues := by
  intro s
  exact ⟨rfl, s.hostReset_segTable, rfl, rfl, s.hostReset_inVM, s.hostReset_vmID, rfl, rfl, rfl, rfl,
    rfl, s.hostReset_vmTable, rfl, rfl, rfl, rfl, rfl, rfl, rfl, rfl, rfl, s.hostReset_status,
    s.hostReset_mem, s.hostReset_console⟩

end Sys2Proof.Machine
end
